-- ==== Sys2Proof/Word.lean ====
section
/-! DEFINITION. The word types of the block (rules R10, R11) and their plainest arithmetic. -/

namespace Sys2Proof

/-- A byte, 8 bits (R10). -/
abbrev Byte := BitVec 8

/-- One entry of a byte memory: an index and the byte there. -/
abbrev Cells := List (Nat × Byte)

end Sys2Proof
end

