-- ==== Sys2Proof/Config.lean ====
section
/-! DEFINITION. What an implementation fixes: the named parameters of rules R8 and R9, the types they
speak of (routines, the packet, the Device-State Record), and the free values, which have no body. -/

namespace Sys2Proof

/-- The decode routines behind the demultiplexer (R263). -/
inductive Routine where
  | rawGyro | rawAccel | timing | resolution | hsConverted | hsRaw
  | settings | calibration | identification | temperature
deriving DecidableEq, Repr, Inhabited

/-- The three sensor axes, in the order X, Y, Z (R264). -/
inductive Axis where
  | x | y | z
deriving DecidableEq, Repr, Inhabited

/-- The number fields of the Device-State Record (R33), each with a storage format of its own, which R9
leaves OPEN (D22; log 9). -/
inductive RecordField where
  | sensorsVolts | sensorsConverted | temperature | gyroRange | accelRange | identification
  | outputMode | outputDevice | oversampleRatio | outputRate
  | time | ppsCount | clockError | sequenceNumber
  /-- What the HS_RAW routine writes (R269; log 11). -/
  | hsRaw
deriving DecidableEq, Repr, Inhabited

/-- How many bits the storage format of a record field has (R9: OPEN). DESIGN CHOICE, log 9. -/
opaque Config.storedBits : RecordField → Nat

/-- A stored number of a record field: its pattern in the field's storage format. -/
abbrev Stored (k : RecordField) := BitVec (Config.storedBits k)

/-- The storage format of a record field (R9: OPEN): the pattern it keeps of an exact value. Products and
quotients are exact (D22), and what a format does not hold of them it drops here. DESIGN CHOICE, log 9. -/
opaque Config.store : (k : RecordField) → (exact : ℝ) → Stored k

/-- One stored number for each axis. -/
structure Triple (k : RecordField) where
  x : Stored k
  y : Stored k
  z : Stored k
deriving DecidableEq, Repr, Inhabited

/-- The entry of one axis. -/
def Triple.at {k : RecordField} (t : Triple k) : Axis → Stored k
  | .x => t.x
  | .y => t.y
  | .z => t.z

/-- A float pattern as `DEC_F32` or `DEC_F64` returns it (R162, R164), which a routine stores (R272). -/
inductive FloatPattern where
  | f32 (pattern : BitVec 32)
  | f64 (pattern : BitVec 64)
deriving DecidableEq, Repr, Inhabited

/-- The ranges of the rounding helpers (R170). -/
inductive IntRange where
  | u8 | s8 | u16 | s16 | u24 | s24 | u32 | s32
deriving DecidableEq, Repr, Inhabited

/-- The fields of a settings message (R293). -/
inductive SettingsField where
  | mode | device | ratio | rate
deriving DecidableEq, Repr, Inhabited

/-- The packet value `{type, len, data}` that FEED emits (R32). -/
structure Packet where
  typ : Byte
  len : Byte
  data : List Byte
deriving DecidableEq, Repr, Inhabited

/-- `data` is `bytes[len]` (R32). -/
def Packet.wf (p : Packet) : Bool := p.data.length == p.len.toNat

/-- The Device-State Record (R33): every field the spec names, in the groups R33 lists, each in its open
storage format (log 9). The accelerometer temperatures are no fields of their own (R270; log 13). -/
structure Dsr where
  /-- `SensorsVolts[GYROX..GYROZ]` (R264). -/
  gyroVolts : Triple .sensorsVolts
  /-- `SensorsVolts[ACCELX..ACCELZ]` (R265). -/
  accelVolts : Triple .sensorsVolts
  /-- `SensorsConverted`, the gyro axes (R268). That there are three gyro and three accelerometer entries
  is the model's choice: R33 gives no array size. DESIGN CHOICE, log 13. -/
  gyroConverted : Triple .sensorsConverted
  /-- `SensorsConverted`, the accelerometer axes (R268; their number is log 13). -/
  accelConverted : Triple .sensorsConverted
  /-- The gyro temperature channels (R270). That they are three, one for each axis, is the model's
  choice: R33 gives no array size. DESIGN CHOICE, log 13. -/
  gyroTemp : Triple .temperature
  /-- `GyroRange` (R267). -/
  gyroRange : Stored .gyroRange
  /-- `AccelRange` (R267). -/
  accelRange : Stored .accelRange
  /-- Calibration values by parameter index (R270), as the patterns the float decode returned (R272). That
  there is a place for every index is the model's choice: R33 gives no array size. DESIGN CHOICE, log 13. -/
  calibration : List (Nat × FloatPattern)
  /-- Hardware and software identification fields (R270). R33 gives no list: how many there are is
  free, and that one packet replaces them all is the model's choice. DESIGN CHOICE, log 13. -/
  identification : List (Stored .identification)
  /-- Output mode (R293). -/
  outputMode : Stored .outputMode
  /-- Output device (R293). -/
  outputDevice : Stored .outputDevice
  /-- `OversampleRatio` (R270). -/
  oversampleRatio : Stored .oversampleRatio
  /-- `OutputRate` (R270). -/
  outputRate : Stored .outputRate
  /-- The timing packet's time (R266). -/
  timeMs : Stored .time
  /-- The timing packet's PPS pulse count (R266). -/
  ppsCount : Stored .ppsCount
  /-- The timing packet's signed clock error (R266). -/
  clockError : Stored .clockError
  /-- `SequenceNumber` (R273). -/
  sequenceNumber : Stored .sequenceNumber
  /-- The readings the HS_RAW routine writes, in a field of the model's own: R269 names no field and
  R273 keeps the others. DESIGN CHOICE, log 11. -/
  hsRaw : List (Stored .hsRaw)
deriving DecidableEq, Repr, Inhabited

/-- `ROUND_NAN` (R9, R170): what a rounding helper does with a NaN. -/
inductive RoundNan where
  /-- The spec's default: the operation is refused. -/
  | refuse
  /-- The operation gives a value, which nothing fixes (log 14). -/
  | anyValue
deriving DecidableEq, Repr, Inhabited

/-- `ROUND_IN_FMT` (R9, R170): the format of a rounding helper's operand. -/
inductive RoundFormat where
  | binary32
  | binary64
deriving DecidableEq, Repr, Inhabited

/-- The parameters R9 leaves OPEN that are plain data. They are fixed when the block is built and no
operation changes them (R29, R38; log 6). -/
structure Params where
  /-- `CRC_TABLE` (R31). -/
  crcTable : Vector (BitVec 16) 16
  /-- `TAG_MAP` but for the two tags the spec fixes (R261); the first entry of a tag counts
  (log 24). -/
  tagMap : List (Byte × Routine)
  /-- `ROUND_NAN`. -/
  roundNan : RoundNan
  /-- `ROUND_IN_FMT`. -/
  roundInFmt : RoundFormat
deriving DecidableEq, Repr, Inhabited

/-! ## The literals of R8 -/

/-- `SYNC0_VAL`. -/
def Config.sync0Val : Byte := 0x55
/-- `SYNC1_VAL`. -/
def Config.sync1Val : Byte := 0xAA
/-- `TAG_HS_RAW`: the one tag whose frame has no length byte. -/
def Config.tagHsRaw : Byte := 0xFE
/-- `HS_RAW_LEN`: the implied payload length of a `TAG_HS_RAW` frame. -/
def Config.hsRawLen : Nat := 13
/-- `TAG_HS_RESERVED`: the tags reserved for high-speed types. -/
def Config.tagHsReserved : List Byte := [0xFF, 0xFE, 0xFD]
/-- The reserved tag 0xFD (R93). -/
def Config.tagReservedFd : Byte := 0xFD
/-- The reserved tag 0xFF (R93). -/
def Config.tagReservedFf : Byte := 0xFF
/-- `TAG_RAW_GYRO`. -/
def Config.tagRawGyro : Byte := 0x00
/-- `RAW_GYRO_LEN`. -/
def Config.rawGyroLen : Nat := 7
/-- Bytes of the timing layout: the sum of its fields (R263). -/
def Config.timingLen : Nat := 8
/-- `MAX_PAYLOAD`: the largest payload the data model names. -/
def Config.maxPayload : Nat := 18
/-- The longest payload one length byte can state (R291, R23). -/
def Config.maxFramePayload : Nat := 255
/-- `CRC_INIT`. -/
def Config.crcInit : BitVec 16 := 0x0000
/-- `FLOAT_SENTINEL`, 1.0, as a binary32 pattern (R162). -/
def Config.floatSentinel32 : BitVec 32 := 0x3F800000
/-- `FLOAT_SENTINEL`, 1.0, as a binary64 pattern (R164). -/
def Config.floatSentinel64 : BitVec 64 := 0x3FF0000000000000
/-- `H16_EXP_BITS`. -/
def Config.h16ExpBits : Nat := 6
/-- `H16_MANT_BITS`. -/
def Config.h16MantBits : Nat := 9
/-- `H16_BIAS`. -/
def Config.h16Bias : Nat := 31
/-- The bias of a binary32 exponent (R180 P5). -/
def Config.f32Bias : Nat := 127
/-- `TIMING_DIVISOR`. -/
def Config.timingDivisor : Nat := 10000
/-- `RATE_NUMERATOR`, 1e6. -/
def Config.rateNumerator : Nat := 1000000
/-- `BUF_CAP` (R9, R23). -/
def Config.bufCap : Nat := 261

/-- `CRC_TABLE_DEFAULT` (R203): the spec's own default, not a fact about the original. -/
def Config.crcTableDefault : Vector (BitVec 16) 16 :=
  #v[0x0000, 0x1081, 0x2102, 0x3183, 0x4204, 0x5285, 0x6306, 0x7387,
     0x8408, 0x9489, 0xA50A, 0xB58B, 0xC60C, 0xD68D, 0xE70E, 0xF78F]

/-- The parameters at the defaults the spec chose (R9); `TAG_MAP` binds only what the spec fixes.
DESIGN CHOICE, log 6. -/
def Config.paramsDefault : Params where
  crcTable := Config.crcTableDefault
  tagMap := []
  roundNan := .refuse
  roundInFmt := .binary64

/-! ## Free values

Nothing fixes what these answer; every claim holds whatever they are. -/

/-- What a byte of BUF that no FEED has written reads as (R37, U11: "any value"). DESIGN CHOICE, log 7. -/
opaque Config.bufUnwritten : Nat → Byte

/-- The Device-State Record before any packet has been decoded (R37, U12). DESIGN CHOICE, log 8. -/
opaque Config.dsrAtReset : Dsr

/-- `ANALOG_SCALE_GYRO` (R9: OPEN), a real constant. DESIGN CHOICE, log 10. -/
opaque Config.analogScaleGyro : ℝ

/-- `ANALOG_SCALE_ACCEL` (R9: OPEN), a real constant. DESIGN CHOICE, log 10. -/
opaque Config.analogScaleAccel : ℝ

/-- `GyroRange` from a resolution payload (R267: the layout is not given). DESIGN CHOICE, log 11. -/
opaque Config.resolutionGyroRange : List Byte → Stored .gyroRange

/-- `AccelRange` from a resolution payload (R267). DESIGN CHOICE, log 11. -/
opaque Config.resolutionAccelRange : List Byte → Stored .accelRange

/-- The converted gyro readings, from `GyroRange` and the payload (R268). DESIGN CHOICE, log 11. -/
opaque Config.hsConvertedGyro : Stored .gyroRange → List Byte → Triple .sensorsConverted

/-- The converted accelerometer readings, from `AccelRange` and the payload (R268). DESIGN CHOICE, log 11. -/
opaque Config.hsConvertedAccel : Stored .accelRange → List Byte → Triple .sensorsConverted

/-- The readings in a high-speed raw payload (R269: no layout). DESIGN CHOICE, log 11. -/
opaque Config.hsRawReadings : List Byte → List (Stored .hsRaw)

/-- In which order the four fields of a settings message stand (R293: not given): the field at the place
of `mode`, `device`, `ratio`, `rate`. DESIGN CHOICE, log 22. -/
opaque Config.settingsOrder : Equiv.Perm SettingsField

/-- The width of each field of a settings message, and the helper that narrows the period (R293: not
given). DESIGN CHOICE, log 22. -/
opaque Config.settingsFormat : SettingsField → IntRange

/-- `RATE_NUMERATOR / 0` in the "1e6/rate transform": the spec states no result. DESIGN CHOICE, log 22. -/
opaque Config.transformOfZero : ℚ

/-- Whether the index of an inbound calibration payload stands before the float (R270: the order is not
given). DESIGN CHOICE, log 11. -/
opaque Config.calibrationIndexFirst : Bool

/-- How many bytes the index of an inbound calibration payload has (R270: not given). Nothing ties it to the
outbound one. DESIGN CHOICE, log 11. -/
opaque Config.calibrationIndexBytes : Nat

/-- Whether the float of an inbound calibration payload is binary64 (R270: not said which). Nothing ties
it to the outbound one. DESIGN CHOICE, log 11. -/
opaque Config.calibrationIsF64 : Bool

/-- The identification fields of an identification payload (R270). DESIGN CHOICE, log 11. -/
opaque Config.identificationFields : List Byte → List (Stored .identification)

/-- The gyro temperature channels from a temperature payload (R270). DESIGN CHOICE, log 11. -/
opaque Config.temperatureChannels : List Byte → Triple .temperature

/-- Which gyro channel the accelerometer temperature entry of an axis reuses (R270). DESIGN CHOICE, log 13. -/
opaque Config.accelTempChannel : Axis → Axis

/-- How many payload bytes the layout of a routine reads where the spec gives no layout (R263, R271).
DESIGN CHOICE, log 12. -/
opaque Config.openLayoutLen : Routine → Nat

/-- The value a rounding helper gives for a NaN where `ROUND_NAN` is a value, before it is held to the
helper's range (R170, U4). DESIGN CHOICE, log 14. -/
opaque Config.roundNanValue : IntRange → (pattern : BitVec 64) → Int

/-- How many bytes the index of an outbound calibration message has (R296: not given). DESIGN CHOICE, log 22. -/
opaque Config.calibrationIndexWidth : Nat

/-- Whether the float of an outbound calibration message is binary64 (R296: not given). Nothing ties it to
the inbound one. DESIGN CHOICE, log 22. -/
opaque Config.calibrationSetIsF64 : Bool

end Sys2Proof
end

