-- ==== Sys2Proof/Syntax.lean ====
section
/-! DEFINITION. The instructions: one constructor per row of `spec/opcode_table.json`, and the three
code spaces the rows lie in (`30_encoding.md`: OP6, TAG8, FRAME). -/

namespace Sys2Proof

/-- One constructor per row of the opcode table. The two FRAME rows carry the fields of their wire
format (R81, R82); the operations carry none: their operands stand on the operand port (R39, R101). -/
inductive Instr where
  /-- FRAME_HS_RAW (R82): payload and trailer; type 0xFE, no length byte. -/
  | frameHsRaw (payload : List Byte) (crc : BitVec 16)
  /-- FRAME_STD (R81): type byte, payload and trailer; the length byte is the payload's length. -/
  | frameStd (typ : Byte) (payload : List Byte) (crc : BitVec 16)
  | tagRawGyro
  | tagHsRaw
  | tagReservedFd
  | tagReservedFf
  | decU16Be | decS16Be | decU24Be | decS24Be | decU32Be | decS32Be | decU64Be | decS64Be
  | decU16Le | decS16Le | decU24Le | decS24Le | decU32Le | decS32Le | decU64Le | decS64Le
  | enc16Be | enc24Be | enc32Be | enc64Be
  | enc16Le | enc24Le | enc32Le | enc64Le
  | decF32 | decF64
  | encF32Be | encF32Le | encF64Be | encF64Le
  | f32ToH16 | h16ToF32
  | roundU8 | roundS8 | roundU16 | roundS16 | roundU24 | roundS24 | roundU32 | roundS32
  | crc16Byte | crc16Block
  | feed
  | reset
  | dispatch
  | encodeFrame
deriving DecidableEq, Repr

/-- What selects an instruction: a 6-bit operation code on the request port (R39, R100), the type tag of
a packet at the demultiplexer (R261), or bytes offered on the wire, first byte first (R39, R80). -/
inductive Code where
  | op6 (code : BitVec 6)
  | tag8 (tag : Byte)
  | wire (bytes : List Byte)
deriving DecidableEq, Repr

/-- Why nothing is decoded. -/
inductive DecodeError where
  /-- An operation code with no operation (R101, U17). -/
  | undefinedOp (code : BitVec 6)
  /-- No byte is offered (R70). -/
  | noneAvailable
deriving DecidableEq, Repr

end Sys2Proof
end

