-- ==== Sys2Proof/WellFormed.lean ====
section
/-! DEFINITION. Which instructions have an encoding: the limits on a frame's fields (R81, R82). -/

namespace Sys2Proof

/-- A length byte can state the payload's length (R81). -/
def payloadFits (payload : List Byte) : Bool := decide (payload.length ≤ Config.maxFramePayload)

/-- FRAME_STD: any type byte but 0xFE, and at most 255 payload bytes (R81).
FRAME_HS_RAW: exactly 13 payload bytes (R82). Every other instruction has no field to limit. -/
def Instr.wellFormed : Instr → Bool
  | .frameHsRaw payload _ => payload.length == Config.hsRawLen
  | .frameStd typ payload _ => typ != Config.tagHsRaw && payloadFits payload
  | .tagRawGyro | .tagHsRaw | .tagReservedFd | .tagReservedFf
  | .decU16Be | .decS16Be | .decU24Be | .decS24Be | .decU32Be | .decS32Be | .decU64Be | .decS64Be
  | .decU16Le | .decS16Le | .decU24Le | .decS24Le | .decU32Le | .decS32Le | .decU64Le | .decS64Le
  | .enc16Be | .enc24Be | .enc32Be | .enc64Be
  | .enc16Le | .enc24Le | .enc32Le | .enc64Le
  | .decF32 | .decF64
  | .encF32Be | .encF32Le | .encF64Be | .encF64Le
  | .f32ToH16 | .h16ToF32
  | .roundU8 | .roundS8 | .roundU16 | .roundS16 | .roundU24 | .roundS24 | .roundU32 | .roundS32
  | .crc16Byte | .crc16Block | .feed | .reset | .dispatch | .encodeFrame => true

end Sys2Proof
end

