-- ==== Sys2Proof/Decode.lean ====
section
/-! DEFINITION. Decoding and encoding (`30_encoding.md`): the operation codes of R101 and R102, the type
tags of R92 and R93, and the two wire frame formats of R81 and R82. The decoder is total on any bytes. -/

namespace Sys2Proof

/-! ## Byte order -/

/-- `be(bs)` (R121): the unsigned number whose most significant byte comes first. -/
def beValue (bs : List Byte) : Nat := bs.foldl (fun acc b => acc * 256 + b.toNat) 0

/-- `le(bs)` (R122): the unsigned number whose least significant byte comes first. -/
def leValue (bs : List Byte) : Nat := beValue bs.reverse

/-- `bytes_be(p, n)` (R141): the n bytes of `p mod 256^n`, most significant first. -/
def bytesBe : (n : Nat) → (p : Nat) → List Byte
  | 0, _ => []
  | n + 1, p => BitVec.ofNat 8 (p / 256 ^ n) :: bytesBe n p

/-- `bytes_le(p, n)` (R141): the reverse of `bytes_be(p, n)`. -/
def bytesLe (n p : Nat) : List Byte := (bytesBe n p).reverse

/-! ## Decoding -/

/-- The operation with the code `c` (R102). -/
def operationAt : (c : Nat) → Option Instr
  | 0x00 => some .decU16Be
  | 0x01 => some .decS16Be
  | 0x02 => some .decU24Be
  | 0x03 => some .decS24Be
  | 0x04 => some .decU32Be
  | 0x05 => some .decS32Be
  | 0x06 => some .decU64Be
  | 0x07 => some .decS64Be
  | 0x08 => some .decU16Le
  | 0x09 => some .decS16Le
  | 0x0A => some .decU24Le
  | 0x0B => some .decS24Le
  | 0x0C => some .decU32Le
  | 0x0D => some .decS32Le
  | 0x0E => some .decU64Le
  | 0x0F => some .decS64Le
  | 0x10 => some .enc16Be
  | 0x11 => some .enc24Be
  | 0x12 => some .enc32Be
  | 0x13 => some .enc64Be
  | 0x14 => some .enc16Le
  | 0x15 => some .enc24Le
  | 0x16 => some .enc32Le
  | 0x17 => some .enc64Le
  | 0x18 => some .decF32
  | 0x19 => some .decF64
  | 0x1A => some .encF32Be
  | 0x1B => some .encF32Le
  | 0x1C => some .encF64Be
  | 0x1D => some .encF64Le
  | 0x1E => some .f32ToH16
  | 0x1F => some .h16ToF32
  | 0x20 => some .roundU8
  | 0x21 => some .roundS8
  | 0x22 => some .roundU16
  | 0x23 => some .roundS16
  | 0x24 => some .roundU24
  | 0x25 => some .roundS24
  | 0x26 => some .roundU32
  | 0x27 => some .roundS32
  | 0x28 => some .crc16Byte
  | 0x29 => some .crc16Block
  | 0x30 => some .feed
  | 0x31 => some .reset
  | 0x32 => some .dispatch
  | 0x33 => some .encodeFrame
  | _ => none

/-- An operation code (R101); a code with no operation is named in the error (U17). -/
def decodeOp (c : BitVec 6) : Except DecodeError Instr :=
  match operationAt c.toNat with
  | some i => .ok i
  | none => .error (.undefinedOp c)

/-- The type tag of a packet at the demultiplexer (R261): the four tags with a row of their own, and
DISPATCH, whose rule covers every tag, for the rest (R262; log 5). -/
def decodeTag (t : Byte) : Instr :=
  if t = Config.tagRawGyro then .tagRawGyro
  else if t = Config.tagHsRaw then .tagHsRaw
  else if t = Config.tagReservedFd then .tagReservedFd
  else if t = Config.tagReservedFf then .tagReservedFf
  else .dispatch

/-- `n` payload bytes and a big-endian trailer (R90) from the front of `bs`, and what is left. -/
def splitBody (n : Nat) (bs : List Byte) : Option (List Byte × BitVec 16 × List Byte) :=
  if n ≤ bs.length then
    match bs.drop n with
    | hi :: lo :: left => some (bs.take n, hi ++ lo, left)
    | _ => none
  else none

/-- The frame at the front of `bs` (R83), if a whole one is there, and the bytes after it. -/
def decodeFrame : List Byte → Option (Instr × List Byte)
  | b0 :: b1 :: t :: rest =>
    if b0 = Config.sync0Val ∧ b1 = Config.sync1Val then
      if t = Config.tagHsRaw then
        (splitBody Config.hsRawLen rest).map fun r => (.frameHsRaw r.1 r.2.1, r.2.2)
      else
        match rest with
        | len :: body => (splitBody len.toNat body).map fun r => (.frameStd t r.1 r.2.1, r.2.2)
        | [] => none
    else none
  | _ => none

/-- Bytes on the wire: a whole frame at the front is its FRAME row; else the first byte is a FEED
(R39; log 5). -/
def decodeWire : List Byte → Except DecodeError (Instr × List Byte)
  | [] => .error .noneAvailable
  | b :: bs =>
    match decodeFrame (b :: bs) with
    | some r => .ok r
    | none => .ok (.feed, bs)

/-- The decoder: the instruction, and the wire bytes after it. -/
def decode : Code → Except DecodeError (Instr × List Byte)
  | .op6 c => (decodeOp c).map fun i => (i, [])
  | .tag8 t => .ok (decodeTag t, [])
  | .wire bs => decodeWire bs

/-! ## Encoding -/

/-- The wire bytes of an ordinary frame (R81). -/
def frameStdBytes (typ : Byte) (payload : List Byte) (crc : BitVec 16) : List Byte :=
  [Config.sync0Val, Config.sync1Val, typ, BitVec.ofNat 8 payload.length] ++ payload
    ++ bytesBe 2 crc.toNat

/-- The wire bytes of a high-speed raw frame (R82): no length byte. -/
def frameHsRawBytes (payload : List Byte) (crc : BitVec 16) : List Byte :=
  [Config.sync0Val, Config.sync1Val, Config.tagHsRaw] ++ payload ++ bytesBe 2 crc.toNat

/-- The encoding of a well-formed instruction. -/
def encode : Instr → Code
  | .frameHsRaw payload crc => .wire (frameHsRawBytes payload crc)
  | .frameStd typ payload crc => .wire (frameStdBytes typ payload crc)
  | .tagRawGyro => .tag8 Config.tagRawGyro
  | .tagHsRaw => .tag8 Config.tagHsRaw
  | .tagReservedFd => .tag8 Config.tagReservedFd
  | .tagReservedFf => .tag8 Config.tagReservedFf
  | .decU16Be => .op6 0x00
  | .decS16Be => .op6 0x01
  | .decU24Be => .op6 0x02
  | .decS24Be => .op6 0x03
  | .decU32Be => .op6 0x04
  | .decS32Be => .op6 0x05
  | .decU64Be => .op6 0x06
  | .decS64Be => .op6 0x07
  | .decU16Le => .op6 0x08
  | .decS16Le => .op6 0x09
  | .decU24Le => .op6 0x0A
  | .decS24Le => .op6 0x0B
  | .decU32Le => .op6 0x0C
  | .decS32Le => .op6 0x0D
  | .decU64Le => .op6 0x0E
  | .decS64Le => .op6 0x0F
  | .enc16Be => .op6 0x10
  | .enc24Be => .op6 0x11
  | .enc32Be => .op6 0x12
  | .enc64Be => .op6 0x13
  | .enc16Le => .op6 0x14
  | .enc24Le => .op6 0x15
  | .enc32Le => .op6 0x16
  | .enc64Le => .op6 0x17
  | .decF32 => .op6 0x18
  | .decF64 => .op6 0x19
  | .encF32Be => .op6 0x1A
  | .encF32Le => .op6 0x1B
  | .encF64Be => .op6 0x1C
  | .encF64Le => .op6 0x1D
  | .f32ToH16 => .op6 0x1E
  | .h16ToF32 => .op6 0x1F
  | .roundU8 => .op6 0x20
  | .roundS8 => .op6 0x21
  | .roundU16 => .op6 0x22
  | .roundS16 => .op6 0x23
  | .roundU24 => .op6 0x24
  | .roundS24 => .op6 0x25
  | .roundU32 => .op6 0x26
  | .roundS32 => .op6 0x27
  | .crc16Byte => .op6 0x28
  | .crc16Block => .op6 0x29
  | .feed => .op6 0x30
  | .reset => .op6 0x31
  | .dispatch => .op6 0x32
  | .encodeFrame => .op6 0x33

/-! ## The opcode table's words -/

/-- Zero bytes after a FRAME row's first three: what the longest frame they can begin still needs
when every later byte is 0 (13 payload bytes and the trailer, R82). -/
def zeroTail : List Byte := List.replicate (Config.hsRawLen + 2) 0

/-- The type tags that have a TAG8 row: the raw-gyro tag and the tags reserved for high-speed types. -/
def tagRows : List Byte := Config.tagRawGyro :: Config.tagHsReserved

/-- The code that a table row's word stands for (log 2). A FRAME row's number is its first three wire
bytes, byte 0 most significant. A byte that a TAG8 row fixes whole is that tag; every other byte, and a
word of 6 bits, is an operation code, which stands in bits 5:0. -/
def tableCode (nbits w : Nat) : Code :=
  if nbits ≤ 8 then
    if 6 < nbits ∧ BitVec.ofNat 8 w ∈ tagRows then .tag8 (BitVec.ofNat 8 w)
    else .op6 (BitVec.ofNat 6 w)
  else .wire (bytesBe ((nbits + 7) / 8) w ++ zeroTail)

/-- The instruction the decoder reads from a table row's word. -/
def decodeTableWord (nbits w : Nat) : Option Instr :=
  match decode (tableCode nbits w) with
  | .ok (i, _) => some i
  | .error _ => none

end Sys2Proof
end

