-- ==== Sys2Proof/Machine/State.lean ====
section
/-! DEFINITION. The state of the block as plain data (`10_state.md`), the reasons a step can stop, and
the state after reset (R37). -/

namespace Sys2Proof.Machine

/-- `STAGE` (R21): what the next input byte will be taken as. -/
inductive Stage where
  | sync0 | sync1 | type | len | data
deriving DecidableEq, Repr

/-- A byte memory (R23): (index, byte) pairs, indices strictly rising. A byte that nothing has written
is not listed and has no value of its own. -/
abbrev Memory := List Host.Cell

/-- The Framer State (R20): the persistent state of one instance. -/
structure Framer where
  /-- `STAGE` (R21). -/
  stage : Stage
  /-- `IDX` (R22). -/
  idx : BitVec 9
  /-- `BUF` (R23). -/
  buf : Memory
  /-- `OVERSIZE` (R28). -/
  oversize : Bool
deriving DecidableEq, Repr

/-- The operand side of the request port (R39): what the caller hands to an operation. Operands are
parameters of a step, not state of the block (R38); the fields are the model's (log 17). -/
structure Operands where
  /-- The byte buffer of `DEC_*`, `ENC_*`, the byte sequence of `CRC16_BLOCK`, the payload of
  `ENCODE_FRAME` (R35). -/
  buf : List Byte
  /-- The offset `@o` of a buffer access (R54). -/
  off : Nat
  /-- The integer operand of `ENC_N_*`, signed or unsigned (R141). -/
  val : Int
  /-- A binary32 pattern. -/
  f32 : BitVec 32
  /-- A binary64 pattern. -/
  f64 : BitVec 64
  /-- An H16 pattern. -/
  h16 : BitVec 16
  /-- The byte of `FEED` (`rx_data`) and of `CRC16_BYTE`. -/
  byte : Byte
  /-- The running accumulator of `CRC16_BYTE` (R30). -/
  acc : BitVec 16
  /-- The type tag of `ENCODE_FRAME`. -/
  tag : Byte
  /-- The packet of `DISPATCH` and of the TAG8 rows. -/
  pkt : Packet
deriving DecidableEq, Repr

/-- The result of the last step's operation (R39, R27). It belongs to that step only (log 16). -/
inductive Result where
  /-- No operation in this step. -/
  | idle
  | u8 (v : BitVec 8) | s8 (v : BitVec 8)
  | u16 (v : BitVec 16) | s16 (v : BitVec 16)
  | u32 (v : BitVec 32) | s32 (v : BitVec 32)
  | u64 (v : BitVec 64) | s64 (v : BitVec 64)
  /-- `DEC_F32`: the pattern and the flag `invalid` (R162). -/
  | f32 (v : BitVec 32) (invalid : Bool)
  /-- `DEC_F64`: the pattern and the flag `invalid` (R164). -/
  | f64 (v : BitVec 64) (invalid : Bool)
  /-- `F32_TO_H16` (R181). -/
  | bits16 (v : BitVec 16)
  /-- `H16_TO_F32` (R183). -/
  | bits32 (v : BitVec 32)
  /-- `ENC_*`: the number of bytes written (R141). -/
  | count (n : Nat)
  /-- `FEED`: the packet emitted, if any (R220). -/
  | feed (pkt : Option Packet)
  /-- A FRAME row: the result of each of its FEEDs, in order (R105). -/
  | stream (results : List (Option Packet))
  /-- `RESET` (R231). -/
  | done
  /-- `DISPATCH` and the TAG8 rows: the routine selected, if any (R261). -/
  | selected (routine : Option Routine)
  /-- `ENCODE_FRAME`: the framed bytes (R291). -/
  | block (bytes : List Byte)
deriving DecidableEq, Repr

/-- What the environment asks of the block in one step (R38, R39; log 1). -/
inductive Request where
  /-- An operation code with its operands on the operand port. -/
  | op (code : BitVec 6) (args : Operands)
  /-- A packet with this type tag and payload at the demultiplexer. -/
  | tag (tag : Byte) (payload : List Byte)
  /-- Bytes offered by the transport, first byte first. -/
  | wire (bytes : List Byte)
deriving DecidableEq, Repr

/-- The whole state of the model. -/
structure State where
  /-- The Framer State (R20). -/
  framer : Framer
  /-- The Device-State Record (R33). -/
  dsr : Dsr
  /-- The build-time parameters (R9, R29; log 6). -/
  cfg : Params
  /-- The operand port (R39; log 17). -/
  port : Operands
  /-- The result port (R39; log 16). -/
  out : Result
  /-- The environment's requests to come (R38; log 1). -/
  pending : List Request
deriving DecidableEq, Repr

/-- The block raises no exception and takes no trap, so no step faults (R311; log 23). -/
inductive Fault : Type
deriving DecidableEq, Repr

/-- The operands or codes to which the spec gives no meaning (R317). A refusal leaves no effect (R322).
Each is the spec's own and safe: it errs toward unprovable. -/
inductive Refusal where
  /-- Raised by `exec` for an instruction the model gives no meaning to. Safe. -/
  | notModelled (mnemonic : String)
  /-- Raised by `step` on an operation code with no operation (R101, U17). Safe. -/
  | undefinedOp (code : BitVec 6)
  /-- Raised by an access that would pass the end of its buffer (R57, U3). Safe. -/
  | bufferEnd
  /-- Raised by `ROUND_*` on a NaN while `ROUND_NAN` is refuse (R170, U4). Safe. -/
  | roundNan
  /-- Raised by `ENCODE_FRAME` on more than 255 payload bytes (R291, U13). Safe. -/
  | payloadTooLong
  /-- Raised by a decode routine on a payload shorter than its layout (R271, U5). Safe. -/
  | shortPayload
deriving DecidableEq, Repr

/-- The Framer State after reset (R37); nothing of BUF is written. -/
def Framer.reset : Framer where
  stage := .sync0
  idx := 0
  buf := []
  oversize := false

/-- The operand port while nothing is requested: zero or empty (log 17). -/
def Operands.reset : Operands where
  buf := []
  off := 0
  val := 0
  f32 := 0
  f64 := 0
  h16 := 0
  byte := 0
  acc := 0
  tag := 0
  pkt := { typ := 0, len := 0, data := [] }

/-- The machine right after reset (R37, R340). The record is the caller's and unspecified (log 8); the
parameters stand at the spec's defaults (log 6); no request is pending (log 18). -/
def State.reset : State where
  framer := Framer.reset
  dsr := Config.dsrAtReset
  cfg := Config.paramsDefault
  port := Operands.reset
  out := .idle
  pending := []

/-- What a step answers. -/
abbrev Answer := Host.Outcome State Fault Refusal

/-- The state with the result `r` on the result port. -/
def State.withOut (s : State) (r : Result) : State := { s with out := r }

/-- The state with the Framer State `f`. -/
def State.withFramer (s : State) (f : Framer) : State := { s with framer := f }

/-- The state with the Device-State Record `d`. -/
def State.withDsr (s : State) (d : Dsr) : State := { s with dsr := d }

/-- The state with the operand buffer `b`. -/
def State.withBuf (s : State) (b : List Byte) : State := { s with port := { s.port with buf := b } }

/-- The register code of a stage (R21). -/
def Stage.code : Stage → BitVec 3
  | .sync0 => 0
  | .sync1 => 1
  | .type => 2
  | .len => 3
  | .data => 4

end Sys2Proof.Machine
end

