-- ==== Sys2Proof/Machine/Ops.lean ====
section
/-! DEFINITION. The named operations over memory and buffers (`20_memory.md`), which every meaning uses.
The block takes no exception and returns from none (R311, R322, R323): there is no such operation here;
the one way an operation can have no result is a refusal (R317), which leaves no effect. -/

namespace Sys2Proof.Machine

/-! ## The frame buffer BUF -/

/-- The byte at index `a`, where something has written one. -/
def Memory.read (m : Memory) (a : Nat) : Option Byte := (m.find? fun c => c.1 == a).map (·.2)

/-- What index `a` reads as: an unwritten byte is a free value (U11; log 7). -/
def Memory.byte (m : Memory) (a : Nat) : Byte := (Memory.read m a).getD (Config.bufUnwritten a)

/-- Write one byte, keeping the indices strictly rising. -/
def Memory.write : (m : Memory) → (a : Nat) → (b : Byte) → Memory
  | [], a, b => [(a, b)]
  | c :: m, a, b =>
    if a < c.1 then (a, b) :: c :: m
    else if a = c.1 then (a, b) :: m
    else c :: Memory.write m a b

/-- The `n` bytes from index `off` (R13 `MemRead`). -/
def Memory.bytes (m : Memory) (off n : Nat) : List Byte :=
  (List.range n).map fun i => Memory.byte m (off + i)

/-- The canonical form of BUF: indices strictly rising and below `BUF_CAP`. No entry can equal what an
unlisted index reads as, which has no value of its own. -/
def Memory.wf (m : Memory) : Bool :=
  decide ((m.map (·.1)).Pairwise (· < ·)) && m.all fun c => decide (c.1 < Config.bufCap)

/-! ## Buffers of the caller -/

/-- `MemRead(buf, off, n)` (R54); nothing where the access passes the end (R57). -/
def memRead (buf : List Byte) (off n : Nat) : Option (List Byte) :=
  if off + n ≤ buf.length then some ((buf.drop off).take n) else none

/-- `MemWrite(buf, off, n, bs)` (R55), `n` the number of bytes; nothing where it passes the end (R57). -/
def memWrite (buf : List Byte) (off : Nat) (bs : List Byte) : Option (List Byte) :=
  if off + bs.length ≤ buf.length then
    some (buf.take off ++ bs ++ buf.drop (off + bs.length))
  else none

/-- Go on with the value, or refuse. -/
def orRefuse {α : Type} (x : Except Refusal α) (k : α → State) : Answer :=
  match x with
  | .ok v => .next (k v)
  | .error r => .refused r

end Sys2Proof.Machine
end

