-- ==== Sys2Proof/Machine/Operands.lean ====
section
/-! DEFINITION. The operand forms: integer fields of a buffer in either byte order (R84 to R86, R121 to
R123, R141), 16-bit float and IEEE-754 fields (R87 to R89), and the operand of a rounding helper (R170). -/

namespace Sys2Proof

/-! ## Integer ranges -/

/-- MIN of a range (R170). -/
def IntRange.lo : IntRange → Int
  | .u8 | .u16 | .u24 | .u32 => 0
  | .s8 => -128
  | .s16 => -32768
  | .s24 => -8388608
  | .s32 => -2147483648

/-- MAX of a range (R170). -/
def IntRange.hi : IntRange → Int
  | .u8 => 255
  | .s8 => 127
  | .u16 => 65535
  | .s16 => 32767
  | .u24 => 16777215
  | .s24 => 8388607
  | .u32 => 4294967295
  | .s32 => 2147483647

/-- How many bytes a field of the range has. -/
def IntRange.bytes : IntRange → Nat
  | .u8 | .s8 => 1
  | .u16 | .s16 => 2
  | .u24 | .s24 => 3
  | .u32 | .s32 => 4

/-- The value of a field of the range, from its unsigned number: two's complement where the range is
signed (R123). -/
def IntRange.value (r : IntRange) (u : Nat) : Int := if r.hi < u then (u : Int) - 256 ^ r.bytes else u

end Sys2Proof

namespace Sys2Proof.Machine

/-- The byte order an operation's name says (R53). -/
inductive ByteOrder where
  | be | le
deriving DecidableEq, Repr

/-- The unsigned number of a byte sequence in an order (R121, R122). -/
def ByteOrder.value : ByteOrder → List Byte → Nat
  | .be => beValue
  | .le => leValue

/-- The `n` bytes of a number in an order (R141). -/
def ByteOrder.bytes : ByteOrder → (n p : Nat) → List Byte
  | .be => bytesBe
  | .le => bytesLe

/-- The unsigned integer field of `n` bytes at offset `off` (R84). -/
def readField (o : ByteOrder) (buf : List Byte) (off n : Nat) : Option Nat :=
  (memRead buf off n).map o.value

/-- The buffer with the `n` bytes of `p mod 256^n` at offset `off` (R141). -/
def writeField (o : ByteOrder) (buf : List Byte) (off n p : Nat) : Option (List Byte) :=
  memWrite buf off (o.bytes n p)

/-- `v mod 2^(8n)`: the low bits of `v` in two's complement (R141). -/
def truncateTo (n : Nat) (v : Int) : Nat := (v % 256 ^ n).toNat

/-- A decode operation: the field, as the result `mk` makes of its unsigned value (R120); refused where
the access passes the end of the buffer (R57). -/
def decodeField (o : ByteOrder) (n : Nat) (mk : Nat → Result) (s : State) : Answer :=
  match readField o s.port.buf s.port.off n with
  | some u => .next (s.withOut (mk u))
  | none => .refused .bufferEnd

/-- An encode operation: write `p` and answer the count (R120); refused, with nothing written, where the
access passes the end of the buffer (R57). -/
def encodeField (o : ByteOrder) (n p : Nat) (s : State) : Answer :=
  match writeField o s.port.buf s.port.off n p with
  | some b => .next ((s.withBuf b).withOut (.count n))
  | none => .refused .bufferEnd

/-! ## Float fields -/

/-- The exponent of a binary32 pattern (R87). -/
def f32Exp (u : BitVec 32) : BitVec 8 := u.extractLsb' 23 8
/-- The mantissa of a binary32 pattern (R87). -/
def f32Mant (u : BitVec 32) : BitVec 23 := u.extractLsb' 0 23
/-- The exponent of a binary64 pattern (R88). -/
def f64Exp (u : BitVec 64) : BitVec 11 := u.extractLsb' 52 11
/-- The mantissa of a binary64 pattern (R88). -/
def f64Mant (u : BitVec 64) : BitVec 52 := u.extractLsb' 0 52
/-- The exponent field of an H16 pattern (R89), of `H16_EXP_BITS` bits above the mantissa. -/
def h16Exp (h : BitVec 16) : Nat := h.toNat / 2 ^ Config.h16MantBits % 2 ^ Config.h16ExpBits
/-- The mantissa field of an H16 pattern (R89), of `H16_MANT_BITS` bits. -/
def h16Mant (h : BitVec 16) : Nat := h.toNat % 2 ^ Config.h16MantBits
/-- The H16 pattern with these fields (R89). -/
def h16Pattern (neg : Bool) (e m : Nat) : BitVec 16 :=
  BitVec.ofNat 16 ((neg.toNat * 2 ^ Config.h16ExpBits + e) * 2 ^ Config.h16MantBits + m)

/-- A number that a rounding helper is given, classified: a finite one is `(-1)^neg * num / den` exactly. -/
inductive RealOperand where
  | finite (neg : Bool) (num den : Nat)
  | infinite (neg : Bool)
  /-- Not a number, with its pattern in 64 bits. -/
  | nan (pattern : BitVec 64)
deriving DecidableEq, Repr

/-- `(-1)^neg * mant * 2^exp`, exactly. -/
def dyadic (neg : Bool) (mant : Nat) : (exp : Int) → RealOperand
  | .ofNat k => .finite neg (mant * 2 ^ k) 1
  | .negSucc k => .finite neg mant (2 ^ (k + 1))

/-- A rational number. -/
def ofRational (x : ℚ) : RealOperand := .finite (decide (x.num < 0)) x.num.natAbs x.den

/-- The value of `pattern`, with exponent field `e` of `eb` bits and mantissa field `m` of `mb` bits
(IEEE-754, R87, R88; R185: subnormals are ordinary numbers here). -/
def floatValue (eb mb : Nat) (neg : Bool) (e m : Nat) (pattern : BitVec 64) : RealOperand :=
  if e = 2 ^ eb - 1 then (if m = 0 then .infinite neg else .nan pattern)
  else if e = 0 then dyadic neg m (1 - (2 ^ (eb - 1) - 1 : Int) - mb)
  else dyadic neg (2 ^ mb + m) ((e : Int) - (2 ^ (eb - 1) - 1 : Int) - mb)

/-- The value of a binary32 pattern. -/
def valueF32 (u : BitVec 32) : RealOperand :=
  floatValue 8 23 u.msb (f32Exp u).toNat (f32Mant u).toNat (u.setWidth 64)
/-- The value of a binary64 pattern. -/
def valueF64 (u : BitVec 64) : RealOperand :=
  floatValue 11 52 u.msb (f64Exp u).toNat (f64Mant u).toNat u

/-- The operand of a rounding helper, in the format `ROUND_IN_FMT` names (R170). -/
def roundOperand (s : State) : RealOperand :=
  match s.cfg.roundInFmt with
  | .binary32 => valueF32 s.port.f32
  | .binary64 => valueF64 s.port.f64

end Sys2Proof.Machine
end

