-- ==== Sys2Proof/Machine/Flags.lean ====
section
/-! DEFINITION. The block's flag-like outputs (R27): `invalid`, `OVERSIZE`, `pkt_valid`, and the other
outputs of the suggested signal binding that a step leaves on the result port (R39). -/

namespace Sys2Proof.Machine

/-- `INVALID32` (R161): exponent all ones, or exponent zero and mantissa not. -/
def invalid32 (u : BitVec 32) : Bool :=
  f32Exp u == 0xFF || (f32Exp u == 0 && f32Mant u != 0)

/-- `INVALID64` (R164). -/
def invalid64 (u : BitVec 64) : Bool :=
  f64Exp u == 0x7FF || (f64Exp u == 0 && f64Mant u != 0)

/-- `OVERSIZE` after a FEED in stage LEN latches the length byte `b` (R28, R224): sticky. -/
def oversizeAfter (was : Bool) (b : Byte) : Bool := was || decide (Config.maxPayload < b.toNat)

/-- The results of the FEEDs of the last step, in order: one for a FEED, one for each byte of a FRAME row
(R105), none for any other operation. -/
def State.feedResults (s : State) : List (Option Packet) :=
  match s.out with
  | .feed p => [p]
  | .stream ps => ps
  | _ => []

/-- The packets this step emitted, in order. -/
def State.emitted (s : State) : List Packet := s.feedResults.reduceOption

/-- `pkt_valid` of each FEED of the step, in order (R27, R220): 1 exactly when that FEED emitted a packet. -/
def State.pktValids (s : State) : List Bool := s.feedResults.map Option.isSome

/-- `pkt_valid` of the step (R320): a FEED of this step emitted a packet (log 16). -/
def State.pktValid (s : State) : Bool := s.pktValids.any id

/-- The packet on the result port (R32): the last one that a FEED of this step emitted. -/
def State.packetOut (s : State) : Option Packet := s.emitted.getLast?

/-- `pkt_rd_data` (R39): byte `i` of that packet's payload. -/
def State.pktRdData (s : State) (i : Nat) : Option Byte := s.packetOut.bind fun p => p.data[i]?

/-- `invalid` (R27): this step's DEC_F32 or DEC_F64 met an INVALID pattern. -/
def State.invalidOut (s : State) : Bool :=
  match s.out with
  | .f32 _ b => b
  | .f64 _ b => b
  | _ => false

/-- `sel[r]` (R261): one-hot, all 0 where no routine is selected. -/
def State.sel (s : State) (r : Routine) : Bool :=
  match s.out with
  | .selected (some r') => r' == r
  | _ => false

end Sys2Proof.Machine
end

