-- ==== Sys2Proof/Machine/Crc.lean ====
section
/-! DEFINITION. The CRC-16 engine (`42_crc16.md`), for any CRC_TABLE. -/

namespace Sys2Proof.Machine

/-- One nibble update (R200): `(acc >> 4) ^ T[(acc ^ nibble) & 0xF]`. -/
def crcNibble (table : Vector (BitVec 16) 16) (acc : BitVec 16) (nibble : BitVec 4) : BitVec 16 :=
  (acc >>> 4) ^^^ table[(acc.extractLsb' 0 4 ^^^ nibble).toFin]

/-- `CRC16_BYTE b, acc` (R201): the low nibble first, then the high one. -/
def crcByte (table : Vector (BitVec 16) 16) (b : Byte) (acc : BitVec 16) : BitVec 16 :=
  crcNibble table (crcNibble table acc (b.extractLsb' 0 4)) (b.extractLsb' 4 4)

/-- Fold `CRC16_BYTE` over bytes from an accumulator (R204). -/
def crcFold (table : Vector (BitVec 16) 16) (acc : BitVec 16) (bs : List Byte) : BitVec 16 :=
  bs.foldl (fun a b => crcByte table b a) acc

/-- `CRC16_BLOCK bs` (R202). -/
def crcBlock (table : Vector (BitVec 16) 16) (bs : List Byte) : BitVec 16 :=
  crcFold table Config.crcInit bs

/-- `CRC16_BYTE` (R201): the operands are the byte and the caller's accumulator. -/
def execCrc16Byte (s : State) : Answer :=
  .next (s.withOut (.u16 (crcByte s.cfg.crcTable s.port.byte s.port.acc)))

/-- `CRC16_BLOCK` (R202): the operand is the whole byte sequence. -/
def execCrc16Block (s : State) : Answer :=
  .next (s.withOut (.u16 (crcBlock s.cfg.crcTable s.port.buf)))

end Sys2Proof.Machine
end

