-- ==== Sys2Proof/Machine/Float.lean ====
section
/-! DEFINITION. Float decode with validation, float encode, and the 16-bit float
(`41_byteorder_float.md`, R160 to R169, R180 to R184). -/

namespace Sys2Proof.Machine

/-- `DEC_F32 u` (R162): an INVALID pattern is replaced by 1.0 and flagged. -/
def decodeF32 (u : BitVec 32) : BitVec 32 × Bool :=
  if invalid32 u then (Config.floatSentinel32, true) else (u, false)

/-- `DEC_F64 u` (R164). -/
def decodeF64 (u : BitVec 64) : BitVec 64 × Bool :=
  if invalid64 u then (Config.floatSentinel64, true) else (u, false)

/-- `F32_TO_H16 u` (R181): the exponent rebiased, the mantissa truncated to its top `H16_MANT_BITS` bits. -/
def f32ToH16 (u : BitVec 32) : BitVec 16 :=
  let top := (f32Mant u).toNat / 2 ^ (23 - Config.h16MantBits)
  let field : Int := (f32Exp u).toNat - Config.f32Bias + Config.h16Bias
  let most : Nat := 2 ^ Config.h16ExpBits - 1
  if f32Exp u = 0 ∧ f32Mant u = 0 then h16Pattern u.msb 0 0
  else if field < 1 then h16Pattern u.msb 0 0
  else if (most : Int) < field then h16Pattern u.msb most top
  else h16Pattern u.msb field.toNat top

/-- `H16_TO_F32 h` (R183): exponent field 0 is zero; else the exponent is rebiased and the mantissa has
zero bits appended. -/
def h16ToF32 (h : BitVec 16) : BitVec 32 :=
  let e := if h16Exp h = 0 then 0 else h16Exp h + (Config.f32Bias - Config.h16Bias)
  let m := if h16Exp h = 0 then 0 else h16Mant h * 2 ^ (23 - Config.h16MantBits)
  BitVec.ofNat 32 ((h.msb.toNat * 2 ^ 8 + e) * 2 ^ 23 + m)

/-- `DEC_F32` (R162). -/
def execDecF32 (s : State) : Answer :=
  .next (s.withOut (.f32 (decodeF32 s.port.f32).1 (decodeF32 s.port.f32).2))

/-- `DEC_F64` (R164). -/
def execDecF64 (s : State) : Answer :=
  .next (s.withOut (.f64 (decodeF64 s.port.f64).1 (decodeF64 s.port.f64).2))

/-- `ENC_F32_BE` (R165): the pattern, unvalidated (R169), by the integer encoder. -/
def execEncF32Be (s : State) : Answer := encodeField .be 4 s.port.f32.toNat s

/-- `ENC_F32_LE` (R166). -/
def execEncF32Le (s : State) : Answer := encodeField .le 4 s.port.f32.toNat s

/-- `ENC_F64_BE` (R167). -/
def execEncF64Be (s : State) : Answer := encodeField .be 8 s.port.f64.toNat s

/-- `ENC_F64_LE` (R168). -/
def execEncF64Le (s : State) : Answer := encodeField .le 8 s.port.f64.toNat s

/-- `F32_TO_H16` (R181). -/
def execF32ToH16 (s : State) : Answer := .next (s.withOut (.bits16 (f32ToH16 s.port.f32)))

/-- `H16_TO_F32` (R183). -/
def execH16ToF32 (s : State) : Answer := .next (s.withOut (.bits32 (h16ToF32 s.port.h16)))

end Sys2Proof.Machine
end

