-- ==== Sys2Proof/Machine/Demux.lean ====
section
/-! DEFINITION. The packet dispatch demultiplexer and the decode routines behind it (`44_dispatch.md`):
DISPATCH and the four TAG8 rows (log 4). -/

namespace Sys2Proof.Machine

/-- `TAG_MAP` (R261): the two tags the spec fixes, and the open rest (D20). -/
def tagRoutine (cfg : Params) (t : Byte) : Option Routine :=
  if t = Config.tagRawGyro then some .rawGyro
  else if t = Config.tagHsRaw then some .hsRaw
  else (cfg.tagMap.find? fun e => e.1 == t).map (·.2)

/-! ## The settings layout, of both directions (R293; log 22) -/

/-- The fields of a settings message in their order, with their ranges. -/
def settingsLayout : List (SettingsField × IntRange) :=
  [SettingsField.mode, .device, .ratio, .rate].map fun p =>
    (Config.settingsOrder p, Config.settingsFormat (Config.settingsOrder p))

/-- How many bytes a layout has: its fields stand one after another (R71). -/
def layoutBytes (layout : List (SettingsField × IntRange)) : Nat := (layout.map (·.2.bytes)).sum

/-- How many bytes a settings payload has. -/
def settingsLen : Nat := layoutBytes settingsLayout

/-- The value of a field of a payload with a layout, read by sequential consumption (R71), big-endian
(R51). -/
def layoutValue : List (SettingsField × IntRange) → List Byte → SettingsField → Int
  | [], _, _ => 0
  | (g, r) :: rest, data, f =>
    if g = f then r.value (beValue (data.take r.bytes)) else layoutValue rest (data.drop r.bytes) f

/-- The "1e6/rate transform" on exact values, from rate to period and back (R293); 1e6/0 is free. -/
def rateTransform (x : ℚ) : ℚ := if x = 0 then Config.transformOfZero else Config.rateNumerator / x

/-! ## The inbound calibration layout (R270; log 11)

The two fields R270 names, one after the other from offset 0 (R71, R260). -/

/-- How many bytes the float has. -/
def calibrationFloatBytes : Nat := if Config.calibrationIsF64 then 8 else 4

/-- Where the index stands: at offset 0, or right after the float (R71). -/
def calibrationIndexAt : Nat := if Config.calibrationIndexFirst then 0 else calibrationFloatBytes

/-- Where the float stands: right after the index, or at offset 0 (R71). -/
def calibrationFloatAt : Nat := if Config.calibrationIndexFirst then Config.calibrationIndexBytes else 0

/-- How many bytes a calibration payload has. -/
def calibrationLen : Nat := Config.calibrationIndexBytes + calibrationFloatBytes

/-! ## The routines -/

/-- How many payload bytes a routine's layout reads (R263); open where the spec gives no layout (log 12). -/
def layoutLen : Routine → Nat
  | .rawGyro => Config.rawGyroLen
  | .rawAccel => Config.rawGyroLen
  | .timing => Config.timingLen
  | .hsRaw => Config.hsRawLen
  | .resolution => Config.openLayoutLen .resolution
  | .hsConverted => Config.openLayoutLen .hsConverted
  | .settings => settingsLen
  | .calibration => calibrationLen
  | .identification => Config.openLayoutLen .identification
  | .temperature => Config.openLayoutLen .temperature

/-- The `n`-byte field at offset `o` of a payload: big-endian, like every field of the wire (R51). -/
def fieldAt (data : List Byte) (o n : Nat) : Nat := beValue ((data.drop o).take n)

/-- The 16-bit sample at offset `o` of a payload (R264, C7). -/
def sampleAt (data : List Byte) (o : Nat) : BitVec 16 := BitVec.ofNat 16 (fieldAt data o 2)

/-- The byte at offset `o` of a payload. -/
def byteAt (data : List Byte) (o : Nat) : Byte := data.getD o 0

/-- Store a value under a parameter index, in place of an older one. How many values the record holds, and
what an index past them does, the spec does not say (R33, N9); that every index has its place is the
model's choice. DESIGN CHOICE, log 13. -/
def storeCalibration (index : Nat) (v : FloatPattern) (cs : List (Nat × FloatPattern)) :
    List (Nat × FloatPattern) :=
  (index, v) :: cs.filter fun c => c.1 != index

/-- The parameter index of a calibration payload, an unsigned number (R270, R51; log 11). -/
def calibrationIndex (data : List Byte) : Nat :=
  fieldAt data calibrationIndexAt Config.calibrationIndexBytes

/-- The float of a calibration payload, big-endian (R51), decoded with DEC_F32 or DEC_F64: the pattern
returned (R270, R272). Its width, and whether it stands before the index, are free (log 11).
What a routine does with the `invalid` flag R272 leaves to it; that this one drops it is the model's
choice. DESIGN CHOICE, log 26. -/
def calibrationValue (data : List Byte) : FloatPattern :=
  if Config.calibrationIsF64 then
    .f64 (decodeF64 (BitVec.ofNat 64 (fieldAt data calibrationFloatAt 8))).1
  else .f32 (decodeF32 (BitVec.ofNat 32 (fieldAt data calibrationFloatAt 4))).1

/-- A byte of the payload, as a record field stores it. -/
def storeByte (k : RecordField) (data : List Byte) (o : Nat) : Stored k :=
  Config.store k ((byteAt data o).toNat : ℝ)

/-- The three samples at the front of a payload, each times a scale constant (R264, R265). -/
def storeVolts (scale : ℝ) (data : List Byte) : Triple .sensorsVolts where
  x := Config.store .sensorsVolts ((sampleAt data 0).toNat * scale)
  y := Config.store .sensorsVolts ((sampleAt data 2).toNat * scale)
  z := Config.store .sensorsVolts ((sampleAt data 4).toNat * scale)

/-- `RAW_GYRO` (R264). -/
def routineRawGyro (data : List Byte) (d : Dsr) : Dsr :=
  { d with
    gyroVolts := storeVolts Config.analogScaleGyro data
    sequenceNumber := storeByte .sequenceNumber data 6 }

/-- `RAW_ACCEL` (R265). -/
def routineRawAccel (data : List Byte) (d : Dsr) : Dsr :=
  { d with
    accelVolts := storeVolts Config.analogScaleAccel data
    sequenceNumber := storeByte .sequenceNumber data 6 }

/-- `TIMING` (R266): the quotient is exact, and whether it is floored is the open format's (D27). -/
def routineTiming (data : List Byte) (d : Dsr) : Dsr :=
  { d with
    timeMs := Config.store .time ((fieldAt data 0 4 : ℚ) / Config.timingDivisor : ℚ)
    ppsCount := storeByte .ppsCount data 4
    sequenceNumber := storeByte .sequenceNumber data 5
    clockError := Config.store .clockError ((sampleAt data 6).toInt : ℝ) }

/-- `RESOLUTION` (R267): sets the two range fields, from a layout the spec does not give (log 11). -/
def routineResolution (data : List Byte) (d : Dsr) : Dsr :=
  { d with
    gyroRange := Config.resolutionGyroRange data
    accelRange := Config.resolutionAccelRange data }

/-- `HS_CONVERTED` (R268): reads the range fields, writes `SensorsConverted` (log 11). -/
def routineHsConverted (data : List Byte) (d : Dsr) : Dsr :=
  { d with
    gyroConverted := Config.hsConvertedGyro d.gyroRange data
    accelConverted := Config.hsConvertedAccel d.accelRange data }

/-- `SETTINGS` (R270): the output configuration, the rate through the 1e6/rate transform (log 22). The rule
names `OversampleRatio` and `OutputRate`; that the output mode and device are written too is the model's
choice. DESIGN CHOICE, log 22. -/
def routineSettings (data : List Byte) (d : Dsr) : Dsr :=
  { d with
    outputMode := Config.store .outputMode (layoutValue settingsLayout data .mode : ℝ)
    outputDevice := Config.store .outputDevice (layoutValue settingsLayout data .device : ℝ)
    oversampleRatio := Config.store .oversampleRatio (layoutValue settingsLayout data .ratio : ℝ)
    outputRate := Config.store .outputRate (rateTransform (layoutValue settingsLayout data .rate)) }

/-- Identification (R270). That one packet replaces every identification field, and not some of them only,
is the model's choice. DESIGN CHOICE, log 13. -/
def routineIdentification (data : List Byte) (d : Dsr) : Dsr :=
  { d with identification := Config.identificationFields data }

/-- The routine `r` on a payload, updating the record (R261, R273). -/
def routineEffect : Routine → (data : List Byte) → Dsr → Dsr
  | .rawGyro, data, d => routineRawGyro data d
  | .rawAccel, data, d => routineRawAccel data d
  | .timing, data, d => routineTiming data d
  | .resolution, data, d => routineResolution data d
  | .hsConverted, data, d => routineHsConverted data d
  | .hsRaw, data, d => { d with hsRaw := Config.hsRawReadings data }
  | .settings, data, d => routineSettings data d
  | .calibration, data, d =>
    { d with calibration :=
        storeCalibration (calibrationIndex data) (calibrationValue data) d.calibration }
  | .identification, data, d => routineIdentification data d
  | .temperature, data, d => { d with gyroTemp := Config.temperatureChannels data }

/-- What a routine makes of the record: it sees the bytes its layout reads and no more (R271). -/
def routineOn (r : Routine) (data : List Byte) (d : Dsr) : Dsr :=
  routineEffect r (data.take (layoutLen r)) d

/-- The accelerometer temperature entry of an axis: a gyro temperature channel, by the mapping D0 says to
keep (R270, R359; log 13). -/
def accelTemp (d : Dsr) (a : Axis) : Stored .temperature := d.gyroTemp.at (Config.accelTempChannel a)

/-- Select a routine and run it on the packet of the operand port (R261); none for an unbound tag (R262);
refused where the payload is shorter than the layout (R271; log 25). -/
def selectAndRun (r : Option Routine) (s : State) : Answer :=
  match r with
  | none => .next (s.withOut (.selected none))
  | some r =>
    if layoutLen r ≤ s.port.pkt.data.length then
      .next ((s.withDsr (routineOn r s.port.pkt.data s.dsr)).withOut (.selected (some r)))
    else .refused .shortPayload

/-- `DISPATCH pkt` (R261): the selection reads the tag only. -/
def execDispatch (s : State) : Answer := selectAndRun (tagRoutine s.cfg s.port.pkt.typ) s

/-- The tag 0x00 at the demultiplexer (R92, R264). -/
def execTagRawGyro (s : State) : Answer := selectAndRun (tagRoutine s.cfg Config.tagRawGyro) s

/-- The tag 0xFE at the demultiplexer (R92, R269). -/
def execTagHsRaw (s : State) : Answer := selectAndRun (tagRoutine s.cfg Config.tagHsRaw) s

/-- The reserved tag 0xFD at the demultiplexer: unknown unless TAG_MAP binds it (R93, R262). -/
def execTagReservedFd (s : State) : Answer := selectAndRun (tagRoutine s.cfg Config.tagReservedFd) s

/-- The reserved tag 0xFF at the demultiplexer: unknown unless TAG_MAP binds it (R93, R262). -/
def execTagReservedFf (s : State) : Answer := selectAndRun (tagRoutine s.cfg Config.tagReservedFf) s

end Sys2Proof.Machine
end

