-- ==== Sys2Proof/Machine/Round.lean ====
section
/-! DEFINITION. The rounding helpers ROUND_{U,S}{8,16,24,32} (`41_byteorder_float.md`, R170 to R178): the nearest
integer of the exact value, ties away from zero, then saturation. -/

namespace Sys2Proof.Machine

/-- `floor(|X| + 1/2)` for `|X| = num / den`, computed exactly (R170). -/
def roundMagnitude (num den : Nat) : Nat := (2 * num + den) / (2 * den)

/-- `sgn(X) * floor(|X| + 1/2)` (R170). -/
def roundNearest (neg : Bool) (num den : Nat) : Int :=
  if neg then -(roundMagnitude num den : Int) else roundMagnitude num den

/-- MIN below the range, MAX above it (R170). -/
def saturate (r : IntRange) (x : Int) : Int := if x < r.lo then r.lo else if r.hi < x then r.hi else x

/-- What a rounding helper with the range `r` gives (R170): Infinity saturates; NaN is what `ROUND_NAN`
says (U4; log 14). -/
def roundValue (nan : RoundNan) (r : IntRange) : RealOperand → Except Refusal Int
  | .finite neg num den => .ok (saturate r (roundNearest neg num den))
  | .infinite neg => .ok (if neg then r.lo else r.hi)
  | .nan pattern =>
    match nan with
    | .refuse => .error .roundNan
    | .anyValue => .ok (saturate r (Config.roundNanValue r pattern))

/-- A rounding helper on the operand port (R170), its result as `mk` makes of the integer. -/
def roundTo (r : IntRange) (mk : Int → Result) (s : State) : Answer :=
  orRefuse (roundValue s.cfg.roundNan r (roundOperand s)) fun v => s.withOut (mk v)

/-- `ROUND_U8 x` (R171). -/
def execRoundU8 (s : State) : Answer := roundTo .u8 (fun v => .u8 (BitVec.ofInt 8 v)) s

/-- `ROUND_S8 x` (R172). -/
def execRoundS8 (s : State) : Answer := roundTo .s8 (fun v => .s8 (BitVec.ofInt 8 v)) s

/-- `ROUND_U16 x` (R173). -/
def execRoundU16 (s : State) : Answer := roundTo .u16 (fun v => .u16 (BitVec.ofInt 16 v)) s

/-- `ROUND_S16 x` (R174). -/
def execRoundS16 (s : State) : Answer := roundTo .s16 (fun v => .s16 (BitVec.ofInt 16 v)) s

/-- `ROUND_U24 x` (R175). -/
def execRoundU24 (s : State) : Answer := roundTo .u24 (fun v => .u32 (BitVec.ofInt 32 v)) s

/-- `ROUND_S24 x` (R176). -/
def execRoundS24 (s : State) : Answer := roundTo .s24 (fun v => .s32 (BitVec.ofInt 32 v)) s

/-- `ROUND_U32 x` (R177). -/
def execRoundU32 (s : State) : Answer := roundTo .u32 (fun v => .u32 (BitVec.ofInt 32 v)) s

/-- `ROUND_S32 x` (R178). -/
def execRoundS32 (s : State) : Answer := roundTo .s32 (fun v => .s32 (BitVec.ofInt 32 v)) s

end Sys2Proof.Machine
end

