-- ==== Sys2Proof/Machine/Builder.lean ====
section
/-! DEFINITION. The outbound frame builder ENCODE_FRAME and the outbound messages (`45_encoder.md`). -/

namespace Sys2Proof.Machine

/-- The framed bytes of a payload (R291): header, payload and the CRC over both, big-endian. -/
def framedBytes (table : Vector (BitVec 16) 16) (t : Byte) (p : List Byte) : List Byte :=
  let covered := [Config.sync0Val, Config.sync1Val, t, BitVec.ofNat 8 p.length] ++ p
  covered ++ bytesBe 2 (crcBlock table covered).toNat

/-- `ENCODE_FRAME t, p` (R291): refused above 255 payload bytes (U13). -/
def encodeFrameBytes (table : Vector (BitVec 16) 16) (t : Byte) (p : List Byte) :
    Except Refusal (List Byte) :=
  if p.length ≤ Config.maxFramePayload then .ok (framedBytes table t p) else .error .payloadTooLong

/-- `ENCODE_FRAME` (R291): the payload is the operand buffer. -/
def execEncodeFrame (s : State) : Answer :=
  orRefuse (encodeFrameBytes s.cfg.crcTable s.port.tag s.port.buf) fun bs => s.withOut (.block bs)

/-! ## Payload composition (R298) -/

/-- One thing a message-specific builder puts into its payload (R298). -/
inductive PayloadItem where
  /-- One byte. -/
  | byte (b : Byte)
  /-- An integer, by the `ENC_*` of `n` bytes (R141): its low bits. -/
  | int (o : ByteOrder) (n : Nat) (v : Int)
  /-- A binary32 pattern, by `ENC_F32_*` (R165, R166). -/
  | f32 (o : ByteOrder) (x : BitVec 32)
  /-- A binary64 pattern, by `ENC_F64_*` (R167, R168). -/
  | f64 (o : ByteOrder) (x : BitVec 64)
  /-- A float input in an integer field: narrowed by the `ROUND_*` of the range, so that it saturates. -/
  | rounded (o : ByteOrder) (r : IntRange) (x : RealOperand)
deriving DecidableEq, Repr

/-- The bytes of an item; none where its `ROUND_*` is refused. -/
def PayloadItem.bytes (nan : RoundNan) : PayloadItem → Except Refusal (List Byte)
  | .byte b => .ok [b]
  | .int o n v => .ok (o.bytes n (truncateTo n v))
  | .f32 o x => .ok (o.bytes 4 x.toNat)
  | .f64 o x => .ok (o.bytes 8 x.toNat)
  | .rounded o r x => (roundValue nan r x).map fun v => o.bytes r.bytes (truncateTo r.bytes v)

/-- Fill the payload buffer left to right from the cursor: each item is written there, and the number of
its bytes, which its `ENC_*` returns, advances the cursor (R298). -/
def composeFrom (nan : RoundNan) :
    List PayloadItem → (buf : List Byte) → (cursor : Nat) → Except Refusal (List Byte × Nat)
  | [], buf, cursor => .ok (buf, cursor)
  | i :: is, buf, cursor =>
    match i.bytes nan with
    | .error r => .error r
    | .ok bs =>
      match memWrite buf cursor bs with
      | none => .error .bufferEnd
      | some buf' => composeFrom nan is buf' (cursor + bs.length)

/-- The payload a builder composes: the buffer up to the final cursor (R298). R298 gives the buffer no
capacity; that it has 255 bytes, so that a longer composition is refused here as `bufferEnd` (R57) and
not by `ENCODE_FRAME` (U13), is the model's choice. DESIGN CHOICE, log 27. -/
def compose (nan : RoundNan) (items : List PayloadItem) : Except Refusal (List Byte) :=
  (composeFrom nan items (List.replicate Config.maxFramePayload 0) 0).map fun r => r.1.take r.2

/-- A message-specific builder: compose the payload, then `ENCODE_FRAME` with the final cursor as its
length (R298). The CRC table and `ROUND_NAN` are those of the build. -/
def buildMessage (cfg : Params) (t : Byte) (items : List PayloadItem) : Except Refusal (List Byte) :=
  (compose cfg.roundNan items).bind fun p => encodeFrameBytes cfg.crcTable t p

/-! ## The outbound messages (R293 to R296)

They are not operations of the block. A tag the spec does not give is an argument (D20). -/

/-- Configuration request (R294): no or one payload byte, from the caller's arguments alone. -/
def configRequest (cfg : Params) (t : Byte) (arg : Option Byte) : Except Refusal (List Byte) :=
  buildMessage cfg t (arg.toList.map .byte)

/-- Calibration parameter request (R295): no or one payload byte. -/
def calibrationRequest (cfg : Params) (t : Byte) (index : Option Byte) : Except Refusal (List Byte) :=
  buildMessage cfg t (index.toList.map .byte)

/-- Calibration parameter set (R296): the index, then the float by ENC_F32_BE or ENC_F64_BE. Both widths
are free, and the float's is not tied to that of the inbound calibration packet. DESIGN CHOICE, log 22. -/
def calibrationSet (cfg : Params) (t : Byte) (index : Nat) (x32 : BitVec 32) (x64 : BitVec 64) :
    Except Refusal (List Byte) :=
  buildMessage cfg t
    [.int .be Config.calibrationIndexWidth index,
      if Config.calibrationSetIsF64 then .f64 .be x64 else .f32 .be x32]

/-- The inputs of a settings message (R293). -/
structure SettingsInputs where
  mode : Int
  device : Int
  ratio : Int
  rate : ℚ
deriving DecidableEq, Repr

/-- A field of a settings message: the integers as they are, the rate as the period `1e6 / rate`, narrowed
to the field's range (R293, R298). -/
def settingsItem (x : SettingsInputs) : SettingsField × IntRange → PayloadItem
  | (.mode, r) => .int .be r.bytes x.mode
  | (.device, r) => .int .be r.bytes x.device
  | (.ratio, r) => .int .be r.bytes x.ratio
  | (.rate, r) => .rounded .be r (ofRational (rateTransform x.rate))

/-- Settings (R293), in the layout in which the SETTINGS routine reads them (log 22). -/
def encodeSettings (cfg : Params) (t : Byte) (x : SettingsInputs) : Except Refusal (List Byte) :=
  buildMessage cfg t (settingsLayout.map (settingsItem x))

end Sys2Proof.Machine
end

