-- ==== Sys2Proof/Machine/Framing.lean ====
section
/-! DEFINITION. The packet framer (`43_framer.md`): FEED, validation, RESET, and the two FRAME rows, which
feed a whole frame (R105, R106; log 3). -/

namespace Sys2Proof.Machine

/-- The received CRC: the two bytes after the payload, big-endian (R227). -/
def receivedCrc (m : Memory) : BitVec 16 :=
  Memory.byte m (4 + (Memory.byte m 3).toNat) ++ Memory.byte m (4 + (Memory.byte m 3).toNat + 1)

/-- The expected CRC (R228): over the frame image, or, for the length-elided type, over the three header
bytes and then the 13 payload bytes, without the byte that never crossed the wire. -/
def expectedCrc (table : Vector (BitVec 16) 16) (m : Memory) : BitVec 16 :=
  if Memory.byte m 2 ≠ Config.tagHsRaw then
    crcBlock table (Memory.bytes m 0 ((Memory.byte m 3).toNat + 4))
  else
    crcFold table (crcBlock table (Memory.bytes m 0 3)) (Memory.bytes m 4 Config.hsRawLen)

/-- Validation (R229): the packet, where the CRCs match. -/
def validate (table : Vector (BitVec 16) 16) (m : Memory) : Option Packet :=
  if expectedCrc table m = receivedCrc m then
    some { typ := Memory.byte m 2, len := Memory.byte m 3,
           data := Memory.bytes m 4 (Memory.byte m 3).toNat }
  else none

/-- Stage DATA (R226): append the byte, count it, and validate when the frame is complete. An append
past the end of BUF, which no run reaches (R230), is refused (R57; log 15). -/
def feedData (table : Vector (BitVec 16) 16) (b : Byte) (f : Framer) :
    Except Refusal (Framer × Option Packet) :=
  if 4 + f.idx.toNat < Config.bufCap then
    let buf := Memory.write f.buf (4 + f.idx.toNat) b
    let n := f.idx + 1
    if n.toNat = (Memory.byte buf 3).toNat + 2 then
      .ok ({ f with buf := buf, idx := n, stage := .sync0 }, validate table buf)
    else .ok ({ f with buf := buf, idx := n, stage := .data }, none)
  else .error .bufferEnd

/-- `FEED b` (R220 to R226): what the byte does in the stage the framer is in. In stage LEN of the elided
type R226 is done with IDX as it stands (log 21). -/
def feedByte (table : Vector (BitVec 16) 16) (b : Byte) (f : Framer) :
    Except Refusal (Framer × Option Packet) :=
  match f.stage with
  | .sync0 =>
    if b = Config.sync0Val then
      .ok ({ f with buf := Memory.write f.buf 0 b, idx := 0, stage := .sync1 }, none)
    else .ok (f, none)
  | .sync1 =>
    if b = Config.sync1Val then .ok ({ f with buf := Memory.write f.buf 1 b, stage := .type }, none)
    else .ok ({ f with stage := .sync0 }, none)
  | .type => .ok ({ f with buf := Memory.write f.buf 2 b, stage := .len }, none)
  | .len =>
    if Memory.byte f.buf 2 ≠ Config.tagHsRaw then
      .ok ({ f with buf := Memory.write f.buf 3 b, stage := .data,
                    oversize := oversizeAfter f.oversize b }, none)
    else
      feedData table b { f with buf := Memory.write f.buf 3 (BitVec.ofNat 8 Config.hsRawLen) }
  | .data => feedData table b f

/-- `FEED*` (R106): the bytes in order, with the result of each FEED, in order. -/
def feedAll (table : Vector (BitVec 16) 16) :
    List Byte → Framer → Except Refusal (Framer × List (Option Packet))
  | [], f => .ok (f, [])
  | b :: bs, f =>
    match feedByte table b f with
    | .error r => .error r
    | .ok (f', p) => (feedAll table bs f').map fun r => (r.1, p :: r.2)

/-- The Framer State after RESET (R231): BUF stays as it is. -/
def resetFramer (f : Framer) : Framer := { f with stage := .sync0, idx := 0, oversize := false }

/-- FEED of every byte of a wire frame. -/
def feedFrame (bytes : List Byte) (s : State) : Answer :=
  orRefuse (feedAll s.cfg.crcTable bytes s.framer) fun r =>
    (s.withFramer r.1).withOut (.stream r.2)

/-- `FEED b` (R220). -/
def execFeed (s : State) : Answer :=
  orRefuse (feedByte s.cfg.crcTable s.port.byte s.framer) fun r =>
    (s.withFramer r.1).withOut (.feed r.2)

/-- `RESET` (R231). -/
def execReset (s : State) : Answer := .next ((s.withFramer (resetFramer s.framer)).withOut .done)

/-- FRAME_STD: an ordinary frame arrives whole (R81, R221 to R229; log 3). -/
def execFrameStd (typ : Byte) (payload : List Byte) (crc : BitVec 16) (s : State) : Answer :=
  feedFrame (frameStdBytes typ payload crc) s

/-- FRAME_HS_RAW: a high-speed raw frame arrives whole (R82, R225 to R229; log 3). -/
def execFrameHsRaw (payload : List Byte) (crc : BitVec 16) (s : State) : Answer :=
  feedFrame (frameHsRawBytes payload crc) s

end Sys2Proof.Machine
end

