-- ==== Sys2Proof/Machine/IntDecode.lean ====
section
/-! DEFINITION. The integer decode operations DEC_{U,S}{16,24,32,64}_{BE,LE} (`40_byteorder_int.md`, R125 to
R140). A signed result is held as its two's complement pattern (R123); a 24-bit field comes in 32 bits,
zero-extended when unsigned and sign-extended when signed (R86). -/

namespace Sys2Proof.Machine

/-- `DEC_U16_BE buf, @o` (R125). -/
def execDecU16Be (s : State) : Answer :=
  decodeField .be 2 (fun u => .u16 (BitVec.ofNat 16 u)) s

/-- `DEC_S16_BE buf, @o` (R126). -/
def execDecS16Be (s : State) : Answer :=
  decodeField .be 2 (fun u => .s16 (BitVec.ofNat 16 u)) s

/-- `DEC_U24_BE buf, @o` (R127). -/
def execDecU24Be (s : State) : Answer :=
  decodeField .be 3 (fun u => .u32 ((BitVec.ofNat 24 u).zeroExtend 32)) s

/-- `DEC_S24_BE buf, @o` (R128). -/
def execDecS24Be (s : State) : Answer :=
  decodeField .be 3 (fun u => .s32 ((BitVec.ofNat 24 u).signExtend 32)) s

/-- `DEC_U32_BE buf, @o` (R129). -/
def execDecU32Be (s : State) : Answer :=
  decodeField .be 4 (fun u => .u32 (BitVec.ofNat 32 u)) s

/-- `DEC_S32_BE buf, @o` (R130). -/
def execDecS32Be (s : State) : Answer :=
  decodeField .be 4 (fun u => .s32 (BitVec.ofNat 32 u)) s

/-- `DEC_U64_BE buf, @o` (R131). -/
def execDecU64Be (s : State) : Answer :=
  decodeField .be 8 (fun u => .u64 (BitVec.ofNat 64 u)) s

/-- `DEC_S64_BE buf, @o` (R132). -/
def execDecS64Be (s : State) : Answer :=
  decodeField .be 8 (fun u => .s64 (BitVec.ofNat 64 u)) s

/-- `DEC_U16_LE buf, @o` (R133). -/
def execDecU16Le (s : State) : Answer :=
  decodeField .le 2 (fun u => .u16 (BitVec.ofNat 16 u)) s

/-- `DEC_S16_LE buf, @o` (R134). -/
def execDecS16Le (s : State) : Answer :=
  decodeField .le 2 (fun u => .s16 (BitVec.ofNat 16 u)) s

/-- `DEC_U24_LE buf, @o` (R135). -/
def execDecU24Le (s : State) : Answer :=
  decodeField .le 3 (fun u => .u32 ((BitVec.ofNat 24 u).zeroExtend 32)) s

/-- `DEC_S24_LE buf, @o` (R136). -/
def execDecS24Le (s : State) : Answer :=
  decodeField .le 3 (fun u => .s32 ((BitVec.ofNat 24 u).signExtend 32)) s

/-- `DEC_U32_LE buf, @o` (R137). -/
def execDecU32Le (s : State) : Answer :=
  decodeField .le 4 (fun u => .u32 (BitVec.ofNat 32 u)) s

/-- `DEC_S32_LE buf, @o` (R138). -/
def execDecS32Le (s : State) : Answer :=
  decodeField .le 4 (fun u => .s32 (BitVec.ofNat 32 u)) s

/-- `DEC_U64_LE buf, @o` (R139). -/
def execDecU64Le (s : State) : Answer :=
  decodeField .le 8 (fun u => .u64 (BitVec.ofNat 64 u)) s

/-- `DEC_S64_LE buf, @o` (R140). -/
def execDecS64Le (s : State) : Answer :=
  decodeField .le 8 (fun u => .s64 (BitVec.ofNat 64 u)) s

end Sys2Proof.Machine
end

