-- ==== Sys2Proof/Machine/IntEncode.lean ====
section
/-! DEFINITION. The integer encode operations ENC_{16,24,32,64}_{BE,LE} (`40_byteorder_int.md`, R141 to R149). -/

namespace Sys2Proof.Machine

/-- `ENC_16_BE v, buf, @o` (R142). -/
def execEnc16Be (s : State) : Answer := encodeField .be 2 (truncateTo 2 s.port.val) s

/-- `ENC_24_BE v, buf, @o` (R143). -/
def execEnc24Be (s : State) : Answer := encodeField .be 3 (truncateTo 3 s.port.val) s

/-- `ENC_32_BE v, buf, @o` (R144). -/
def execEnc32Be (s : State) : Answer := encodeField .be 4 (truncateTo 4 s.port.val) s

/-- `ENC_64_BE v, buf, @o` (R145). -/
def execEnc64Be (s : State) : Answer := encodeField .be 8 (truncateTo 8 s.port.val) s

/-- `ENC_16_LE v, buf, @o` (R146). -/
def execEnc16Le (s : State) : Answer := encodeField .le 2 (truncateTo 2 s.port.val) s

/-- `ENC_24_LE v, buf, @o` (R147). -/
def execEnc24Le (s : State) : Answer := encodeField .le 3 (truncateTo 3 s.port.val) s

/-- `ENC_32_LE v, buf, @o` (R148). -/
def execEnc32Le (s : State) : Answer := encodeField .le 4 (truncateTo 4 s.port.val) s

/-- `ENC_64_LE v, buf, @o` (R149). -/
def execEnc64Le (s : State) : Answer := encodeField .le 8 (truncateTo 8 s.port.val) s

end Sys2Proof.Machine
end

