-- ==== Sys2Proof/Machine/Dispatch.lean ====
section
/-! DEFINITION. What each instruction does: one direct call of its meaning per arm. -/

namespace Sys2Proof.Machine

def exec (i : Instr) (s : State) : Host.Outcome State Fault Refusal :=
  match i with
  | .frameHsRaw payload crc => Sys2Proof.Machine.execFrameHsRaw payload crc s
  | .frameStd typ payload crc => Sys2Proof.Machine.execFrameStd typ payload crc s
  | .tagRawGyro => Sys2Proof.Machine.execTagRawGyro s
  | .tagHsRaw => Sys2Proof.Machine.execTagHsRaw s
  | .tagReservedFd => Sys2Proof.Machine.execTagReservedFd s
  | .tagReservedFf => Sys2Proof.Machine.execTagReservedFf s
  | .decU16Be => Sys2Proof.Machine.execDecU16Be s
  | .decS16Be => Sys2Proof.Machine.execDecS16Be s
  | .decU24Be => Sys2Proof.Machine.execDecU24Be s
  | .decS24Be => Sys2Proof.Machine.execDecS24Be s
  | .decU32Be => Sys2Proof.Machine.execDecU32Be s
  | .decS32Be => Sys2Proof.Machine.execDecS32Be s
  | .decU64Be => Sys2Proof.Machine.execDecU64Be s
  | .decS64Be => Sys2Proof.Machine.execDecS64Be s
  | .decU16Le => Sys2Proof.Machine.execDecU16Le s
  | .decS16Le => Sys2Proof.Machine.execDecS16Le s
  | .decU24Le => Sys2Proof.Machine.execDecU24Le s
  | .decS24Le => Sys2Proof.Machine.execDecS24Le s
  | .decU32Le => Sys2Proof.Machine.execDecU32Le s
  | .decS32Le => Sys2Proof.Machine.execDecS32Le s
  | .decU64Le => Sys2Proof.Machine.execDecU64Le s
  | .decS64Le => Sys2Proof.Machine.execDecS64Le s
  | .enc16Be => Sys2Proof.Machine.execEnc16Be s
  | .enc24Be => Sys2Proof.Machine.execEnc24Be s
  | .enc32Be => Sys2Proof.Machine.execEnc32Be s
  | .enc64Be => Sys2Proof.Machine.execEnc64Be s
  | .enc16Le => Sys2Proof.Machine.execEnc16Le s
  | .enc24Le => Sys2Proof.Machine.execEnc24Le s
  | .enc32Le => Sys2Proof.Machine.execEnc32Le s
  | .enc64Le => Sys2Proof.Machine.execEnc64Le s
  | .decF32 => Sys2Proof.Machine.execDecF32 s
  | .decF64 => Sys2Proof.Machine.execDecF64 s
  | .encF32Be => Sys2Proof.Machine.execEncF32Be s
  | .encF32Le => Sys2Proof.Machine.execEncF32Le s
  | .encF64Be => Sys2Proof.Machine.execEncF64Be s
  | .encF64Le => Sys2Proof.Machine.execEncF64Le s
  | .f32ToH16 => Sys2Proof.Machine.execF32ToH16 s
  | .h16ToF32 => Sys2Proof.Machine.execH16ToF32 s
  | .roundU8 => Sys2Proof.Machine.execRoundU8 s
  | .roundS8 => Sys2Proof.Machine.execRoundS8 s
  | .roundU16 => Sys2Proof.Machine.execRoundU16 s
  | .roundS16 => Sys2Proof.Machine.execRoundS16 s
  | .roundU24 => Sys2Proof.Machine.execRoundU24 s
  | .roundS24 => Sys2Proof.Machine.execRoundS24 s
  | .roundU32 => Sys2Proof.Machine.execRoundU32 s
  | .roundS32 => Sys2Proof.Machine.execRoundS32 s
  | .crc16Byte => Sys2Proof.Machine.execCrc16Byte s
  | .crc16Block => Sys2Proof.Machine.execCrc16Block s
  | .feed => Sys2Proof.Machine.execFeed s
  | .reset => Sys2Proof.Machine.execReset s
  | .dispatch => Sys2Proof.Machine.execDispatch s
  | .encodeFrame => Sys2Proof.Machine.execEncodeFrame s

end Sys2Proof.Machine
end

