-- ==== Sys2Proof/Machine/Fetch.lean ====
section
/-! DEFINITION. How a step gets its instruction: the environment's next request (R38, R39; log 1), decoded. -/

namespace Sys2Proof.Machine

/-- What the next request comes to. -/
inductive Fetched where
  /-- Nothing is offered: no operation happens (R70). -/
  | idle (s : State)
  /-- The instruction, and the state it meets, with its operands on the operand port. -/
  | run (i : Instr) (s : State)
  /-- An operation code with no operation (R101). -/
  | undefined (code : BitVec 6)

/-- The code a request carries. -/
def Request.code : Request → Code
  | .op c _ => .op6 c
  | .tag t _ => .tag8 t
  | .wire bytes => .wire bytes

/-- The operand port as a request drives it: all operands of an operation; the packet of a tag; the
first byte of the wire (`rx_data`, R39). -/
def Request.drive : Request → Operands → Operands
  | .op _ args, _ => args
  | .tag t payload, p =>
    { p with pkt := { typ := t, len := BitVec.ofNat 8 payload.length, data := payload } }
  | .wire bytes, p => { p with byte := bytes.headD 0 }

/-- What stays on the wire after the bytes of an instruction are taken. -/
def requestsLeft (left : List Byte) (rest : List Request) : List Request :=
  match left with
  | [] => rest
  | _ :: _ => .wire left :: rest

/-- The state an instruction meets: its request taken from the queue and its operands on the port. -/
def State.present (s : State) (r : Request) (left : List Byte) (rest : List Request) : State :=
  { s with port := r.drive s.port, pending := requestsLeft left rest }

/-- Take and decode the next request. -/
def fetch (s : State) : Fetched :=
  match s.pending with
  | [] => .idle s
  | r :: rest =>
    match decode r.code with
    | .ok (i, left) => .run i (s.present r left rest)
    | .error .noneAvailable => .idle { s with pending := rest }
    | .error (.undefinedOp c) => .undefined c

/-- Operands of zeros: a buffer as long as the longest access, a payload of `MAX_PAYLOAD` bytes (log 17). -/
def zeroOperands : Operands :=
  { Operands.reset with
    buf := List.replicate 8 0
    pkt := { typ := 0, len := BitVec.ofNat 8 Config.maxPayload, data := List.replicate Config.maxPayload 0 } }

/-- A code as a request, every operand zero (log 17). -/
def requestOf : Code → Request
  | .op6 c => .op c zeroOperands
  | .tag8 t => .tag t (List.replicate Config.maxPayload 0)
  | .wire bytes => .wire bytes

/-- The state with the table word `w` as the next request (log 18). -/
def placeWord (s : State) (nbits w : Nat) : State :=
  { s with pending := requestOf (tableCode nbits w) :: s.pending }

end Sys2Proof.Machine
end

