-- ==== Sys2Proof/Machine/Step.lean ====
section
/-! DEFINITION. One step of the machine: one operation, atomic (R14), or none where nothing is offered (R70). -/

namespace Sys2Proof.Machine

/-- One step: take the next request, decode it and run it. A step without an operation leaves only the
result port changed: the results of an earlier step are not latched (R27, R320; log 16). -/
def step (s : State) : Host.Outcome State Fault Refusal :=
  match fetch s with
  | .idle s' => .next (s'.withOut .idle)
  | .run i s' => exec i s'
  | .undefined c => .refused (.undefinedOp c)

/-- The state whose very next step fetches the table word `w` of `nbits` bits. -/
def State.withFetchWord (s : State) (nbits w : Nat) : State := placeWord s nbits w

end Sys2Proof.Machine
end

