-- ==== Sys2Proof/Machine/Pseudo.lean ====
section
/-! DEFINITION. The pseudo-operations of R106 over a buffer: each expands to the operations it names. (`FEED*`
is `feedAll` in `Machine/Framing.lean`.) -/

namespace Sys2Proof.Machine

/-- `DEC_F32_BE` and `DEC_F32_LE` (R106): `DEC_F32 (DEC_U32_X buf, @o)`. -/
def pseudoDecF32 (o : ByteOrder) (buf : List Byte) (off : Nat) : Option (BitVec 32 × Bool) :=
  (readField o buf off 4).map fun u => decodeF32 (BitVec.ofNat 32 u)

/-- `DEC_F64_BE` and `DEC_F64_LE` (R106). -/
def pseudoDecF64 (o : ByteOrder) (buf : List Byte) (off : Nat) : Option (BitVec 64 × Bool) :=
  (readField o buf off 8).map fun u => decodeF64 (BitVec.ofNat 64 u)

/-- `DEC_H16_BE` (R106): `H16_TO_F32 (DEC_U16_BE buf, @o)`. -/
def pseudoDecH16 (buf : List Byte) (off : Nat) : Option (BitVec 32) :=
  (readField .be buf off 2).map fun u => h16ToF32 (BitVec.ofNat 16 u)

/-- `ENC_H16_BE` (R106): `ENC_16_BE (F32_TO_H16 x), buf, @o`: the buffer written, and the count 2 (R142). -/
def pseudoEncH16 (x : BitVec 32) (buf : List Byte) (off : Nat) : Option (List Byte × Nat) :=
  (writeField .be buf off 2 (f32ToH16 x).toNat).map fun b => (b, 2)

end Sys2Proof.Machine
end

