-- ==== Sys2Proof/Safety.lean ====
section
/-! DEFINITION. What a safe state of the block is, in the terms claims use: the framing invariant behind
R22, R23 and R230, and what a run of steps reaches. -/

namespace Sys2Proof.Machine

/-- A FEED, or a frame's first FEEDs, has written index `a` of BUF. -/
abbrev Memory.Written (m : Memory) (a : Nat) : Prop := (Memory.read m a).isSome = true

/-- The framing invariant: BUF is in canonical form; IDX is in its range (R22); the header bytes of the
frame in progress stand in BUF (R23); in stage DATA the frame is not yet complete, exactly its bytes so
far are written (R230), the length of a length-elided frame is 13, and a length above 18 has set
OVERSIZE (R28). -/
abbrev Framer.Inv (f : Framer) : Prop :=
  Memory.wf f.buf = true ∧
  f.idx.toNat ≤ 257 ∧
  (f.stage ≠ .sync0 → Memory.read f.buf 0 = some Config.sync0Val) ∧
  (f.stage = .type ∨ f.stage = .len ∨ f.stage = .data →
    Memory.read f.buf 1 = some Config.sync1Val) ∧
  (f.stage = .len ∨ f.stage = .data → Memory.Written f.buf 2) ∧
  (f.stage = .sync1 ∨ f.stage = .type ∨ f.stage = .len → f.idx = 0) ∧
  (f.stage = .data →
    Memory.Written f.buf 3 ∧
    f.idx.toNat < (Memory.byte f.buf 3).toNat + 2 ∧
    (Memory.byte f.buf 2 = Config.tagHsRaw → (Memory.byte f.buf 3).toNat = Config.hsRawLen) ∧
    (Config.maxPayload < (Memory.byte f.buf 3).toNat → f.oversize = true) ∧
    ∀ i < f.idx.toNat, Memory.Written f.buf (4 + i))

/-- A safe state: the framing invariant holds. -/
abbrev State.Inv (s : State) : Prop := s.framer.Inv

/-- The states that some number of steps reaches from `s`. -/
inductive Reaches : State → State → Prop where
  | here (s : State) : Reaches s s
  | step {s t u : State} (h : Sys2Proof.Machine.step s = .next t) (r : Reaches t u) : Reaches s u

end Sys2Proof.Machine
end

