-- ==== Sys2Proof/Certificates/Slice0/Obligations.lean ====
section
/-! DEFINITION. The statements for the provers, from the numbered rules of the spec. The vocabulary they share
comes first: it says what a rule says in plain arithmetic, independently of the model's own functions. -/

namespace Sys2Proof.Claims
open Sys2Proof.Machine

/-! ## Vocabulary -/

/-- Byte `i` of a buffer, as a number. -/
def byteNum (buf : List Byte) (i : Nat) : Nat := (buf.getD i 0).toNat

/-- The big-endian number of the `n` bytes at `o` (R121, R84). -/
def beSum (buf : List Byte) (o n : Nat) : Nat :=
  ∑ i ∈ Finset.range n, byteNum buf (o + i) * 2 ^ (8 * (n - 1 - i))

/-- The little-endian number of the `n` bytes at `o` (R122, R84). -/
def leSum (buf : List Byte) (o n : Nat) : Nat :=
  ∑ i ∈ Finset.range n, byteNum buf (o + i) * 2 ^ (8 * i)

/-- `signed_N(u)` (R123). -/
def signedOf (bits u : Nat) : Int := if 2 ^ (bits - 1) ≤ u then (u : Int) - 2 ^ bits else u

/-- The operation `i` has the operation code `c` (R101). -/
def HasCode (i : Instr) (c : BitVec 6) : Prop := decode (.op6 c) = .ok (i, [])

/-- Instruction `i`, of code `c`, decodes the unsigned `n`-byte field at the operand offset: within the buffer it
answers the state with only the result changed, past the end it is refused. -/
def DecodesUnsigned (i : Instr) (c : BitVec 6) (n : Nat) (num : List Byte → Nat → Nat → Nat) {w : Nat}
    (mk : BitVec w → Result) : Prop :=
  HasCode i c ∧ ∀ s : State,
    (s.port.off + n ≤ s.port.buf.length →
      ∃ v : BitVec w, exec i s = .next (s.withOut (mk v)) ∧ v.toNat = num s.port.buf s.port.off n) ∧
    (s.port.buf.length < s.port.off + n → exec i s = .refused .bufferEnd)

/-- The same for a signed field: the result's two's complement value. -/
def DecodesSigned (i : Instr) (c : BitVec 6) (n : Nat) (num : List Byte → Nat → Nat → Nat) {w : Nat}
    (mk : BitVec w → Result) : Prop :=
  HasCode i c ∧ ∀ s : State,
    (s.port.off + n ≤ s.port.buf.length →
      ∃ v : BitVec w, exec i s = .next (s.withOut (mk v)) ∧
        v.toInt = signedOf (8 * n) (num s.port.buf s.port.off n)) ∧
    (s.port.buf.length < s.port.off + n → exec i s = .refused .bufferEnd)

/-- Instruction `i`, of code `c`, writes the `n` bytes of `v` at the operand offset, byte `k` being the one of weight
`256 ^ place k`: every other byte of the buffer stays, the count is the result and nothing else
changes; past the end it is refused. -/
def Encodes (i : Instr) (c : BitVec 6) (n : Nat) (v : State → Int) (place : Nat → Nat) : Prop :=
  HasCode i c ∧ ∀ s : State,
    (s.port.off + n ≤ s.port.buf.length →
      ∃ b : List Byte, exec i s = .next ((s.withBuf b).withOut (.count n)) ∧
        b.length = s.port.buf.length ∧
        (∀ k < n, (byteNum b (s.port.off + k) : Int) = v s / 256 ^ place k % 256) ∧
        ∀ k, k < s.port.off ∨ s.port.off + n ≤ k → b[k]? = s.port.buf[k]?) ∧
    (s.port.buf.length < s.port.off + n → exec i s = .refused .bufferEnd)

/-- The place of byte `k` of `n` in big-endian order. -/
def bePlace (n k : Nat) : Nat := n - 1 - k

/-- The place of byte `k` in little-endian order. -/
def lePlace (k : Nat) : Nat := k

/-- The fields of a binary32 pattern, as numbers (R87). -/
def sign32 (u : BitVec 32) : Nat := u.toNat / 2 ^ 31
/-- The exponent field of a binary32 pattern (R87). -/
def exp32 (u : BitVec 32) : Nat := u.toNat / 2 ^ 23 % 2 ^ 8
/-- The mantissa field of a binary32 pattern (R87). -/
def mant32 (u : BitVec 32) : Nat := u.toNat % 2 ^ 23
/-- The sign of a binary64 pattern (R88). -/
def sign64 (u : BitVec 64) : Nat := u.toNat / 2 ^ 63
/-- The exponent field of a binary64 pattern (R88). -/
def exp64 (u : BitVec 64) : Nat := u.toNat / 2 ^ 52 % 2 ^ 11
/-- The mantissa field of a binary64 pattern (R88). -/
def mant64 (u : BitVec 64) : Nat := u.toNat % 2 ^ 52

/-- INVALID32 (R161). -/
def Invalid32 (u : BitVec 32) : Prop := exp32 u = 255 ∨ exp32 u = 0 ∧ mant32 u ≠ 0
/-- INVALID64 (R164). -/
def Invalid64 (u : BitVec 64) : Prop := exp64 u = 2047 ∨ exp64 u = 0 ∧ mant64 u ≠ 0

/-- The exact value of a finite binary32 pattern. -/
def value32 (u : BitVec 32) : ℚ :=
  (-1) ^ sign32 u *
    if exp32 u = 0 then (mant32 u : ℚ) * 2 ^ (-149 : ℤ)
    else ((2 ^ 23 + mant32 u : ℕ) : ℚ) * 2 ^ ((exp32 u : ℤ) - 150)

/-- The exact value of a finite binary64 pattern. -/
def value64 (u : BitVec 64) : ℚ :=
  (-1) ^ sign64 u *
    if exp64 u = 0 then (mant64 u : ℚ) * 2 ^ (-1074 : ℤ)
    else ((2 ^ 52 + mant64 u : ℕ) : ℚ) * 2 ^ ((exp64 u : ℤ) - 1075)

/-- `sgn(X) * floor(|X| + 1/2)` (R170). -/
def nearest (x : ℚ) : ℤ := if x < 0 then -⌊|x| + 1 / 2⌋ else ⌊|x| + 1 / 2⌋

/-- MIN below the range, MAX above it, else the number (R170). -/
def saturated (lo hi r : ℤ) : ℤ := if r < lo then lo else if r > hi then hi else r

/-- The rounding operand is NaN. -/
def OperandNan (s : State) : Prop :=
  match s.cfg.roundInFmt with
  | .binary32 => exp32 s.port.f32 = 255 ∧ mant32 s.port.f32 ≠ 0
  | .binary64 => exp64 s.port.f64 = 2047 ∧ mant64 s.port.f64 ≠ 0

/-- The rounding operand is an infinity. -/
def OperandInfinite (s : State) : Prop :=
  match s.cfg.roundInFmt with
  | .binary32 => exp32 s.port.f32 = 255 ∧ mant32 s.port.f32 = 0
  | .binary64 => exp64 s.port.f64 = 2047 ∧ mant64 s.port.f64 = 0

/-- The sign of the rounding operand. -/
def operandSign (s : State) : Nat :=
  match s.cfg.roundInFmt with
  | .binary32 => sign32 s.port.f32
  | .binary64 => sign64 s.port.f64

/-- The exact value of a finite rounding operand. -/
def operandValue (s : State) : ℚ :=
  match s.cfg.roundInFmt with
  | .binary32 => value32 s.port.f32
  | .binary64 => value64 s.port.f64

/-- Instruction `i`, of code `c`, rounds to `[lo, hi]` as R170 says, in either operand format. -/
def Rounds (i : Instr) (c : BitVec 6) (lo hi : ℤ) {w : Nat} (mk : BitVec w → Result) (val : BitVec w → ℤ) : Prop :=
  HasCode i c ∧ ∀ s : State,
    (¬ OperandNan s → ¬ OperandInfinite s →
      ∃ v : BitVec w, exec i s = .next (s.withOut (mk v)) ∧
        val v = saturated lo hi (nearest (operandValue s))) ∧
    (OperandInfinite s →
      ∃ v : BitVec w, exec i s = .next (s.withOut (mk v)) ∧
        val v = if operandSign s = 1 then lo else hi) ∧
    (OperandNan s → s.cfg.roundNan = .refuse → exec i s = .refused .roundNan)

/-- Instruction `i` answers some value of `[lo, hi]` on a NaN, where ROUND_NAN is a value (log 14). -/
def NanRounds (i : Instr) (lo hi : ℤ) {w : Nat} (mk : BitVec w → Result) (val : BitVec w → ℤ) : Prop :=
  ∀ s : State, OperandNan s → s.cfg.roundNan = .anyValue →
    ∃ v : BitVec w, exec i s = .next (s.withOut (mk v)) ∧ lo ≤ val v ∧ val v ≤ hi

/-- The unsigned value of a result, as an integer. -/
def natVal {w : Nat} (v : BitVec w) : ℤ := v.toNat

/-- The bytes of a frame that cross the wire before the trailer, from its image in BUF (R228). -/
def coveredBytes (m : Memory) : List Byte :=
  if Memory.byte m 2 = 0xFE then
    [Memory.byte m 0, Memory.byte m 1, Memory.byte m 2] ++
      (List.range 13).map fun i => Memory.byte m (4 + i)
  else (List.range ((Memory.byte m 3).toNat + 4)).map fun i => Memory.byte m i

/-- The verdict on a complete frame image (R227 to R229). -/
def verdict (table : Vector (BitVec 16) 16) (m : Memory) : Option Packet :=
  let len := (Memory.byte m 3).toNat
  if (crcBlock table (coveredBytes m)).toNat
      = (Memory.byte m (4 + len)).toNat * 256 + (Memory.byte m (4 + len + 1)).toNat then
    some { typ := Memory.byte m 2, len := Memory.byte m 3,
           data := (List.range len).map fun i => Memory.byte m (4 + i) }
  else none

/-- `m'` is `m` with index `a` written. -/
def WritesOnly (m m' : Memory) (a : Nat) (b : Byte) : Prop :=
  ∀ k, Memory.read m' k = if k = a then some b else Memory.read m k

/-- R150, first half: decoding what was encoded gives `v mod 2^N`, unsigned and signed. -/
def DecodeAfterEncode : Prop :=
  ∀ s t : State,
    (exec .enc16Be s = .next t →
      exec .decU16Be t = .next (t.withOut (.u16 (BitVec.ofInt 16 s.port.val))) ∧
      exec .decS16Be t = .next (t.withOut (.s16 (BitVec.ofInt 16 s.port.val)))) ∧
    (exec .enc24Be s = .next t →
      exec .decU24Be t = .next (t.withOut (.u32 ((BitVec.ofInt 24 s.port.val).setWidth 32))) ∧
      exec .decS24Be t = .next (t.withOut (.s32 ((BitVec.ofInt 24 s.port.val).signExtend 32)))) ∧
    (exec .enc32Be s = .next t →
      exec .decU32Be t = .next (t.withOut (.u32 (BitVec.ofInt 32 s.port.val))) ∧
      exec .decS32Be t = .next (t.withOut (.s32 (BitVec.ofInt 32 s.port.val)))) ∧
    (exec .enc64Be s = .next t →
      exec .decU64Be t = .next (t.withOut (.u64 (BitVec.ofInt 64 s.port.val))) ∧
      exec .decS64Be t = .next (t.withOut (.s64 (BitVec.ofInt 64 s.port.val)))) ∧
    (exec .enc16Le s = .next t →
      exec .decU16Le t = .next (t.withOut (.u16 (BitVec.ofInt 16 s.port.val))) ∧
      exec .decS16Le t = .next (t.withOut (.s16 (BitVec.ofInt 16 s.port.val)))) ∧
    (exec .enc24Le s = .next t →
      exec .decU24Le t = .next (t.withOut (.u32 ((BitVec.ofInt 24 s.port.val).setWidth 32))) ∧
      exec .decS24Le t = .next (t.withOut (.s32 ((BitVec.ofInt 24 s.port.val).signExtend 32)))) ∧
    (exec .enc32Le s = .next t →
      exec .decU32Le t = .next (t.withOut (.u32 (BitVec.ofInt 32 s.port.val))) ∧
      exec .decS32Le t = .next (t.withOut (.s32 (BitVec.ofInt 32 s.port.val)))) ∧
    (exec .enc64Le s = .next t →
      exec .decU64Le t = .next (t.withOut (.u64 (BitVec.ofInt 64 s.port.val))) ∧
      exec .decS64Le t = .next (t.withOut (.s64 (BitVec.ofInt 64 s.port.val))))

/-- R150, second half: encoding a decoded field back at its offset leaves the buffer unchanged. -/
def EncodeAfterDecode : Prop :=
  ∀ s t : State,
    (∀ v, exec .decU16Be s = .next t → t.out = .u16 v → s.port.val = v.toNat →
      exec .enc16Be s = .next (s.withOut (.count 2))) ∧
    (∀ v, exec .decU24Be s = .next t → t.out = .u32 v → s.port.val = v.toNat →
      exec .enc24Be s = .next (s.withOut (.count 3))) ∧
    (∀ v, exec .decU32Be s = .next t → t.out = .u32 v → s.port.val = v.toNat →
      exec .enc32Be s = .next (s.withOut (.count 4))) ∧
    (∀ v, exec .decU64Be s = .next t → t.out = .u64 v → s.port.val = v.toNat →
      exec .enc64Be s = .next (s.withOut (.count 8))) ∧
    (∀ v, exec .decU16Le s = .next t → t.out = .u16 v → s.port.val = v.toNat →
      exec .enc16Le s = .next (s.withOut (.count 2))) ∧
    (∀ v, exec .decU24Le s = .next t → t.out = .u32 v → s.port.val = v.toNat →
      exec .enc24Le s = .next (s.withOut (.count 3))) ∧
    (∀ v, exec .decU32Le s = .next t → t.out = .u32 v → s.port.val = v.toNat →
      exec .enc32Le s = .next (s.withOut (.count 4))) ∧
    (∀ v, exec .decU64Le s = .next t → t.out = .u64 v → s.port.val = v.toNat →
      exec .enc64Le s = .next (s.withOut (.count 8)))

/-- R221: FEED in stage SYNC0. -/
def FeedInSync0 : Prop :=
  ∀ s : State, s.framer.stage = .sync0 →
    (s.port.byte = 0x55 → ∃ m, WritesOnly s.framer.buf m 0 0x55 ∧
      exec .feed s = .next ((s.withFramer
        { stage := .sync1, idx := 0, buf := m, oversize := s.framer.oversize }).withOut (.feed none))) ∧
    (s.port.byte ≠ 0x55 → exec .feed s = .next (s.withOut (.feed none)))

/-- R222: FEED in stage SYNC1. -/
def FeedInSync1 : Prop :=
  ∀ s : State, s.framer.stage = .sync1 →
    (s.port.byte = 0xAA → ∃ m, WritesOnly s.framer.buf m 1 0xAA ∧
      exec .feed s = .next ((s.withFramer
        { s.framer with stage := .type, buf := m }).withOut (.feed none))) ∧
    (s.port.byte ≠ 0xAA →
      exec .feed s = .next ((s.withFramer { s.framer with stage := .sync0 }).withOut (.feed none)))

/-- R223: FEED in stage TYPE. -/
def FeedInType : Prop :=
  ∀ s : State, s.framer.stage = .type → ∃ m, WritesOnly s.framer.buf m 2 s.port.byte ∧
    exec .feed s = .next ((s.withFramer { s.framer with stage := .len, buf := m }).withOut (.feed none))

/-- The instructions that may change the Framer State. -/
def IsFraming : Instr → Prop
  | .feed | .reset | .frameStd _ _ _ | .frameHsRaw _ _ => True
  | _ => False

/-- The instructions that may change the Device-State Record. -/
def IsDispatching : Instr → Prop
  | .dispatch | .tagRawGyro | .tagHsRaw | .tagReservedFd | .tagReservedFf => True
  | _ => False

/-- The instructions that may change the operand buffer. -/
def IsEncoding : Instr → Prop
  | .enc16Be | .enc24Be | .enc32Be | .enc64Be | .enc16Le | .enc24Le | .enc32Le | .enc64Le
  | .encF32Be | .encF32Le | .encF64Be | .encF64Le => True
  | _ => False

/-- The results of the FEEDs of the first `k` steps, in order. -/
def feedsOfRun : Nat → State → List (Option Packet)
  | 0, _ => []
  | k + 1, s =>
    match step s with
    | .next t => t.feedResults ++ feedsOfRun k t
    | _ => []

/-- The routine `r` changed only the record fields its rule names (R273): `d` before it, `d'` after. What
HS_RAW writes is a field of the model's own (log 11); mode and device of SETTINGS are log 22. -/
def RoutineFrame (r : Routine) (d d' : Dsr) : Prop :=
  match r with
  | .rawGyro => d' = { d with gyroVolts := d'.gyroVolts, sequenceNumber := d'.sequenceNumber }
  | .rawAccel => d' = { d with accelVolts := d'.accelVolts, sequenceNumber := d'.sequenceNumber }
  | .timing => d' = { d with timeMs := d'.timeMs, ppsCount := d'.ppsCount, clockError := d'.clockError,
                             sequenceNumber := d'.sequenceNumber }
  | .resolution => d' = { d with gyroRange := d'.gyroRange, accelRange := d'.accelRange }
  | .hsConverted => d' = { d with gyroConverted := d'.gyroConverted, accelConverted := d'.accelConverted }
  | .hsRaw => d' = { d with hsRaw := d'.hsRaw }
  | .settings => d' = { d with outputMode := d'.outputMode, outputDevice := d'.outputDevice,
                               oversampleRatio := d'.oversampleRatio, outputRate := d'.outputRate }
  | .calibration => d' = { d with calibration := d'.calibration }
  | .identification => d' = { d with identification := d'.identification }
  | .temperature => d' = { d with gyroTemp := d'.gyroTemp }

/-- A number fits the place of a settings field. -/
def FitsField (f : SettingsField) (v : ℤ) : Prop :=
  (Config.settingsFormat f).lo ≤ v ∧ v ≤ (Config.settingsFormat f).hi

/-- The period a settings message carries: the transformed rate, narrowed to its field (R293, R298). -/
def sentPeriod (rate : ℚ) : ℤ :=
  saturated (Config.settingsFormat .rate).lo (Config.settingsFormat .rate).hi (nearest (rateTransform rate))

end Sys2Proof.Claims

open Sys2Proof Sys2Proof.Machine Sys2Proof.Claims

/-! ## Reset and the step -/

/-- R340: right after reset STAGE is SYNC0, IDX is 0 and OVERSIZE is 0 (BUF is unspecified). -/
def Obligations.ResetFramerState : Prop :=
  State.reset.framer.stage = .sync0 ∧ State.reset.framer.idx = 0 ∧ State.reset.framer.oversize = false

/-- The framing invariant holds at reset (R37). -/
def Obligations.ResetMeetsFramingInvariant : Prop := State.reset.Inv

/-- The framing invariant (R22, R23, R230) is kept by every step, from every state that meets it. -/
def Obligations.StepKeepsFramingInvariant : Prop :=
  ∀ s t : State, s.Inv → step s = .next t → t.Inv

/-- A request that decodes to an instruction is run: the step is that instruction, at the state with the
request taken from the queue, its operands on the port, and what stays on the wire still pending. -/
def Obligations.StepRunsDecoded : Prop :=
  ∀ (s : State) (r : Request) (rest : List Request) (i : Instr) (left : List Byte),
    s.pending = r :: rest → decode r.code = .ok (i, left) →
      i.wellFormed = true ∧ step s = exec i (s.present r left rest)

/-- R70: where no byte is offered no operation happens: only the result port and the queue differ. -/
def Obligations.NoneAvailableIsIdle : Prop :=
  (∀ s : State, s.pending = [] → step s = .next (s.withOut .idle)) ∧
  ∀ (s : State) (rest : List Request), s.pending = .wire [] :: rest →
    step s = .next (State.withOut { s with pending := rest } .idle)

/-- R101, U17: a request with an undefined operation code is refused by name, and only such a one. -/
def Obligations.UndefinedCodesRefused : Prop :=
  ∀ (s : State) (c : BitVec 6) (args : Operands) (rest : List Request), s.pending = .op c args :: rest →
    (step s = .refused (.undefinedOp c) ↔ (42 ≤ c.toNat ∧ c.toNat ≤ 47) ∨ 52 ≤ c.toNat)

/-! ## Encoding -/

/-- Decoding an encoded well-formed instruction gives it back, with every operand at every value; a
frame is found whole whatever bytes follow it on the wire (R81 to R83, R102). -/
def Obligations.DecodeEncodeAgree : Prop :=
  (∀ i : Instr, i.wellFormed = true → decode (encode i) = .ok (i, [])) ∧
  ∀ (i : Instr) (bs rest : List Byte), i.wellFormed = true → encode i = .wire bs →
    decode (.wire (bs ++ rest)) = .ok (i, rest)

/-- R83: the bytes an instruction takes from the wire, and the bytes left, are the bytes offered; a FEED
takes one, a frame its own encoding. -/
def Obligations.WireBytesAccounted : Prop :=
  ∀ (bs left : List Byte) (i : Instr), decode (.wire bs) = .ok (i, left) →
    (i = .feed ∧ ∃ b, bs = b :: left) ∨ (i.wellFormed = true ∧ ∃ own, encode i = .wire own ∧ bs = own ++ left)

/-- Words written out from the encodings of R81, R82, R92, R93 and R102 decode to their instructions. That the
bare table word 0x55AAFE is three wire bytes, the rest zeros, is the model's choice (log 2). -/
def Obligations.SampleWordsDecode : Prop :=
  decode (.wire [0x55, 0xAA, 0x21, 0x01, 0x05, 0x3A, 0x37]) = .ok (.frameStd 0x21 [0x05] 0x3A37, []) ∧
  decode (.wire [0x55, 0xAA, 0xFE, 1, 2, 3, 4, 5, 6, 7, 8, 9, 10, 11, 12, 13, 0x63, 0x5C])
    = .ok (.frameHsRaw [1, 2, 3, 4, 5, 6, 7, 8, 9, 10, 11, 12, 13] 0x635C, []) ∧
  decode (.tag8 0xFE) = .ok (.tagHsRaw, []) ∧
  decode (.op6 0b000011) = .ok (.decS24Be, []) ∧ decode (.op6 0b001110) = .ok (.decU64Le, []) ∧
  decode (.op6 0b010110) = .ok (.enc32Le, []) ∧ decode (.op6 0b100101) = .ok (.roundS24, []) ∧
  decode (.op6 0b110000) = .ok (.feed, []) ∧ decodeTableWord 24 0x55AAFE = some (.frameHsRaw (List.replicate 13 0) 0)

/-! ## Integer fields -/

/-- R125, R127, R129, R131. -/
def Obligations.UnsignedDecodeBigEndian : Prop :=
  DecodesUnsigned .decU16Be 0x00 2 beSum Result.u16 ∧ DecodesUnsigned .decU24Be 0x02 3 beSum Result.u32 ∧
  DecodesUnsigned .decU32Be 0x04 4 beSum Result.u32 ∧ DecodesUnsigned .decU64Be 0x06 8 beSum Result.u64

/-- R126, R128, R130, R132. -/
def Obligations.SignedDecodeBigEndian : Prop :=
  DecodesSigned .decS16Be 0x01 2 beSum Result.s16 ∧ DecodesSigned .decS24Be 0x03 3 beSum Result.s32 ∧
  DecodesSigned .decS32Be 0x05 4 beSum Result.s32 ∧ DecodesSigned .decS64Be 0x07 8 beSum Result.s64

/-- R133, R135, R137, R139. -/
def Obligations.UnsignedDecodeLittleEndian : Prop :=
  DecodesUnsigned .decU16Le 0x08 2 leSum Result.u16 ∧ DecodesUnsigned .decU24Le 0x0A 3 leSum Result.u32 ∧
  DecodesUnsigned .decU32Le 0x0C 4 leSum Result.u32 ∧ DecodesUnsigned .decU64Le 0x0E 8 leSum Result.u64

/-- R134, R136, R138, R140. -/
def Obligations.SignedDecodeLittleEndian : Prop :=
  DecodesSigned .decS16Le 0x09 2 leSum Result.s16 ∧ DecodesSigned .decS24Le 0x0B 3 leSum Result.s32 ∧
  DecodesSigned .decS32Le 0x0D 4 leSum Result.s32 ∧ DecodesSigned .decS64Le 0x0F 8 leSum Result.s64

/-- R142 to R145: the bytes of `v mod 2^N`, most significant first. -/
def Obligations.EncodeBigEndian : Prop :=
  Encodes .enc16Be 0x10 2 (·.port.val) (bePlace 2) ∧ Encodes .enc24Be 0x11 3 (·.port.val) (bePlace 3) ∧
  Encodes .enc32Be 0x12 4 (·.port.val) (bePlace 4) ∧ Encodes .enc64Be 0x13 8 (·.port.val) (bePlace 8)

/-- R146 to R149: the bytes of `v mod 2^N`, least significant first. -/
def Obligations.EncodeLittleEndian : Prop :=
  Encodes .enc16Le 0x14 2 (·.port.val) lePlace ∧ Encodes .enc24Le 0x15 3 (·.port.val) lePlace ∧
  Encodes .enc32Le 0x16 4 (·.port.val) lePlace ∧ Encodes .enc64Le 0x17 8 (·.port.val) lePlace

/-- R165 to R168: the pattern's bytes, whatever the pattern. -/
def Obligations.EncodeFloatPatterns : Prop :=
  Encodes .encF32Be 0x1A 4 (fun s => s.port.f32.toNat) (bePlace 4) ∧
  Encodes .encF32Le 0x1B 4 (fun s => s.port.f32.toNat) lePlace ∧
  Encodes .encF64Be 0x1C 8 (fun s => s.port.f64.toNat) (bePlace 8) ∧
  Encodes .encF64Le 0x1D 8 (fun s => s.port.f64.toNat) lePlace

/-- R150: for every width and byte order, decoding what was encoded gives its low bits, and encoding what
was decoded leaves the buffer unchanged. -/
def Obligations.FieldRoundTrips : Prop := DecodeAfterEncode ∧ EncodeAfterDecode

/-! ## Floats -/

/-- R162, R164: an INVALID pattern gives positive 1.0 and the flag, every other one itself. -/
def Obligations.FloatDecode : Prop :=
  (HasCode .decF32 0x18 ∧ ∀ s : State,
    (Invalid32 s.port.f32 → exec .decF32 s = .next (s.withOut (.f32 0x3F800000 true))) ∧
    (¬ Invalid32 s.port.f32 → exec .decF32 s = .next (s.withOut (.f32 s.port.f32 false)))) ∧
  HasCode .decF64 0x19 ∧ ∀ s : State,
    (Invalid64 s.port.f64 → exec .decF64 s = .next (s.withOut (.f64 0x3FF0000000000000 true))) ∧
    (¬ Invalid64 s.port.f64 → exec .decF64 s = .next (s.withOut (.f64 s.port.f64 false)))

/-- R169: encoding does not validate, decoding what was encoded does. -/
def Obligations.FloatDecodeAfterEncode : Prop :=
  ∀ s t : State, exec .encF32Be s = .next t →
    (¬ Invalid32 s.port.f32 → pseudoDecF32 .be t.port.buf t.port.off = some (s.port.f32, false)) ∧
    (Invalid32 s.port.f32 → pseudoDecF32 .be t.port.buf t.port.off = some (0x3F800000, true))

/-- R181: the sign is kept; too small is zero, too large saturates the exponent, the mantissa is
truncated. -/
def Obligations.NarrowToH16 : Prop :=
  HasCode .f32ToH16 0x1E ∧ ∀ s : State, ∃ h : BitVec 16, exec .f32ToH16 s = .next (s.withOut (.bits16 h)) ∧
    h.toNat = sign32 s.port.f32 * 2 ^ 15 +
      if exp32 s.port.f32 ≤ 96 then 0
      else if 159 < exp32 s.port.f32 then 63 * 2 ^ 9 + mant32 s.port.f32 / 2 ^ 14
      else (exp32 s.port.f32 - 96) * 2 ^ 9 + mant32 s.port.f32 / 2 ^ 14

/-- R183: exponent field 0 is a signed zero; else the exponent is rebiased and 14 zero bits appended. The
result is never an INVALID pattern. -/
def Obligations.WidenFromH16 : Prop :=
  HasCode .h16ToF32 0x1F ∧ ∀ s : State, ∃ u : BitVec 32, exec .h16ToF32 s = .next (s.withOut (.bits32 u)) ∧
    ¬ Invalid32 u ∧ u.toNat = s.port.h16.toNat / 2 ^ 15 * 2 ^ 31 +
      if s.port.h16.toNat / 2 ^ 9 % 2 ^ 6 = 0 then 0
      else (s.port.h16.toNat / 2 ^ 9 % 2 ^ 6 + 96) * 2 ^ 23 + s.port.h16.toNat % 2 ^ 9 * 2 ^ 14

/-- R184: the round trips of the 16-bit float. -/
def Obligations.H16RoundTrips : Prop :=
  (∀ h : BitVec 16, h.toNat / 2 ^ 9 % 2 ^ 6 ≠ 0 → f32ToH16 (h16ToF32 h) = h) ∧
  (∀ h : BitVec 16, h.toNat / 2 ^ 9 % 2 ^ 6 = 0 → f32ToH16 (h16ToF32 h) = h &&& 0x8000) ∧
  (∀ u : BitVec 32, h16ToF32 (f32ToH16 u) = u ↔
    exp32 u = 0 ∧ mant32 u = 0 ∨ 97 ≤ exp32 u ∧ exp32 u ≤ 159 ∧ mant32 u % 2 ^ 14 = 0) ∧
  ∀ u : BitVec 32, exp32 u ≤ 159 → sign32 (h16ToF32 (f32ToH16 u)) = sign32 u ∧
    (h16ToF32 (f32ToH16 u)).toNat % 2 ^ 31 ≤ u.toNat % 2 ^ 31

/-- R170 to R178: each rounding helper gives the exact nearest integer, ties away from zero, saturated to
its range; Infinity saturates; a NaN is refused where ROUND_NAN is refuse. -/
def Obligations.RoundingHelpers : Prop :=
  Rounds .roundU8 0x20 0 255 Result.u8 natVal ∧ Rounds .roundS8 0x21 (-128) 127 Result.s8 BitVec.toInt ∧
  Rounds .roundU16 0x22 0 65535 Result.u16 natVal ∧
  Rounds .roundS16 0x23 (-32768) 32767 Result.s16 BitVec.toInt ∧
  Rounds .roundU24 0x24 0 16777215 Result.u32 natVal ∧
  Rounds .roundS24 0x25 (-8388608) 8388607 Result.s32 BitVec.toInt ∧
  Rounds .roundU32 0x26 0 4294967295 Result.u32 natVal ∧
  Rounds .roundS32 0x27 (-2147483648) 2147483647 Result.s32 BitVec.toInt

/-- U4, with ROUND_NAN a value: each rounding helper gives some value of its range for a NaN, which one
being free. The model's choice, log 14. -/
def Obligations.RoundingNanValue : Prop :=
  NanRounds .roundU8 0 255 Result.u8 natVal ∧ NanRounds .roundS8 (-128) 127 Result.s8 BitVec.toInt ∧
  NanRounds .roundU16 0 65535 Result.u16 natVal ∧
  NanRounds .roundS16 (-32768) 32767 Result.s16 BitVec.toInt ∧
  NanRounds .roundU24 0 16777215 Result.u32 natVal ∧
  NanRounds .roundS24 (-8388608) 8388607 Result.s32 BitVec.toInt ∧
  NanRounds .roundU32 0 4294967295 Result.u32 natVal ∧
  NanRounds .roundS32 (-2147483648) 2147483647 Result.s32 BitVec.toInt

/-! ## CRC -/

/-- R201: two nibble updates, the low nibble first, for any table. -/
def Obligations.CrcOneByte : Prop :=
  HasCode .crc16Byte 0x28 ∧ ∀ s : State,
    let entry := fun (acc nibble : Nat) => s.cfg.crcTable[(acc ^^^ nibble) % 16]'(Nat.mod_lt _ (by decide))
    let a1 := s.port.acc.toNat / 16 ^^^ (entry s.port.acc.toNat (s.port.byte.toNat % 16)).toNat
    let a2 := a1 / 16 ^^^ (entry a1 (s.port.byte.toNat / 16)).toNat
    ∃ v : BitVec 16, exec .crc16Byte s = .next (s.withOut (.u16 v)) ∧ v.toNat = a2

/-- R202, R204: the block form is the one-byte form once per byte, from accumulator 0: the empty block
gives 0, and a byte more is one CRC16_BYTE operation on the running result; hence the splitting law. -/
def Obligations.CrcBlockFolds : Prop :=
  HasCode .crc16Block 0x29 ∧
  (∀ (table : Vector (BitVec 16) 16) (b1 b2 : List Byte),
    crcBlock table (b1 ++ b2) = b2.foldl (fun acc b => crcByte table b acc) (crcBlock table b1)) ∧
  ∀ s : State,
    (s.port.buf = [] → exec .crc16Block s = .next (s.withOut (.u16 0))) ∧
    ∀ (b : Byte) (bs : List Byte), s.port.buf = bs ++ [b] →
      ∃ acc v : BitVec 16,
        exec .crc16Block (s.withBuf bs) = .next ((s.withBuf bs).withOut (.u16 acc)) ∧
        exec .crc16Byte { s with port := { s.port with byte := b, acc := acc } }
          = .next (State.withOut { s with port := { s.port with byte := b, acc := acc } } (.u16 v)) ∧
        exec .crc16Block s = .next (s.withOut (.u16 v))

/-- R206 (e), (f): for a table that is linear, as every table generated from a polynomial is, a zero
run stays at zero and CRC16_BYTE is linear. -/
def Obligations.CrcLinearTables : Prop :=
  ∀ table : Vector (BitVec 16) 16,
    (∀ i j : BitVec 4, table[(i ^^^ j).toFin] = table[i.toFin] ^^^ table[j.toFin]) →
    (∀ n, crcBlock table (List.replicate n 0) = 0) ∧
    ∀ (b b' : Byte) (a a' : BitVec 16),
      crcByte table (b ^^^ b') (a ^^^ a') = crcByte table b a ^^^ crcByte table b' a'

/-- R206 (g), for CRC_TABLE_DEFAULT (log 6): changing exactly one byte of a covered sequence changes its
CRC, whatever stands before and after it. -/
def Obligations.CrcDetectsOneByte : Prop :=
  ∀ (front back : List Byte) (b b' : Byte), b ≠ b' →
    crcBlock Config.crcTableDefault (front ++ b :: back)
      ≠ crcBlock Config.crcTableDefault (front ++ b' :: back)

/-! ## The framer -/

/-- R221, R222, R223: FEED in the stages SYNC0, SYNC1 and TYPE. -/
def Obligations.FeedInHeaderStages : Prop := FeedInSync0 ∧ FeedInSync1 ∧ FeedInType

/-- R224: stage LEN of an ordinary type; OVERSIZE is set by a length above 18. -/
def Obligations.FeedLengthByte : Prop :=
  ∀ s : State, s.framer.stage = .len → Memory.byte s.framer.buf 2 ≠ 0xFE →
    ∃ m, WritesOnly s.framer.buf m 3 s.port.byte ∧
      exec .feed s = .next ((s.withFramer
        { stage := .data, idx := s.framer.idx, buf := m,
          oversize := if 18 < s.port.byte.toNat then true else s.framer.oversize }).withOut (.feed none))

/-- R225: stage LEN of the length-elided type: 13 is stored and the byte is the first payload byte. -/
def Obligations.FeedElidedLength : Prop :=
  ∀ s : State, s.framer.stage = .len → Memory.byte s.framer.buf 2 = 0xFE → s.framer.idx = 0 →
    ∃ m, (∀ k, Memory.read m k =
        if k = 3 then some 13 else if k = 4 then some s.port.byte else Memory.read s.framer.buf k) ∧
      exec .feed s = .next ((s.withFramer
        { stage := .data, idx := 1, buf := m, oversize := s.framer.oversize }).withOut (.feed none))

/-- R226 to R229: stage DATA appends the byte; the byte that completes the frame returns the stage to
SYNC0 and gives the verdict on the whole image. -/
def Obligations.FeedInData : Prop :=
  ∀ s : State, s.framer.stage = .data → s.framer.idx.toNat ≤ 256 →
    ∃ m, WritesOnly s.framer.buf m (4 + s.framer.idx.toNat) s.port.byte ∧
      (s.framer.idx.toNat + 1 ≠ (Memory.byte m 3).toNat + 2 →
        exec .feed s = .next ((s.withFramer
          { s.framer with idx := s.framer.idx + 1, buf := m }).withOut (.feed none))) ∧
      (s.framer.idx.toNat + 1 = (Memory.byte m 3).toNat + 2 →
        exec .feed s = .next ((s.withFramer
          { stage := .sync0, idx := s.framer.idx + 1, buf := m,
            oversize := s.framer.oversize }).withOut (.feed (verdict s.cfg.crcTable m))))

/-- R230: in a state that meets the framing invariant a FEED of any byte completes, changes nothing but
the Framer State and the result, and keeps the invariant; when it completes a frame, every byte of the
image that validation reads has been written. -/
def Obligations.FeedAlwaysCompletes : Prop :=
  ∀ s : State, s.Inv → ∃ (g : Framer) (p : Option Packet),
    exec .feed s = .next ((s.withFramer g).withOut (.feed p)) ∧ g.Inv ∧
    (s.framer.stage = .data → g.stage = .sync0 →
      ∀ a < (Memory.byte g.buf 3).toNat + 6, Memory.Written g.buf a)

/-- R230: from the reset state every byte stream, of any length, can be fed: no append passes the end of
BUF, every byte has its result, every packet emitted carries the bytes its length states, and the
framing invariant holds after it. (That a completing FEED reads only written bytes is
`FeedAlwaysCompletes`, from any state that meets that invariant.) -/
def Obligations.EveryStreamIsSafe : Prop :=
  ∀ (table : Vector (BitVec 16) 16) (bs : List Byte),
    ∃ (g : Framer) (ps : List (Option Packet)), feedAll table bs Framer.reset = .ok (g, ps) ∧ g.Inv ∧
      ps.length = bs.length ∧ ∀ p, some p ∈ ps → p.wf = true

/-- R231, R341: RESET abandons the frame in progress and clears OVERSIZE; BUF, the record and the
parameters stay. -/
def Obligations.ResetOperation : Prop :=
  HasCode .reset 0x31 ∧ ∀ s : State, exec .reset s = .next ((s.withFramer
    { stage := .sync0, idx := 0, buf := s.framer.buf, oversize := false }).withOut .done)

/-- R81, R221 to R229, R238: an ordinary frame arriving in stage SYNC0 is taken whole; its packet is
emitted at its last byte, exactly when its trailer is the CRC of the bytes before it; the image stands in
BUF. That the row is FEED of its bytes is log 3. -/
def Obligations.OrdinaryFrameOutcome : Prop :=
  ∀ (s : State) (typ : Byte) (payload : List Byte) (crc : BitVec 16),
    s.framer.stage = .sync0 → (Instr.frameStd typ payload crc).wellFormed = true →
    let covered := [0x55, 0xAA, typ, BitVec.ofNat 8 payload.length] ++ payload
    ∃ g : Framer,
      exec (.frameStd typ payload crc) s = .next ((s.withFramer g).withOut (.stream
        (List.replicate (payload.length + 5) none ++ [if crc = crcBlock s.cfg.crcTable covered then
          some { typ := typ, len := BitVec.ofNat 8 payload.length, data := payload } else none]))) ∧
      g.stage = .sync0 ∧ g.idx.toNat = payload.length + 2 ∧
      g.oversize = (s.framer.oversize || decide (18 < payload.length)) ∧
      ∀ a, Memory.read g.buf a =
        if a < payload.length + 6 then (covered ++ bytesBe 2 crc.toNat)[a]?
        else Memory.read s.framer.buf a

/-- R82, R225 to R229, R238: the same for a high-speed raw frame: no length byte crosses the wire or
enters the CRC, and 13 stands in BUF[3] (log 3). -/
def Obligations.HighSpeedFrameOutcome : Prop :=
  ∀ (s : State) (payload : List Byte) (crc : BitVec 16),
    s.framer.stage = .sync0 → (Instr.frameHsRaw payload crc).wellFormed = true →
    ∃ g : Framer,
      exec (.frameHsRaw payload crc) s = .next ((s.withFramer g).withOut (.stream
        (List.replicate 17 none ++ [if crc = crcBlock s.cfg.crcTable ([0x55, 0xAA, 0xFE] ++ payload) then
          some { typ := 0xFE, len := 13, data := payload } else none]))) ∧
      g.stage = .sync0 ∧ g.idx.toNat = 15 ∧ g.oversize = s.framer.oversize ∧
      ∀ a, Memory.read g.buf a =
        if a < 19 then ([0x55, 0xAA, 0xFE, 13] ++ payload ++ bytesBe 2 crc.toNat)[a]?
        else Memory.read s.framer.buf a

/-- R240: a frame arriving in any state that meets the invariant, mid-frame too, is fed byte by byte and
completes; only the Framer State and the result change (log 3). -/
def Obligations.FramesFeedInAnyStage : Prop :=
  ∀ (s : State) (i : Instr) (bs : List Byte), s.Inv → encode i = .wire bs →
    ∃ (g : Framer) (ps : List (Option Packet)),
      exec i s = .next ((s.withFramer g).withOut (.stream ps)) ∧
      feedAll s.cfg.crcTable bs s.framer = .ok (g, ps) ∧ g.Inv

/-- R292: what ENCODE_FRAME builds for a tag other than 0xFE, fed from stage SYNC0, emits nothing before
its last byte and at that byte the packet that was framed. -/
def Obligations.LoopBack : Prop :=
  ∀ (table : Vector (BitVec 16) 16) (t : Byte) (p bs : List Byte) (f : Framer),
    t ≠ 0xFE → p.length ≤ 255 → encodeFrameBytes table t p = .ok bs → f.stage = .sync0 →
    bs.length = p.length + 6 ∧
    ∃ g, feedAll table bs f = .ok (g, List.replicate (p.length + 5) none ++
        [some { typ := t, len := BitVec.ofNat 8 p.length, data := p }]) ∧ g.stage = .sync0

/-- R235: in stage SYNC0 bytes other than 0x55, however many, leave what follows exactly as it would be
alone: the same state, and the same results after none for each byte of the noise. -/
def Obligations.ResyncAfterNoise : Prop :=
  ∀ (table : Vector (BitVec 16) 16) (noise bs : List Byte) (f : Framer),
    f.stage = .sync0 → (∀ b ∈ noise, b ≠ 0x55) →
    feedAll table (noise ++ bs) f
      = (feedAll table bs f).map fun r => (r.1, List.replicate noise.length none ++ r.2)

/-- R342: in stage SYNC0 with equal OVERSIZE two framers give equal results on every stream, whatever
their BUF and IDX hold. -/
def Obligations.ResetEquivalence : Prop :=
  ∀ (table : Vector (BitVec 16) 16) (f g : Framer), f.stage = .sync0 → g.stage = .sync0 →
    f.oversize = g.oversize → ∀ bs : List Byte,
    ∃ (f' g' : Framer) (ps : List (Option Packet)),
      feedAll table bs f = .ok (f', ps) ∧ feedAll table bs g = .ok (g', ps) ∧
      f'.stage = g'.stage ∧ f'.oversize = g'.oversize

/-- R63, R69: running the machine on bytes on the wire, frame by frame or byte by byte as it finds them
(logs 3 and 5), consumes them all: the Framer State it leaves and the packets its steps emit, in order,
are those of feeding the bytes one at a time. -/
def Obligations.WireRunFeedsEveryByte : Prop :=
  ∀ (s : State) (bs : List Byte), s.Inv → s.pending = [.wire bs] →
    ∃ (k : Nat) (t : State), Host.Core.run Sys2Proof.core k s = Host.Outcome.next t ∧ t.pending = [] ∧
      feedAll s.cfg.crcTable bs s.framer = .ok (t.framer, feedsOfRun k s) ∧ t.dsr = s.dsr ∧ t.cfg = s.cfg

/-! ## The demultiplexer -/

/-- R264: a raw-gyro packet of at least 7 payload bytes, by DISPATCH or at the demultiplexer (log 4). The
scale constant and what a field's format keeps of the exact product are free (logs 9 and 10). -/
def Obligations.DispatchRawGyro : Prop :=
  ∀ s : State, 7 ≤ s.port.pkt.data.length →
    let d := fun k => byteNum s.port.pkt.data k
    let volts := fun k => Config.store .sensorsVolts
      (((d k * 256 + d (k + 1) : ℕ) : ℝ) * Config.analogScaleGyro)
    let t := (s.withDsr
      { s.dsr with
        gyroVolts := { x := volts 0, y := volts 2, z := volts 4 }
        sequenceNumber := Config.store .sequenceNumber (d 6 : ℝ) }).withOut (.selected (some .rawGyro))
    exec .tagRawGyro s = .next t ∧ (s.port.pkt.typ = 0x00 → exec .dispatch s = .next t)

/-- R265: a packet whose tag TAG_MAP binds to RAW_ACCEL (logs 9 and 10 as for the gyro). -/
def Obligations.DispatchRawAccel : Prop :=
  ∀ s : State, tagRoutine s.cfg s.port.pkt.typ = some .rawAccel → 7 ≤ s.port.pkt.data.length →
    let d := fun k => byteNum s.port.pkt.data k
    let volts := fun k => Config.store .sensorsVolts
      (((d k * 256 + d (k + 1) : ℕ) : ℝ) * Config.analogScaleAccel)
    exec .dispatch s = .next ((s.withDsr
      { s.dsr with
        accelVolts := { x := volts 0, y := volts 2, z := volts 4 }
        sequenceNumber := Config.store .sequenceNumber (d 6 : ℝ) }).withOut (.selected (some .rawAccel)))

/-- R266: a packet whose tag TAG_MAP binds to TIMING: the quotient is exact, and what a field's format keeps
of it is free (log 9). -/
def Obligations.DispatchTiming : Prop :=
  ∀ s : State, tagRoutine s.cfg s.port.pkt.typ = some .timing → 8 ≤ s.port.pkt.data.length →
    let d := fun k => byteNum s.port.pkt.data k
    exec .dispatch s = .next ((s.withDsr
      { s.dsr with
        timeMs := Config.store .time
          (((d 0 * 2 ^ 24 + d 1 * 2 ^ 16 + d 2 * 2 ^ 8 + d 3 : ℕ) : ℝ) / 10000)
        ppsCount := Config.store .ppsCount (d 4 : ℝ)
        sequenceNumber := Config.store .sequenceNumber (d 5 : ℝ)
        clockError := Config.store .clockError (signedOf 16 (d 6 * 256 + d 7) : ℝ) }).withOut
      (.selected (some .timing)))

/-- R262: DISPATCH of a packet whose tag TAG_MAP does not bind does nothing: every select line stays 0
and the record is unchanged. -/
def Obligations.UnknownTagIgnored : Prop :=
  ∀ s : State, s.port.pkt.typ ≠ 0x00 → s.port.pkt.typ ≠ 0xFE →
    (∀ e ∈ s.cfg.tagMap, e.1 ≠ s.port.pkt.typ) →
    ∃ t : State, exec .dispatch s = .next t ∧ t = s.withOut (.selected none) ∧ ∀ r, t.sel r = false

/-- R261: the select lines are one-hot: line `x` is 1 exactly when TAG_MAP gives the tag routine `x`,
which the payload and the record do not decide. TAG_MAP gives 0x00 RAW_GYRO and 0xFE HS_RAW, and any
other tag the routine of its first entry (that the first counts is log 24), which a DISPATCH with the
bytes that routine reads (log 12) selects. -/
def Obligations.SelectIsOneHot : Prop :=
  (∀ s t : State, exec .dispatch s = .next t →
    (∀ x, t.sel x = true ↔ tagRoutine s.cfg s.port.pkt.typ = some x) ∧
    ∀ x y, t.sel x = true → t.sel y = true → x = y) ∧
  (∀ cfg : Params, tagRoutine cfg 0x00 = some .rawGyro ∧ tagRoutine cfg 0xFE = some .hsRaw) ∧
  ∀ (s : State) (r : Routine) (front back : List (Byte × Routine)),
    s.cfg.tagMap = front ++ (s.port.pkt.typ, r) :: back → (∀ e ∈ front, e.1 ≠ s.port.pkt.typ) →
    s.port.pkt.typ ≠ 0x00 → s.port.pkt.typ ≠ 0xFE →
    tagRoutine s.cfg s.port.pkt.typ = some r ∧
    (layoutLen r ≤ s.port.pkt.data.length → ∃ t : State, exec .dispatch s = .next t ∧ t.sel r = true)

/-- R261, R271, R93: a packet whose tag TAG_MAP binds, with the bytes its routine's layout reads (how many
these are where the layout is open is log 12), completes with that routine selected and run on those
bytes, whatever bytes follow them; only the record and the result change. The rows of the reserved tags
do the same (log 4), and nothing where TAG_MAP does not bind them (R262). -/
def Obligations.BoundTagRunsItsRoutine : Prop :=
  (∀ (s : State) (r : Routine), layoutLen r ≤ s.port.pkt.data.length →
    let d := routineEffect r (s.port.pkt.data.take (layoutLen r)) s.dsr
    (tagRoutine s.cfg s.port.pkt.typ = some r →
      exec .dispatch s = .next ((s.withDsr d).withOut (.selected (some r)))) ∧
    (tagRoutine s.cfg 0xFD = some r →
      exec .tagReservedFd s = .next ((s.withDsr d).withOut (.selected (some r)))) ∧
    (tagRoutine s.cfg 0xFF = some r →
      exec .tagReservedFf s = .next ((s.withDsr d).withOut (.selected (some r))))) ∧
  (∀ s : State, (∀ e ∈ s.cfg.tagMap, e.1 ≠ 0xFD) →
    exec .tagReservedFd s = .next (s.withOut (.selected none))) ∧
  ∀ s : State, (∀ e ∈ s.cfg.tagMap, e.1 ≠ 0xFF) →
    exec .tagReservedFf s = .next (s.withOut (.selected none))

/-- R269, R273: a high-speed raw packet selects HS_RAW and completes; of the record only the model's own
field for its readings changes (log 11), and these, a free value, depend on the 13 bytes alone (log 12). -/
def Obligations.DispatchHsRaw : Prop :=
  ∀ s : State, 13 ≤ s.port.pkt.data.length →
    let t := (s.withDsr { s.dsr with hsRaw := Config.hsRawReadings (s.port.pkt.data.take 13) }).withOut
      (.selected (some .hsRaw))
    exec .tagHsRaw s = .next t ∧ (s.port.pkt.typ = 0xFE → exec .dispatch s = .next t)

/-- R267, R268: RESOLUTION writes the two range fields and nothing else, from the packet alone, whatever
they held; HS_CONVERTED writes `SensorsConverted` and nothing else, and reads nothing of the record but
the two ranges (log 11). -/
def Obligations.RangesFeedConversion : Prop :=
  (∀ s t : State, tagRoutine s.cfg s.port.pkt.typ = some .resolution → exec .dispatch s = .next t →
    t.dsr = { s.dsr with gyroRange := t.dsr.gyroRange, accelRange := t.dsr.accelRange }) ∧
  (∀ s s' t t' : State, s'.port.pkt.data = s.port.pkt.data →
    tagRoutine s.cfg s.port.pkt.typ = some .resolution →
    tagRoutine s'.cfg s'.port.pkt.typ = some .resolution →
    exec .dispatch s = .next t → exec .dispatch s' = .next t' →
    t'.dsr.gyroRange = t.dsr.gyroRange ∧ t'.dsr.accelRange = t.dsr.accelRange) ∧
  (∀ s t : State, tagRoutine s.cfg s.port.pkt.typ = some .hsConverted → exec .dispatch s = .next t →
    t.dsr = { s.dsr with gyroConverted := t.dsr.gyroConverted, accelConverted := t.dsr.accelConverted }) ∧
  ∀ s s' t t' : State, s'.port.pkt.data = s.port.pkt.data →
    tagRoutine s.cfg s.port.pkt.typ = some .hsConverted →
    tagRoutine s'.cfg s'.port.pkt.typ = some .hsConverted →
    s'.dsr.gyroRange = s.dsr.gyroRange → s'.dsr.accelRange = s.dsr.accelRange →
    exec .dispatch s = .next t → exec .dispatch s' = .next t' →
    t'.dsr.gyroConverted = t.dsr.gyroConverted ∧ t'.dsr.accelConverted = t.dsr.accelConverted

/-- R271: a payload shorter than the layout of the routine selected is refused, for the layouts the spec
gives. -/
def Obligations.ShortPayloadRefused : Prop :=
  ∀ s : State,
    (s.port.pkt.data.length < 7 → exec .tagRawGyro s = .refused .shortPayload) ∧
    (tagRoutine s.cfg s.port.pkt.typ = some .rawGyro ∨ tagRoutine s.cfg s.port.pkt.typ = some .rawAccel →
      s.port.pkt.data.length < 7 → exec .dispatch s = .refused .shortPayload) ∧
    (tagRoutine s.cfg s.port.pkt.typ = some .timing → s.port.pkt.data.length < 8 →
      exec .dispatch s = .refused .shortPayload)

/-- R51, R270, R272, R273: a packet whose tag TAG_MAP binds to the calibration routine stores its float under
its index, in place of an older value, and changes nothing else of the record. Both are big-endian
fields; the value stored is the pattern DEC_F32 or DEC_F64 returns, 1.0 for an INVALID one, and so never
INVALID. The two follow each other from offset 0 (R71); their order and widths are free and they are all
that is read (log 11), which settles how many bytes are read (log 12); that every index has its place is
log 13, and the `invalid` flag is dropped (log 26). -/
def Obligations.CalibrationValueIsValid : Prop :=
  ∀ s : State, tagRoutine s.cfg s.port.pkt.typ = some .calibration →
    layoutLen .calibration ≤ s.port.pkt.data.length →
    let seen := s.port.pkt.data.take (layoutLen .calibration)
    let width := if Config.calibrationIsF64 then 8 else 4
    exec .dispatch s = .next ((s.withDsr
      { s.dsr with
        calibration := (calibrationIndex seen, calibrationValue seen) ::
          s.dsr.calibration.filter fun c => c.1 != calibrationIndex seen }).withOut
      (.selected (some .calibration))) ∧
    layoutLen .calibration = Config.calibrationIndexBytes + width ∧
    (calibrationIndexAt = 0 ∧ calibrationFloatAt = Config.calibrationIndexBytes ∨
      calibrationFloatAt = 0 ∧ calibrationIndexAt = width) ∧
    calibrationIndex seen = beSum s.port.pkt.data calibrationIndexAt Config.calibrationIndexBytes ∧
    match calibrationValue seen with
    | .f32 v =>
      let u := BitVec.ofNat 32 (beSum s.port.pkt.data calibrationFloatAt 4)
      Config.calibrationIsF64 = false ∧ ¬ Invalid32 v ∧
        (Invalid32 u → v = 0x3F800000) ∧ (¬ Invalid32 u → v = u)
    | .f64 v =>
      let u := BitVec.ofNat 64 (beSum s.port.pkt.data calibrationFloatAt 8)
      Config.calibrationIsF64 = true ∧ ¬ Invalid64 v ∧
        (Invalid64 u → v = 0x3FF0000000000000) ∧ (¬ Invalid64 u → v = u)

/-! ## The frame builder -/

/-- R291: the framed bytes, one by one; more than 255 payload bytes are refused. -/
def Obligations.EncodeFrame : Prop :=
  HasCode .encodeFrame 0x33 ∧ ∀ s : State,
    (s.port.buf.length ≤ 255 → ∃ out : List Byte, exec .encodeFrame s = .next (s.withOut (.block out)) ∧
      out.length = s.port.buf.length + 6 ∧
      byteNum out 0 = 0x55 ∧ byteNum out 1 = 0xAA ∧ byteNum out 2 = s.port.tag.toNat ∧
      byteNum out 3 = s.port.buf.length ∧
      (∀ i < s.port.buf.length, byteNum out (4 + i) = byteNum s.port.buf i) ∧
      byteNum out (4 + s.port.buf.length) * 256 + byteNum out (5 + s.port.buf.length)
        = (crcBlock s.cfg.crcTable (out.take (s.port.buf.length + 4))).toNat) ∧
    (255 < s.port.buf.length → exec .encodeFrame s = .refused .payloadTooLong)

/-- R293: what `encode_settings` builds is decoded by the SETTINGS routine to the mode, device and ratio it
was built from, unchanged, and to the rate behind the period it carries; a rate whose period is a whole
number that fits is recovered exactly. The layout, one for both directions, is free, and `1e6 / 0` too
(log 22); what a record field's format keeps is free (log 9). That the routine stores mode and device too is
the model's choice (log 22). -/
def Obligations.SettingsRoundTrip : Prop :=
  (∀ (s : State) (tag : Byte) (x : SettingsInputs), FitsField .mode x.mode → FitsField .device x.device →
    FitsField .ratio x.ratio → tagRoutine s.cfg s.port.pkt.typ = some .settings →
    ∃ payload : List Byte, payload.length = layoutLen .settings ∧ payload.length ≤ 255 ∧
      encodeSettings s.cfg tag x = encodeFrameBytes s.cfg.crcTable tag payload ∧
      (s.port.pkt.data = payload → exec .dispatch s = .next ((s.withDsr
        { s.dsr with
          outputMode := Config.store .outputMode (x.mode : ℝ)
          outputDevice := Config.store .outputDevice (x.device : ℝ)
          oversampleRatio := Config.store .oversampleRatio (x.ratio : ℝ)
          outputRate := Config.store .outputRate (rateTransform (sentPeriod x.rate)) }).withOut
        (.selected (some .settings))))) ∧
  (∀ q : ℚ, q ≠ 0 → rateTransform q = 1000000 / q) ∧
  ∀ (rate : ℚ) (period : ℤ), period ≠ 0 → FitsField .rate period → rate = 1000000 / period →
    rateTransform (sentPeriod rate) = rate

/-! ## Rules of the whole machine -/

/-- R20, R25: no instruction but FEED, RESET and the frame rows changes the Framer State. -/
def Obligations.FramerChangedOnlyByFraming : Prop :=
  ∀ (i : Instr) (s t : State), ¬ IsFraming i → exec i s = .next t → t.framer = s.framer

/-- R33, R273: no instruction but DISPATCH and the tag rows changes the Device-State Record, and these change
only the fields that the rule of the routine selected names, and nothing where none is selected. What
HS_RAW writes is a field of the model's own (log 11), and that SETTINGS may write mode and device is log 22. -/
def Obligations.RecordChangedOnlyByDispatch : Prop :=
  (∀ (i : Instr) (s t : State), ¬ IsDispatching i → exec i s = .next t → t.dsr = s.dsr) ∧
  ∀ (i : Instr) (s t : State), IsDispatching i → exec i s = .next t →
    (∀ r, t.out = .selected (some r) → RoutineFrame r s.dsr t.dsr) ∧
    (t.out = .selected none → t.dsr = s.dsr) ∧ ∃ r, t.out = .selected r

/-- R29: no instruction changes a build-time parameter, and a run of steps leaves them as they were. -/
def Obligations.ParametersNeverChange : Prop :=
  (∀ (i : Instr) (s t : State), exec i s = .next t → t.cfg = s.cfg) ∧
  ∀ s t : State, Reaches s t → t.cfg = s.cfg

/-- R55, R59: no instruction but the encoders changes an operand, an encoder changes only the buffer and
not its length, and no instruction touches the requests to come. -/
def Obligations.OperandsChangedOnlyByEncoders : Prop :=
  ∀ (i : Instr) (s t : State), exec i s = .next t →
    (¬ IsEncoding i → t.port = s.port) ∧
    (IsEncoding i → t.port = { s.port with buf := t.port.buf } ∧
      t.port.buf.length = s.port.buf.length) ∧
    t.pending = s.pending

/-- R28: OVERSIZE is sticky: only RESET clears it, and an instruction that sets it, a FEED or a frame row,
feeds a byte above 18 in stage LEN of an ordinary type. -/
def Obligations.OversizeIsSticky : Prop :=
  (∀ (i : Instr) (s t : State), exec i s = .next t → s.framer.oversize = true → i ≠ .reset →
    t.framer.oversize = true) ∧
  ∀ (i : Instr) (s t : State), exec i s = .next t → s.framer.oversize = false →
    t.framer.oversize = true →
    ∃ (front back : List Byte) (b : Byte) (f : Framer) (ps : List (Option Packet)),
      (i = .feed ∧ front = [] ∧ b = s.port.byte ∨ encode i = .wire (front ++ b :: back)) ∧
      feedAll s.cfg.crcTable front s.framer = .ok (f, ps) ∧ f.oversize = false ∧
      f.stage = .len ∧ Memory.byte f.buf 2 ≠ 0xFE ∧ 18 < b.toNat

/-- R229, R32: every packet the framer emits carries exactly the payload its length byte states, from any
state. -/
def Obligations.EmittedPacketsMatchLength : Prop :=
  ∀ (i : Instr) (s t : State), exec i s = .next t → ∀ p ∈ t.emitted, p.data.length = p.len.toNat
end

