-- ==== Sys2Proof/Laws/Memory.lean ====
section
/-! SUPPORT. What the memory operations do, said once: read after write, the canonical form, and the two
buffer primitives. -/

namespace Sys2Proof.Machine

@[simp] theorem Memory.read_nil (a : Nat) : Memory.read [] a = none := rfl

theorem Memory.read_cons (c : Host.Cell) (m : Memory) (a : Nat) :
    Memory.read (c :: m) a = if c.1 = a then some c.2 else Memory.read m a := by
  unfold Memory.read
  by_cases h : c.1 = a <;> simp [h]

/-- Reading the index just written gives the byte written. -/
@[simp] theorem Memory.read_write_same (m : Memory) (a : Nat) (b : Byte) :
    Memory.read (Memory.write m a b) a = some b := by
  induction m with
  | nil => simp [Memory.write, Memory.read_cons]
  | cons c m ih =>
    simp only [Memory.write]
    split
    · simp [Memory.read_cons]
    · split
      · simp [Memory.read_cons]
      · rename_i h1 h2
        simp [Memory.read_cons, ih, Ne.symm h2]

/-- A write leaves every other index alone. -/
theorem Memory.read_write_other (m : Memory) {a a' : Nat} (b : Byte) (h : a' ≠ a) :
    Memory.read (Memory.write m a b) a' = Memory.read m a' := by
  induction m with
  | nil => simp [Memory.write, Memory.read_cons, Ne.symm h]
  | cons c m ih =>
    simp only [Memory.write]
    split
    · simp [Memory.read_cons, Ne.symm h]
    · split
      · rename_i h1 h2
        subst h2
        simp [Memory.read_cons, Ne.symm h]
      · simp [Memory.read_cons, ih]

/-- The two read laws in one. -/
theorem Memory.read_write (m : Memory) (a a' : Nat) (b : Byte) :
    Memory.read (Memory.write m a b) a' = if a' = a then some b else Memory.read m a' := by
  split
  · subst a'
    simp
  · exact Memory.read_write_other m b ‹_›

@[simp] theorem Memory.byte_write_same (m : Memory) (a : Nat) (b : Byte) :
    Memory.byte (Memory.write m a b) a = b := by simp [Memory.byte]

theorem Memory.byte_write_other (m : Memory) {a a' : Nat} (b : Byte) (h : a' ≠ a) :
    Memory.byte (Memory.write m a b) a' = Memory.byte m a' := by
  simp [Memory.byte, Memory.read_write_other m b h]

theorem Memory.byte_of_read {m : Memory} {a : Nat} {b : Byte} (h : Memory.read m a = some b) :
    Memory.byte m a = b := by simp [Memory.byte, h]

/-- What is written stays written. -/
theorem Memory.written_write {m : Memory} {a a' : Nat} (b : Byte)
    (h : (Memory.read m a').isSome = true) : (Memory.read (Memory.write m a b) a').isSome = true := by
  rw [Memory.read_write]
  split <;> simp_all

theorem Memory.wf_iff (m : Memory) :
    Memory.wf m = true ↔ (m.map (·.1)).Pairwise (· < ·) ∧ ∀ c ∈ m, c.1 < Config.bufCap := by
  simp [Memory.wf]

theorem Memory.mem_write {m : Memory} {a : Nat} {b : Byte} {c : Host.Cell}
    (h : c ∈ Memory.write m a b) : c = (a, b) ∨ c ∈ m := by
  induction m with
  | nil => simpa [Memory.write] using h
  | cons d m ih =>
    simp only [Memory.write] at h
    split at h
    · simpa using h
    · split at h
      · simp at h ⊢
        tauto
      · simp at h ⊢
        rcases h with h | h
        · exact .inr (.inl h)
        · rcases ih h with h | h <;> tauto

/-- Every write into BUF keeps its canonical form. -/
theorem Memory.wf_write {m : Memory} {a : Nat} (b : Byte) (hm : Memory.wf m = true)
    (ha : a < Config.bufCap) : Memory.wf (Memory.write m a b) = true := by
  rw [Memory.wf_iff] at *
  refine ⟨?_, fun c hc => ?_⟩
  · induction m with
    | nil => simp [Memory.write]
    | cons d m ih =>
      have hd := List.pairwise_cons.1 hm.1
      simp only [Memory.write]
      split
      · rename_i h
        refine List.pairwise_cons.2 ⟨fun x hx => ?_, hm.1⟩
        simp only [List.map_cons, List.mem_cons] at hx
        rcases hx with rfl | hx
        · exact h
        · exact lt_trans h (hd.1 x hx)
      · split
        · rename_i h
          subst h
          exact hm.1
        · have ih' := ih ⟨hd.2, fun c hc => hm.2 c (List.mem_cons_of_mem _ hc)⟩
          refine List.pairwise_cons.2 ⟨fun x hx => ?_, ih'⟩
          obtain ⟨c, hc, rfl⟩ := List.mem_map.1 hx
          rcases Memory.mem_write hc with rfl | hc
          · exact lt_of_le_of_ne (not_lt.1 ‹_›) (Ne.symm ‹_›)
          · exact hd.1 _ (List.mem_map.2 ⟨c, hc, rfl⟩)
  · rcases Memory.mem_write hc with rfl | hc
    · exact ha
    · exact hm.2 c hc

theorem Memory.wf_nil : Memory.wf [] = true := by decide

@[simp] theorem Memory.length_bytes (m : Memory) (off n : Nat) : (Memory.bytes m off n).length = n := by
  simp [Memory.bytes]

theorem Memory.bytes_congr {m m' : Memory} {off n : Nat}
    (h : ∀ i < n, Memory.byte m (off + i) = Memory.byte m' (off + i)) :
    Memory.bytes m off n = Memory.bytes m' off n := by
  unfold Memory.bytes
  exact List.map_congr_left fun i hi => h i (List.mem_range.1 hi)

/-- The bytes at an index range are a list, where they are its bytes one by one. -/
theorem Memory.bytes_eq {m : Memory} {off : Nat} {bs : List Byte}
    (h : ∀ i (hi : i < bs.length), Memory.byte m (off + i) = bs[i]) :
    Memory.bytes m off bs.length = bs := by
  apply List.ext_getElem
  · simp
  · intro i h1 h2
    simpa [Memory.bytes] using h i h2

/-! ## The caller's buffers -/

/-- What MemRead answers (R54, R57). -/
theorem memRead_eq_some {buf : List Byte} {off n : Nat} {bs : List Byte} :
    memRead buf off n = some bs ↔ off + n ≤ buf.length ∧ bs = (buf.drop off).take n := by
  unfold memRead
  split <;> simp_all [eq_comm]

theorem memRead_eq_none {buf : List Byte} {off n : Nat} :
    memRead buf off n = none ↔ buf.length < off + n := by
  unfold memRead
  split <;> simp_all

theorem memRead_length {buf : List Byte} {off n : Nat} {bs : List Byte}
    (h : memRead buf off n = some bs) : bs.length = n := by
  obtain ⟨h, rfl⟩ := memRead_eq_some.1 h
  simp
  omega

theorem memRead_getElem {buf : List Byte} {off n : Nat} {bs : List Byte}
    (h : memRead buf off n = some bs) {i : Nat} (hi : i < n) : bs[i]? = buf[off + i]? := by
  obtain ⟨h, rfl⟩ := memRead_eq_some.1 h
  simp [hi]

/-- What MemWrite answers (R55, R57): the bytes at the offset, every other byte as it was. -/
theorem memWrite_spec {buf : List Byte} {off : Nat} {bs b' : List Byte}
    (h : memWrite buf off bs = some b') :
    off + bs.length ≤ buf.length ∧ b'.length = buf.length ∧
    (∀ i, i < bs.length → b'[off + i]? = bs[i]?) ∧
    (∀ i, i < off ∨ off + bs.length ≤ i → b'[i]? = buf[i]?) := by
  unfold memWrite at h
  split at h
  · rename_i hle
    obtain rfl := Option.some.inj h
    refine ⟨hle, by simp; omega, fun i hi => ?_, fun i hi => ?_⟩
    · have h1 : (buf.take off).length = off := by simp; omega
      rw [List.append_assoc, List.getElem?_append_right (by omega), h1,
        List.getElem?_append_left (by omega)]
      congr 1
      omega
    · have h1 : (buf.take off).length = off := by simp; omega
      rcases hi with hi | hi
      · rw [List.append_assoc, List.getElem?_append_left (by omega), List.getElem?_take_of_lt hi]
      · rw [List.getElem?_append_right (by simp; omega), List.getElem?_drop]
        congr 1
        simp
        omega
  · cases h

theorem memWrite_eq_none {buf : List Byte} {off : Nat} {bs : List Byte} :
    memWrite buf off bs = none ↔ buf.length < off + bs.length := by
  unfold memWrite
  split <;> simp_all

/-- Reading back what was written gives it. -/
theorem memRead_memWrite {buf : List Byte} {off : Nat} {bs b' : List Byte}
    (h : memWrite buf off bs = some b') : memRead b' off bs.length = some bs := by
  obtain ⟨h1, h2, h3, -⟩ := memWrite_spec h
  rw [memRead_eq_some]
  refine ⟨by omega, ?_⟩
  apply List.ext_getElem?
  intro i
  by_cases hi : i < bs.length
  · rw [List.getElem?_take_of_lt hi, List.getElem?_drop, h3 i hi]
  · rw [List.getElem?_eq_none (by omega), List.getElem?_eq_none]
    simp
    omega

/-- Writing back what was read changes nothing. -/
theorem memWrite_memRead {buf : List Byte} {off n : Nat} {bs : List Byte}
    (h : memRead buf off n = some bs) : memWrite buf off bs = some buf := by
  obtain ⟨h1, rfl⟩ := memRead_eq_some.1 h
  have hl : ((buf.drop off).take n).length = n := by simp; omega
  unfold memWrite
  rw [hl, if_pos h1]
  congr 1
  rw [List.append_assoc, ← List.drop_drop, List.take_append_drop, List.take_append_drop]

@[simp] theorem orRefuse_ok {α : Type} (v : α) (k : α → State) : orRefuse (.ok v) k = .next (k v) := rfl
@[simp] theorem orRefuse_error {α : Type} (r : Refusal) (k : α → State) :
    orRefuse (.error r : Except Refusal α) k = .refused r := rfl

/-- An operation that answers a next state had a value. -/
theorem orRefuse_next {α : Type} {x : Except Refusal α} {k : α → State} {t : State}
    (h : orRefuse x k = .next t) : ∃ v, x = .ok v ∧ t = k v := by
  cases x with
  | ok v => exact ⟨v, rfl, by simpa using h.symm⟩
  | error r => simp at h

end Sys2Proof.Machine
end

