-- ==== Sys2Proof/Laws/Builder.lean ====
section
/-! SUPPORT. Everything the frame builder and payload composition can do. -/

namespace Sys2Proof.Machine

/-! ## The frame builder -/

theorem encodeFrameBytes_ok {table : Vector (BitVec 16) 16} {t : Byte} {p : List Byte}
    (h : p.length ≤ Config.maxFramePayload) :
    encodeFrameBytes table t p = .ok (framedBytes table t p) := by
  simp [encodeFrameBytes, h]

theorem encodeFrameBytes_tooLong {table : Vector (BitVec 16) 16} {t : Byte} {p : List Byte}
    (h : Config.maxFramePayload < p.length) :
    encodeFrameBytes table t p = .error .payloadTooLong := by
  simp [encodeFrameBytes, Nat.not_le.2 h]

/-- The frame the builder makes is the ordinary wire frame whose trailer is the CRC of its front part. -/
theorem framedBytes_eq (table : Vector (BitVec 16) 16) (t : Byte) (p : List Byte) :
    framedBytes table t p = frameStdBytes t p
      (crcBlock table ([Config.sync0Val, Config.sync1Val, t, BitVec.ofNat 8 p.length] ++ p)) := rfl

theorem execEncodeFrame_next {s t : State} (h : execEncodeFrame s = .next t) :
    ∃ bs, encodeFrameBytes s.cfg.crcTable s.port.tag s.port.buf = .ok bs ∧
      t = s.withOut (.block bs) := by
  obtain ⟨bs, h1, h2⟩ := orRefuse_next h
  exact ⟨bs, h1, h2⟩

/-! ## Payload composition (R298) -/

/-- The bytes of a list of items, one after another. -/
def itemBytes (nan : RoundNan) : List PayloadItem → Except Refusal (List Byte)
  | [] => .ok []
  | i :: is =>
    match i.bytes nan with
    | .error r => .error r
    | .ok bs => (itemBytes nan is).map fun more => bs ++ more

/-- Everything composition can do: where the items' bytes fit behind the cursor, they stand there and the
cursor is behind them. -/
theorem composeFrom_ok {nan : RoundNan} {items : List PayloadItem} {buf bs : List Byte} {cursor : Nat}
    (h : itemBytes nan items = .ok bs) (hl : cursor + bs.length ≤ buf.length) :
    ∃ buf', composeFrom nan items buf cursor = .ok (buf', cursor + bs.length) ∧
      buf'.take (cursor + bs.length) = buf.take cursor ++ bs := by
  induction items generalizing buf bs cursor with
  | nil => cases h; exact ⟨buf, by simp [composeFrom], by simp⟩
  | cons i is ih =>
    cases hi : i.bytes nan with
    | error r => simp [itemBytes, hi] at h
    | ok own =>
      cases hm : itemBytes nan is with
      | error r => simp [itemBytes, hi, hm, Except.map] at h
      | ok more =>
        obtain rfl : own ++ more = bs := by simpa [itemBytes, hi, hm, Except.map] using h
        rw [List.length_append, ← Nat.add_assoc] at hl ⊢
        have hw : memWrite buf cursor own
            = some (buf.take cursor ++ own ++ buf.drop (cursor + own.length)) := by
          simp [memWrite, show cursor + own.length ≤ buf.length by omega]
        have ht : (buf.take cursor ++ own).length = cursor + own.length := by simp; omega
        obtain ⟨buf', h1, h2⟩ := ih (cursor := cursor + own.length)
          (buf := buf.take cursor ++ own ++ buf.drop (cursor + own.length)) hm (by simp; omega)
        refine ⟨buf', by simp only [composeFrom, hi, hw, h1], ?_⟩
        rw [h2, List.take_left' ht, List.append_assoc]

/-- A composed payload is its items' bytes, one after another. -/
theorem compose_ok {nan : RoundNan} {items : List PayloadItem} {bs : List Byte}
    (h : itemBytes nan items = .ok bs) (hl : bs.length ≤ Config.maxFramePayload) :
    compose nan items = .ok bs := by
  obtain ⟨buf', h1, h2⟩ := composeFrom_ok (cursor := 0) (buf := List.replicate Config.maxFramePayload 0) h
    (by simpa using hl)
  simp only [Nat.zero_add, List.take_zero, List.nil_append] at h1 h2
  simp only [compose, h1, Except.map, h2]

/-- A builder whose payload fits gives the frame of that payload. -/
theorem buildMessage_ok {cfg : Params} {t : Byte} {items : List PayloadItem} {bs : List Byte}
    (h : itemBytes cfg.roundNan items = .ok bs) (hl : bs.length ≤ Config.maxFramePayload) :
    buildMessage cfg t items = .ok (framedBytes cfg.crcTable t bs) := by
  simp [buildMessage, compose_ok h hl, Except.bind, encodeFrameBytes_ok hl]

end Sys2Proof.Machine
end

