-- ==== Sys2Proof/Laws/Bytes.lean ====
section
/-! SUPPORT. The byte-order functions: they are inverse to each other (R141, R150). -/

namespace Sys2Proof

theorem beValue_foldl (bs : List Byte) (acc : Nat) :
    bs.foldl (fun acc b => acc * 256 + b.toNat) acc = acc * 256 ^ bs.length + beValue bs := by
  unfold beValue
  induction bs generalizing acc with
  | nil => simp
  | cons b bs ih =>
    simp only [List.foldl_cons, List.length_cons]
    rw [ih, ih (0 * 256 + b.toNat)]
    ring

@[simp] theorem beValue_nil : beValue [] = 0 := rfl

/-- The first byte is the most significant one (R121). -/
theorem beValue_cons (b : Byte) (bs : List Byte) :
    beValue (b :: bs) = b.toNat * 256 ^ bs.length + beValue bs := by
  have := beValue_foldl bs (0 * 256 + b.toNat)
  simpa [beValue] using this

theorem beValue_append (as bs : List Byte) :
    beValue (as ++ bs) = beValue as * 256 ^ bs.length + beValue bs := by
  unfold beValue
  rw [List.foldl_append, beValue_foldl]
  rfl

theorem beValue_lt (bs : List Byte) : beValue bs < 256 ^ bs.length := by
  induction bs with
  | nil => simp
  | cons b bs ih =>
    rw [beValue_cons, List.length_cons, pow_succ]
    have := b.isLt
    have hpos : 0 < 256 ^ bs.length := by positivity
    nlinarith

/-- The first byte is the least significant one (R122). -/
theorem leValue_cons (b : Byte) (bs : List Byte) : leValue (b :: bs) = leValue bs * 256 + b.toNat := by
  simp [leValue, beValue_append, beValue_cons]

@[simp] theorem leValue_nil : leValue [] = 0 := rfl

@[simp] theorem length_bytesBe (n p : Nat) : (bytesBe n p).length = n := by
  induction n with
  | zero => rfl
  | succ n ih => simp [bytesBe, ih]

@[simp] theorem length_bytesLe (n p : Nat) : (bytesLe n p).length = n := by simp [bytesLe]

/-- `be(bytes_be(p, n)) = p mod 256^n` (R141). -/
theorem beValue_bytesBe (n p : Nat) : beValue (bytesBe n p) = p % 256 ^ n := by
  induction n with
  | zero => simp [bytesBe, Nat.mod_one]
  | succ n ih =>
    rw [bytesBe, beValue_cons, ih, length_bytesBe, BitVec.toNat_ofNat, pow_succ 256 n,
      show 2 ^ 8 = 256 from rfl, Nat.mod_mul, Nat.add_comm, Nat.mul_comm]

theorem leValue_bytesLe (n p : Nat) : leValue (bytesLe n p) = p % 256 ^ n := by
  simp [leValue, bytesLe, beValue_bytesBe]

theorem bytesBe_mod (n p : Nat) : bytesBe n (p % 256 ^ n) = bytesBe n p := by
  have key : ∀ k n p, bytesBe n (p % 256 ^ (n + k)) = bytesBe n p := by
    intro k n
    induction n generalizing k with
    | zero => intros; rfl
    | succ n ih =>
      intro p
      rw [bytesBe, bytesBe]
      congr 1
      · apply BitVec.eq_of_toNat_eq
        rw [BitVec.toNat_ofNat, BitVec.toNat_ofNat, show n + 1 + k = n + (1 + k) from by ring, pow_add,
          Nat.mod_mul_right_div_self]
        norm_num [pow_add, Nat.mod_mul_right_mod]
      · have := ih (1 + k) p
        rwa [show n + (1 + k) = n + 1 + k from by ring] at this
  simpa using key 0 n p

/-- `bytes_be` of the value of `n` bytes is those bytes. -/
theorem bytesBe_beValue (bs : List Byte) : bytesBe bs.length (beValue bs) = bs := by
  induction bs with
  | nil => rfl
  | cons b bs ih =>
    have hlt := beValue_lt bs
    have hpos : 0 < 256 ^ bs.length := by positivity
    rw [List.length_cons, bytesBe, beValue_cons]
    congr 1
    · apply BitVec.eq_of_toNat_eq
      rw [BitVec.toNat_ofNat, Nat.mul_comm, Nat.mul_add_div hpos, Nat.div_eq_of_lt hlt, Nat.add_zero]
      exact Nat.mod_eq_of_lt b.isLt
    · rw [← bytesBe_mod, Nat.mul_add_mod_self_right, Nat.mod_eq_of_lt hlt, ih]

theorem bytesLe_leValue (bs : List Byte) : bytesLe bs.length (leValue bs) = bs := by
  have := bytesBe_beValue bs.reverse
  rw [List.length_reverse] at this
  simp [bytesLe, leValue, this]

/-- Two bytes of a 16-bit pattern, the high one first (R90). -/
theorem bytesBe_two (c : BitVec 16) :
    bytesBe 2 c.toNat = [c.extractLsb' 8 8, c.extractLsb' 0 8] := by
  simp only [bytesBe]
  congr 1
  · apply BitVec.eq_of_toNat_eq
    simp [Nat.shiftRight_eq_div_pow]
  · congr 1
    apply BitVec.eq_of_toNat_eq
    simp

@[simp] theorem append_extract (c : BitVec 16) : c.extractLsb' 8 8 ++ c.extractLsb' 0 8 = c := by
  ext i hi
  rw [BitVec.getElem_append]
  split
  · simp only [BitVec.getElem_extractLsb', Nat.zero_add]
    exact BitVec.getLsbD_eq_getElem (by omega)
  · rw [BitVec.getElem_extractLsb', BitVec.getLsbD_eq_getElem (by omega)]
    congr 1
    omega

end Sys2Proof
end

