-- ==== Sys2Proof/Laws/Demux.lean ====
section
/-! SUPPORT. Everything the demultiplexer and the routines behind it can do. -/

namespace Sys2Proof.Machine

@[simp] theorem selectAndRun_none (s : State) :
    selectAndRun none s = .next (s.withOut (.selected none)) := rfl

theorem selectAndRun_some {r : Routine} {s : State} (h : layoutLen r ≤ s.port.pkt.data.length) :
    selectAndRun (some r) s
      = .next ((s.withDsr (routineOn r s.port.pkt.data s.dsr)).withOut (.selected (some r))) := by
  simp [selectAndRun, h]

/-- A routine on too short a payload is refused (R271). -/
theorem selectAndRun_short {r : Routine} {s : State} (h : s.port.pkt.data.length < layoutLen r) :
    selectAndRun (some r) s = .refused .shortPayload := by
  simp [selectAndRun, Nat.not_le.2 h]

/-- A dispatch that answers a next state selected a routine and ran it, or selected none. -/
theorem selectAndRun_inv {r : Option Routine} {s t : State} (h : selectAndRun r s = .next t) :
    (r = none ∧ t = s.withOut (.selected none)) ∨
    ∃ q, r = some q ∧ layoutLen q ≤ s.port.pkt.data.length ∧
      t = (s.withDsr (routineOn q s.port.pkt.data s.dsr)).withOut (.selected (some q)) := by
  cases r with
  | none => exact .inl ⟨rfl, (Host.Outcome.next.inj h).symm⟩
  | some q =>
    by_cases hq : layoutLen q ≤ s.port.pkt.data.length
    · rw [selectAndRun_some hq] at h
      exact .inr ⟨q, rfl, hq, (Host.Outcome.next.inj h).symm⟩
    · rw [selectAndRun_short (Nat.not_le.1 hq)] at h
      cases h

/-- A routine sees no byte past its layout (R271). -/
@[simp] theorem routineOn_append {r : Routine} {data extra : List Byte} {d : Dsr}
    (h : data.length = layoutLen r) : routineOn r (data ++ extra) d = routineEffect r data d := by
  simp [routineOn, ← h]

/-- The two fields of a calibration payload follow each other from offset 0 (R71): they fill the layout and
do not overlap. -/
theorem calibration_sequence :
    (calibrationIndexAt = 0 ∧ calibrationFloatAt = Config.calibrationIndexBytes ∧
      calibrationFloatAt + calibrationFloatBytes = layoutLen .calibration) ∨
    (calibrationFloatAt = 0 ∧ calibrationIndexAt = calibrationFloatBytes ∧
      calibrationIndexAt + Config.calibrationIndexBytes = layoutLen .calibration) := by
  cases h : Config.calibrationIndexFirst <;>
    simp [calibrationIndexAt, calibrationFloatAt, layoutLen, calibrationLen, h, Nat.add_comm]

/-- A field within the bytes a routine sees is the packet's field (R271). -/
theorem fieldAt_take {data : List Byte} {m o n : Nat} (h : o + n ≤ m) :
    fieldAt (data.take m) o n = fieldAt data o n := by
  rw [fieldAt, fieldAt, List.drop_take, List.take_take, Nat.min_eq_left (by omega)]

/-- The first entry of a tag in the open part of TAG_MAP counts (R261; log 24). -/
theorem tagRoutine_first {cfg : Params} {t : Byte} {r : Routine} {front back : List (Byte × Routine)}
    (h : cfg.tagMap = front ++ (t, r) :: back) (hf : ∀ e ∈ front, e.1 ≠ t)
    (h0 : t ≠ Config.tagRawGyro) (h1 : t ≠ Config.tagHsRaw) : tagRoutine cfg t = some r := by
  have : front.find? (fun e => e.1 == t) = none := by simpa using hf
  simp [tagRoutine, h0, h1, h, this]

@[simp] theorem tagRoutine_rawGyro (cfg : Params) : tagRoutine cfg Config.tagRawGyro = some .rawGyro := by
  simp [tagRoutine]

@[simp] theorem tagRoutine_hsRaw (cfg : Params) : tagRoutine cfg Config.tagHsRaw = some .hsRaw := by
  simp [tagRoutine, Config.tagHsRaw, Config.tagRawGyro]

/-! ## The settings layout (R293) -/

/-- Every field of a settings message has exactly one place in it. -/
theorem settingsLayout_fields : (settingsLayout.map (·.1)).Nodup ∧ ∀ f, f ∈ settingsLayout.map (·.1) := by
  have hm : settingsLayout.map (·.1)
      = [SettingsField.mode, .device, .ratio, .rate].map Config.settingsOrder := by
    simp [settingsLayout]
  rw [hm]
  refine ⟨(List.nodup_map_iff Config.settingsOrder.injective).2 (by decide), fun f => ?_⟩
  refine List.mem_map.2 ⟨Config.settingsOrder.symm f, ?_, by simp⟩
  cases Config.settingsOrder.symm f <;> simp

theorem settingsLayout_range {f : SettingsField} {r : IntRange} (h : (f, r) ∈ settingsLayout) :
    r = Config.settingsFormat f := by
  simp only [settingsLayout, List.mem_map, Prod.mk.injEq] at h
  obtain ⟨p, -, rfl, rfl⟩ := h
  rfl

end Sys2Proof.Machine
end

