-- ==== Sys2Proof/Laws/Framing.lean ====
section
/-! SUPPORT. Everything a FEED can do, stage by stage, and the laws of feeding many bytes. -/

namespace Sys2Proof.Machine

variable {table : Vector (BitVec 16) 16} {b : Byte} {f g : Framer}

@[simp] theorem crcFold_nil (acc : BitVec 16) : crcFold table acc [] = acc := rfl

theorem crcFold_append (acc : BitVec 16) (as bs : List Byte) :
    crcFold table acc (as ++ bs) = crcFold table (crcFold table acc as) bs := by
  simp [crcFold]

/-! ## One byte -/

theorem feedByte_sync0_match (h : f.stage = .sync0) :
    feedByte table Config.sync0Val f
      = .ok ({ f with buf := Memory.write f.buf 0 Config.sync0Val, idx := 0, stage := .sync1 }, none) := by
  simp [feedByte, h]

theorem feedByte_sync0_skip (h : f.stage = .sync0) (hb : b ≠ Config.sync0Val) :
    feedByte table b f = .ok (f, none) := by
  simp [feedByte, h, hb]

theorem feedByte_sync1_match (h : f.stage = .sync1) :
    feedByte table Config.sync1Val f
      = .ok ({ f with buf := Memory.write f.buf 1 Config.sync1Val, stage := .type }, none) := by
  simp [feedByte, h]

theorem feedByte_sync1_drop (h : f.stage = .sync1) (hb : b ≠ Config.sync1Val) :
    feedByte table b f = .ok ({ f with stage := .sync0 }, none) := by
  simp [feedByte, h, hb]

theorem feedByte_type (h : f.stage = .type) :
    feedByte table b f = .ok ({ f with buf := Memory.write f.buf 2 b, stage := .len }, none) := by
  simp [feedByte, h]

theorem feedByte_len_std (h : f.stage = .len) (ht : Memory.byte f.buf 2 ≠ Config.tagHsRaw) :
    feedByte table b f = .ok ({ f with buf := Memory.write f.buf 3 b, stage := .data, oversize := oversizeAfter f.oversize b }, none) := by
  simp [feedByte, h, ht]

theorem feedByte_len_hsRaw (h : f.stage = .len) (ht : Memory.byte f.buf 2 = Config.tagHsRaw) :
    feedByte table b f
      = feedData table b { f with buf := Memory.write f.buf 3 (BitVec.ofNat 8 Config.hsRawLen) } := by
  simp [feedByte, h, ht]

theorem feedByte_data (h : f.stage = .data) : feedByte table b f = feedData table b f := by
  simp [feedByte, h]

/-- An append within BUF: the frame goes on, or is complete and validated (R226). -/
theorem feedData_ok (h : 4 + f.idx.toNat < Config.bufCap) :
    feedData table b f =
      if (f.idx + 1).toNat = (Memory.byte f.buf 3).toNat + 2 then
        .ok ({ f with buf := Memory.write f.buf (4 + f.idx.toNat) b, idx := f.idx + 1, stage := .sync0 },
          validate table (Memory.write f.buf (4 + f.idx.toNat) b))
      else
        .ok ({ f with buf := Memory.write f.buf (4 + f.idx.toNat) b, idx := f.idx + 1, stage := .data },
          none) := by
  have h3 : Memory.byte (Memory.write f.buf (4 + f.idx.toNat) b) 3 = Memory.byte f.buf 3 :=
    Memory.byte_write_other _ b (by omega)
  simp [feedData, h, h3]

theorem feedData_overrun (h : ¬ 4 + f.idx.toNat < Config.bufCap) :
    feedData table b f = .error .bufferEnd := by
  simp [feedData, h]

/-- What stage DATA can do: a step that has a result wrote one byte and counted it. -/
theorem feedData_inv {p : Option Packet} (h : feedData table b f = .ok (g, p)) :
    4 + f.idx.toNat < Config.bufCap ∧
    g.buf = Memory.write f.buf (4 + f.idx.toNat) b ∧ g.idx = f.idx + 1 ∧ g.oversize = f.oversize ∧
    ((g.idx.toNat = (Memory.byte f.buf 3).toNat + 2 ∧ g.stage = .sync0 ∧ p = validate table g.buf) ∨
     (g.idx.toNat ≠ (Memory.byte f.buf 3).toNat + 2 ∧ g.stage = .data ∧ p = none)) := by
  by_cases hb : 4 + f.idx.toNat < Config.bufCap
  · rw [feedData_ok hb] at h
    split at h
    · simp only [Except.ok.injEq, Prod.mk.injEq] at h
      obtain ⟨rfl, rfl⟩ := h
      exact ⟨hb, rfl, rfl, rfl, .inl ⟨‹_›, rfl, rfl⟩⟩
    · simp only [Except.ok.injEq, Prod.mk.injEq] at h
      obtain ⟨rfl, rfl⟩ := h
      exact ⟨hb, rfl, rfl, rfl, .inr ⟨‹_›, rfl, rfl⟩⟩
  · rw [feedData_overrun hb] at h
    cases h

/-- Everything a FEED with a result can do: the transition relation of R233. -/
theorem feedByte_cases {p : Option Packet} (h : feedByte table b f = .ok (g, p)) :
    (f.stage = .sync0 ∧ b = Config.sync0Val ∧ p = none ∧
      g = { f with buf := Memory.write f.buf 0 b, idx := 0, stage := .sync1 }) ∨
    (f.stage = .sync0 ∧ b ≠ Config.sync0Val ∧ p = none ∧ g = f) ∨
    (f.stage = .sync1 ∧ b = Config.sync1Val ∧ p = none ∧
      g = { f with buf := Memory.write f.buf 1 b, stage := .type }) ∨
    (f.stage = .sync1 ∧ b ≠ Config.sync1Val ∧ p = none ∧ g = { f with stage := .sync0 }) ∨
    (f.stage = .type ∧ p = none ∧ g = { f with buf := Memory.write f.buf 2 b, stage := .len }) ∨
    (f.stage = .len ∧ Memory.byte f.buf 2 ≠ Config.tagHsRaw ∧ p = none ∧
      g = { f with buf := Memory.write f.buf 3 b, stage := .data, oversize := oversizeAfter f.oversize b }) ∨
    (f.stage = .len ∧ Memory.byte f.buf 2 = Config.tagHsRaw ∧
      feedData table b { f with buf := Memory.write f.buf 3 (BitVec.ofNat 8 Config.hsRawLen) } = .ok (g, p)) ∨
    (f.stage = .data ∧ feedData table b f = .ok (g, p)) := by
  unfold feedByte at h
  split at h
  · split at h <;> simp only [Except.ok.injEq, Prod.mk.injEq] at h <;> obtain ⟨rfl, rfl⟩ := h <;> simp_all
  · split at h <;> simp only [Except.ok.injEq, Prod.mk.injEq] at h <;> obtain ⟨rfl, rfl⟩ := h <;> simp_all
  · simp only [Except.ok.injEq, Prod.mk.injEq] at h
    obtain ⟨rfl, rfl⟩ := h
    simp_all
  · split at h
    · simp only [Except.ok.injEq, Prod.mk.injEq] at h
      obtain ⟨rfl, rfl⟩ := h
      simp_all
    · simp_all
  · simp_all

/-! ## Many bytes -/

@[simp] theorem feedAll_nil : feedAll table [] f = .ok (f, []) := rfl

/-- Feeding goes on from a byte that had a result. -/
theorem feedAll_cons {p : Option Packet} {bs : List Byte} (h : feedByte table b f = .ok (g, p)) :
    feedAll table (b :: bs) f = (feedAll table bs g).map fun r => (r.1, p :: r.2) := by
  simp [feedAll, h]

/-- What a stream that was fed to its end did with its first byte. -/
theorem feedAll_cons_inv {bs : List Byte} {ps : List (Option Packet)}
    (h : feedAll table (b :: bs) f = .ok (g, ps)) :
    ∃ f' p qs, feedByte table b f = .ok (f', p) ∧ feedAll table bs f' = .ok (g, qs) ∧ ps = p :: qs := by
  cases hb : feedByte table b f with
  | error r => simp [feedAll, hb] at h
  | ok v =>
    obtain ⟨f', p⟩ := v
    rw [feedAll_cons hb] at h
    cases hq : feedAll table bs f' with
    | error r => simp [hq, Except.map] at h
    | ok w =>
      obtain ⟨g', qs⟩ := w
      simp only [hq, Except.map, Except.ok.injEq, Prod.mk.injEq] at h
      obtain ⟨rfl, rfl⟩ := h
      exact ⟨f', p, qs, rfl, hq, rfl⟩

/-- Each byte of a stream has one result (R105). -/
theorem feedAll_length {bs : List Byte} {ps : List (Option Packet)} (h : feedAll table bs f = .ok (g, ps)) :
    ps.length = bs.length := by
  induction bs generalizing f ps with
  | nil => cases h; rfl
  | cons b bs ih =>
    obtain ⟨f', p, qs, -, h2, rfl⟩ := feedAll_cons_inv h
    simp [ih h2]

/-- Feeding a stream in two parts is feeding it whole (R69). -/
theorem feedAll_append {as bs : List Byte} {ps : List (Option Packet)}
    (h : feedAll table as f = .ok (g, ps)) :
    feedAll table (as ++ bs) f = (feedAll table bs g).map fun r => (r.1, ps ++ r.2) := by
  induction as generalizing f ps with
  | nil =>
    simp only [feedAll_nil, Except.ok.injEq, Prod.mk.injEq] at h
    obtain ⟨rfl, rfl⟩ := h
    cases h : feedAll table bs f <;> simp [Except.map, h]
  | cons a as ih =>
    obtain ⟨f', p, qs, h1, h2, rfl⟩ := feedAll_cons_inv h
    rw [List.cons_append, feedAll_cons h1, ih h2]
    cases feedAll table bs g <;> simp [Except.map]

/-! ## The operations of the framer -/

theorem execFeed_next {s t : State} (h : execFeed s = .next t) :
    ∃ g p, feedByte s.cfg.crcTable s.port.byte s.framer = .ok (g, p) ∧
      t = (s.withFramer g).withOut (.feed p) := by
  obtain ⟨⟨g, p⟩, h1, h2⟩ := orRefuse_next h
  exact ⟨g, p, h1, h2⟩

theorem feedFrame_next {bytes : List Byte} {s t : State} (h : feedFrame bytes s = .next t) :
    ∃ g ps, feedAll s.cfg.crcTable bytes s.framer = .ok (g, ps) ∧
      t = (s.withFramer g).withOut (.stream ps) := by
  obtain ⟨⟨g, ps⟩, h1, h2⟩ := orRefuse_next h
  exact ⟨g, ps, h1, h2⟩

end Sys2Proof.Machine
end

