-- ==== Sys2Proof/Laws/Operands.lean ====
section
/-! SUPPORT. Everything a decode, an encode and a rounding operation can do. -/

namespace Sys2Proof.Machine

@[simp] theorem ByteOrder.value_be (bs : List Byte) : ByteOrder.be.value bs = beValue bs := rfl
@[simp] theorem ByteOrder.value_le (bs : List Byte) : ByteOrder.le.value bs = leValue bs := rfl

@[simp] theorem ByteOrder.length_bytes (o : ByteOrder) (n p : Nat) : (o.bytes n p).length = n := by
  cases o <;> simp [ByteOrder.bytes]

/-- The value of the bytes of a number is the number's low part (R141). -/
theorem ByteOrder.value_bytes (o : ByteOrder) (n p : Nat) : o.value (o.bytes n p) = p % 256 ^ n := by
  cases o
  · exact beValue_bytesBe n p
  · exact leValue_bytesLe n p

/-- The bytes of the value of some bytes are those bytes. -/
theorem ByteOrder.bytes_value (o : ByteOrder) (bs : List Byte) : o.bytes bs.length (o.value bs) = bs := by
  cases o
  · exact bytesBe_beValue bs
  · exact bytesLe_leValue bs

/-- An access within the buffer: the field's value is that of its bytes. -/
theorem decodeField_next {o : ByteOrder} {n : Nat} {mk : Nat → Result} {s : State}
    (h : s.port.off + n ≤ s.port.buf.length) :
    decodeField o n mk s
      = .next (s.withOut (mk (o.value ((s.port.buf.drop s.port.off).take n)))) := by
  simp [decodeField, readField, memRead, h]

/-- An access past the end is refused (R57). -/
theorem decodeField_refused {o : ByteOrder} {n : Nat} {mk : Nat → Result} {s : State}
    (h : s.port.buf.length < s.port.off + n) : decodeField o n mk s = .refused .bufferEnd := by
  simp [decodeField, readField, memRead, Nat.not_le.2 h]

/-- A decode that answers a next state left only its result. -/
theorem decodeField_inv {o : ByteOrder} {n : Nat} {mk : Nat → Result} {s t : State}
    (h : decodeField o n mk s = .next t) :
    s.port.off + n ≤ s.port.buf.length ∧
      t = s.withOut (mk (o.value ((s.port.buf.drop s.port.off).take n))) := by
  by_cases hb : s.port.off + n ≤ s.port.buf.length
  · rw [decodeField_next hb] at h
    exact ⟨hb, (Host.Outcome.next.inj h).symm⟩
  · rw [decodeField_refused (Nat.not_le.1 hb)] at h
    cases h

/-- An access within the buffer: the bytes are written and the count is the result. -/
theorem encodeField_next {o : ByteOrder} {n p : Nat} {s : State}
    (h : s.port.off + n ≤ s.port.buf.length) :
    ∃ b, memWrite s.port.buf s.port.off (o.bytes n p) = some b ∧
      encodeField o n p s = .next ((s.withBuf b).withOut (.count n)) := by
  cases hb : memWrite s.port.buf s.port.off (o.bytes n p) with
  | none =>
    rw [memWrite_eq_none] at hb
    simp at hb
    omega
  | some b => exact ⟨b, rfl, by simp [encodeField, writeField, hb]⟩

/-- An access past the end is refused, and nothing is written (R57). -/
theorem encodeField_refused {o : ByteOrder} {n p : Nat} {s : State}
    (h : s.port.buf.length < s.port.off + n) : encodeField o n p s = .refused .bufferEnd := by
  have : memWrite s.port.buf s.port.off (o.bytes n p) = none := by
    rw [memWrite_eq_none]
    simpa using h
  simp [encodeField, writeField, this]

/-- An encode that answers a next state wrote its bytes into the operand buffer. -/
theorem encodeField_inv {o : ByteOrder} {n p : Nat} {s t : State} (h : encodeField o n p s = .next t) :
    ∃ b, memWrite s.port.buf s.port.off (o.bytes n p) = some b ∧
      t = (s.withBuf b).withOut (.count n) := by
  by_cases hb : s.port.off + n ≤ s.port.buf.length
  · obtain ⟨b, h1, h2⟩ := encodeField_next (o := o) (p := p) hb
    rw [h2] at h
    exact ⟨b, h1, (Host.Outcome.next.inj h).symm⟩
  · rw [encodeField_refused (Nat.not_le.1 hb)] at h
    cases h

theorem truncateTo_lt (n : Nat) (v : Int) : truncateTo n v < 256 ^ n := by
  have hp : (0 : Int) < 256 ^ n := by positivity
  have h1 := Int.emod_nonneg v hp.ne'
  have h2 := Int.emod_lt_of_pos v hp
  unfold truncateTo
  zify
  rw [Int.toNat_of_nonneg h1]
  exact h2

/-- The low bits of a number are its value modulo the field (R141). -/
theorem truncateTo_cast (n : Nat) (v : Int) : ((truncateTo n v : Nat) : Int) = v % 256 ^ n := by
  have hp : (0 : Int) < 256 ^ n := by positivity
  exact Int.toNat_of_nonneg (Int.emod_nonneg v hp.ne')

/-! ## Rounding -/

theorem intRange_lo_le_hi (r : IntRange) : r.lo ≤ r.hi := by cases r <;> decide

theorem saturate_mem (r : IntRange) (x : Int) : r.lo ≤ saturate r x ∧ saturate r x ≤ r.hi := by
  have := intRange_lo_le_hi r
  unfold saturate
  split
  · omega
  · split <;> omega

/-- A number of the range is not saturated. -/
theorem saturate_eq {r : IntRange} {x : Int} (h : r.lo ≤ x ∧ x ≤ r.hi) : saturate r x = x := by
  simp [saturate, not_lt.2 h.1, not_lt.2 h.2]

@[simp] theorem roundValue_finite (nan : RoundNan) (r : IntRange) (neg : Bool) (num den : Nat) :
    roundValue nan r (.finite neg num den) = .ok (saturate r (roundNearest neg num den)) := rfl
@[simp] theorem roundValue_infinite (nan : RoundNan) (r : IntRange) (neg : Bool) :
    roundValue nan r (.infinite neg) = .ok (if neg then r.lo else r.hi) := rfl
@[simp] theorem roundValue_nan_refuse (r : IntRange) (u : BitVec 64) :
    roundValue .refuse r (.nan u) = .error .roundNan := rfl
@[simp] theorem roundValue_nan_anyValue (r : IntRange) (u : BitVec 64) :
    roundValue .anyValue r (.nan u) = .ok (saturate r (Config.roundNanValue r u)) := rfl

/-- Whatever a rounding helper gives lies in its range. -/
theorem roundValue_mem {nan : RoundNan} {r : IntRange} {x : RealOperand} {v : Int}
    (h : roundValue nan r x = .ok v) : r.lo ≤ v ∧ v ≤ r.hi := by
  have := intRange_lo_le_hi r
  cases x with
  | finite neg num den => cases h; exact saturate_mem r _
  | infinite neg => cases h; split <;> omega
  | nan u =>
    cases nan with
    | refuse => cases h
    | anyValue => cases h; exact saturate_mem r _

/-- A rounding helper on a finite operand. -/
theorem roundTo_finite {r : IntRange} {mk : Int → Result} {s : State} {neg : Bool} {num den : Nat}
    (h : roundOperand s = .finite neg num den) :
    roundTo r mk s = .next (s.withOut (mk (saturate r (roundNearest neg num den)))) := by
  simp [roundTo, h]

theorem roundTo_infinite {r : IntRange} {mk : Int → Result} {s : State} {neg : Bool}
    (h : roundOperand s = .infinite neg) :
    roundTo r mk s = .next (s.withOut (mk (if neg then r.lo else r.hi))) := by
  simp [roundTo, h]

theorem roundTo_nan_refuse {r : IntRange} {mk : Int → Result} {s : State} {u : BitVec 64}
    (h : roundOperand s = .nan u) (hc : s.cfg.roundNan = .refuse) :
    roundTo r mk s = .refused .roundNan := by
  simp [roundTo, h, hc]

theorem roundTo_nan_anyValue {r : IntRange} {mk : Int → Result} {s : State} {u : BitVec 64}
    (h : roundOperand s = .nan u) (hc : s.cfg.roundNan = .anyValue) :
    roundTo r mk s = .next (s.withOut (mk (saturate r (Config.roundNanValue r u)))) := by
  simp [roundTo, h, hc]

/-- A rounding helper that answers a next state left only its result, a number of its range. -/
theorem roundTo_inv {r : IntRange} {mk : Int → Result} {s t : State} (h : roundTo r mk s = .next t) :
    ∃ v, r.lo ≤ v ∧ v ≤ r.hi ∧ t = s.withOut (mk v) := by
  obtain ⟨v, h1, h2⟩ := orRefuse_next h
  exact ⟨v, (roundValue_mem h1).1, (roundValue_mem h1).2, h2⟩

/-! ## Fields of a range -/

/-- A number of the range, written in the range's bytes and read back, is that number (R123, R141). -/
theorem intRange_value_truncateTo {r : IntRange} {v : Int} (h : r.lo ≤ v ∧ v ≤ r.hi) :
    r.value (truncateTo r.bytes v) = v := by
  have hc := truncateTo_cast r.bytes v
  unfold IntRange.value
  cases r <;> simp only [IntRange.lo, IntRange.hi, IntRange.bytes] at * <;> split_ifs <;> omega

end Sys2Proof.Machine
end

