-- ==== Sys2Proof/Laws/PerInstr.lean ====
section
/-! SUPPORT. Statements about every instruction as syntax, one lemma per constructor. Family MatchesRow: the
encoding of an instruction has the bits its row of `spec/opcode_table.json` fixes. -/

namespace Sys2Proof.Laws

/-- The number a table row's match and mask apply to: the operation code, the tag, or the first three
wire bytes, byte 0 most significant. -/
def rowNumber : Code → Nat
  | .op6 c => c.toNat
  | .tag8 t => t.toNat
  | .wire bs => beValue (bs.take 3)

/-- The mask and the match of an instruction's row. -/
def rowBits : Instr → Nat × Nat
  | .frameHsRaw _ _ => (0xFFFFFF, 0x55AAFE)
  | .frameStd _ _ _ => (0xFFFF00, 0x55AA00)
  | .tagRawGyro => (0xFF, 0x00)
  | .tagHsRaw => (0xFF, 0xFE)
  | .tagReservedFd => (0xFF, 0xFD)
  | .tagReservedFf => (0xFF, 0xFF)
  | .decU16Be => (0x3F, 0x00)
  | .decS16Be => (0x3F, 0x01)
  | .decU24Be => (0x3F, 0x02)
  | .decS24Be => (0x3F, 0x03)
  | .decU32Be => (0x3F, 0x04)
  | .decS32Be => (0x3F, 0x05)
  | .decU64Be => (0x3F, 0x06)
  | .decS64Be => (0x3F, 0x07)
  | .decU16Le => (0x3F, 0x08)
  | .decS16Le => (0x3F, 0x09)
  | .decU24Le => (0x3F, 0x0A)
  | .decS24Le => (0x3F, 0x0B)
  | .decU32Le => (0x3F, 0x0C)
  | .decS32Le => (0x3F, 0x0D)
  | .decU64Le => (0x3F, 0x0E)
  | .decS64Le => (0x3F, 0x0F)
  | .enc16Be => (0x3F, 0x10)
  | .enc24Be => (0x3F, 0x11)
  | .enc32Be => (0x3F, 0x12)
  | .enc64Be => (0x3F, 0x13)
  | .enc16Le => (0x3F, 0x14)
  | .enc24Le => (0x3F, 0x15)
  | .enc32Le => (0x3F, 0x16)
  | .enc64Le => (0x3F, 0x17)
  | .decF32 => (0x3F, 0x18)
  | .decF64 => (0x3F, 0x19)
  | .encF32Be => (0x3F, 0x1A)
  | .encF32Le => (0x3F, 0x1B)
  | .encF64Be => (0x3F, 0x1C)
  | .encF64Le => (0x3F, 0x1D)
  | .f32ToH16 => (0x3F, 0x1E)
  | .h16ToF32 => (0x3F, 0x1F)
  | .roundU8 => (0x3F, 0x20)
  | .roundS8 => (0x3F, 0x21)
  | .roundU16 => (0x3F, 0x22)
  | .roundS16 => (0x3F, 0x23)
  | .roundU24 => (0x3F, 0x24)
  | .roundS24 => (0x3F, 0x25)
  | .roundU32 => (0x3F, 0x26)
  | .roundS32 => (0x3F, 0x27)
  | .crc16Byte => (0x3F, 0x28)
  | .crc16Block => (0x3F, 0x29)
  | .feed => (0x3F, 0x30)
  | .reset => (0x3F, 0x31)
  | .dispatch => (0x3F, 0x32)
  | .encodeFrame => (0x3F, 0x33)

/-- The encoding carries the row's fixed bits. -/
def MatchesRow.Statement (i : Instr) : Prop :=
  rowNumber (encode i) &&& (rowBits i).1 = (rowBits i).2

theorem MatchesRow.frameHsRaw (payload : List Byte) (crc : BitVec 16) :
    MatchesRow.Statement (.frameHsRaw payload crc) := by
  simp [MatchesRow.Statement, rowNumber, rowBits, encode, frameHsRawBytes, beValue, Config.sync0Val,
    Config.sync1Val, Config.tagHsRaw]

theorem MatchesRow.frameStd (typ : Byte) (payload : List Byte) (crc : BitVec 16) :
    MatchesRow.Statement (.frameStd typ payload crc) := by
  have key : ∀ t : Byte, beValue [Config.sync0Val, Config.sync1Val, t] &&& 0xFFFF00 = 0x55AA00 := by
    decide
  exact key typ

theorem MatchesRow.tagRawGyro : MatchesRow.Statement .tagRawGyro := rfl
theorem MatchesRow.tagHsRaw : MatchesRow.Statement .tagHsRaw := rfl
theorem MatchesRow.tagReservedFd : MatchesRow.Statement .tagReservedFd := rfl
theorem MatchesRow.tagReservedFf : MatchesRow.Statement .tagReservedFf := rfl
theorem MatchesRow.decU16Be : MatchesRow.Statement .decU16Be := rfl
theorem MatchesRow.decS16Be : MatchesRow.Statement .decS16Be := rfl
theorem MatchesRow.decU24Be : MatchesRow.Statement .decU24Be := rfl
theorem MatchesRow.decS24Be : MatchesRow.Statement .decS24Be := rfl
theorem MatchesRow.decU32Be : MatchesRow.Statement .decU32Be := rfl
theorem MatchesRow.decS32Be : MatchesRow.Statement .decS32Be := rfl
theorem MatchesRow.decU64Be : MatchesRow.Statement .decU64Be := rfl
theorem MatchesRow.decS64Be : MatchesRow.Statement .decS64Be := rfl
theorem MatchesRow.decU16Le : MatchesRow.Statement .decU16Le := rfl
theorem MatchesRow.decS16Le : MatchesRow.Statement .decS16Le := rfl
theorem MatchesRow.decU24Le : MatchesRow.Statement .decU24Le := rfl
theorem MatchesRow.decS24Le : MatchesRow.Statement .decS24Le := rfl
theorem MatchesRow.decU32Le : MatchesRow.Statement .decU32Le := rfl
theorem MatchesRow.decS32Le : MatchesRow.Statement .decS32Le := rfl
theorem MatchesRow.decU64Le : MatchesRow.Statement .decU64Le := rfl
theorem MatchesRow.decS64Le : MatchesRow.Statement .decS64Le := rfl
theorem MatchesRow.enc16Be : MatchesRow.Statement .enc16Be := rfl
theorem MatchesRow.enc24Be : MatchesRow.Statement .enc24Be := rfl
theorem MatchesRow.enc32Be : MatchesRow.Statement .enc32Be := rfl
theorem MatchesRow.enc64Be : MatchesRow.Statement .enc64Be := rfl
theorem MatchesRow.enc16Le : MatchesRow.Statement .enc16Le := rfl
theorem MatchesRow.enc24Le : MatchesRow.Statement .enc24Le := rfl
theorem MatchesRow.enc32Le : MatchesRow.Statement .enc32Le := rfl
theorem MatchesRow.enc64Le : MatchesRow.Statement .enc64Le := rfl
theorem MatchesRow.decF32 : MatchesRow.Statement .decF32 := rfl
theorem MatchesRow.decF64 : MatchesRow.Statement .decF64 := rfl
theorem MatchesRow.encF32Be : MatchesRow.Statement .encF32Be := rfl
theorem MatchesRow.encF32Le : MatchesRow.Statement .encF32Le := rfl
theorem MatchesRow.encF64Be : MatchesRow.Statement .encF64Be := rfl
theorem MatchesRow.encF64Le : MatchesRow.Statement .encF64Le := rfl
theorem MatchesRow.f32ToH16 : MatchesRow.Statement .f32ToH16 := rfl
theorem MatchesRow.h16ToF32 : MatchesRow.Statement .h16ToF32 := rfl
theorem MatchesRow.roundU8 : MatchesRow.Statement .roundU8 := rfl
theorem MatchesRow.roundS8 : MatchesRow.Statement .roundS8 := rfl
theorem MatchesRow.roundU16 : MatchesRow.Statement .roundU16 := rfl
theorem MatchesRow.roundS16 : MatchesRow.Statement .roundS16 := rfl
theorem MatchesRow.roundU24 : MatchesRow.Statement .roundU24 := rfl
theorem MatchesRow.roundS24 : MatchesRow.Statement .roundS24 := rfl
theorem MatchesRow.roundU32 : MatchesRow.Statement .roundU32 := rfl
theorem MatchesRow.roundS32 : MatchesRow.Statement .roundS32 := rfl
theorem MatchesRow.crc16Byte : MatchesRow.Statement .crc16Byte := rfl
theorem MatchesRow.crc16Block : MatchesRow.Statement .crc16Block := rfl
theorem MatchesRow.feed : MatchesRow.Statement .feed := rfl
theorem MatchesRow.reset : MatchesRow.Statement .reset := rfl
theorem MatchesRow.dispatch : MatchesRow.Statement .dispatch := rfl
theorem MatchesRow.encodeFrame : MatchesRow.Statement .encodeFrame := rfl

end Sys2Proof.Laws
end

