-- ==== Sys2Proof/Laws/State.lean ====
section
/-! SUPPORT. One lemma per field per update of the state, so that no later proof unfolds an update. -/

namespace Sys2Proof.Machine

@[simp] theorem State.withOut_framer (s : State) (r : Result) : (s.withOut r).framer = s.framer := rfl
@[simp] theorem State.withOut_dsr (s : State) (r : Result) : (s.withOut r).dsr = s.dsr := rfl
@[simp] theorem State.withOut_cfg (s : State) (r : Result) : (s.withOut r).cfg = s.cfg := rfl
@[simp] theorem State.withOut_port (s : State) (r : Result) : (s.withOut r).port = s.port := rfl
@[simp] theorem State.withOut_out (s : State) (r : Result) : (s.withOut r).out = r := rfl
@[simp] theorem State.withOut_pending (s : State) (r : Result) : (s.withOut r).pending = s.pending := rfl

@[simp] theorem State.withFramer_framer (s : State) (f : Framer) : (s.withFramer f).framer = f := rfl
@[simp] theorem State.withFramer_dsr (s : State) (f : Framer) : (s.withFramer f).dsr = s.dsr := rfl
@[simp] theorem State.withFramer_cfg (s : State) (f : Framer) : (s.withFramer f).cfg = s.cfg := rfl
@[simp] theorem State.withFramer_port (s : State) (f : Framer) : (s.withFramer f).port = s.port := rfl
@[simp] theorem State.withFramer_out (s : State) (f : Framer) : (s.withFramer f).out = s.out := rfl
@[simp] theorem State.withFramer_pending (s : State) (f : Framer) : (s.withFramer f).pending = s.pending := rfl

@[simp] theorem State.withDsr_framer (s : State) (d : Dsr) : (s.withDsr d).framer = s.framer := rfl
@[simp] theorem State.withDsr_dsr (s : State) (d : Dsr) : (s.withDsr d).dsr = d := rfl
@[simp] theorem State.withDsr_cfg (s : State) (d : Dsr) : (s.withDsr d).cfg = s.cfg := rfl
@[simp] theorem State.withDsr_port (s : State) (d : Dsr) : (s.withDsr d).port = s.port := rfl
@[simp] theorem State.withDsr_out (s : State) (d : Dsr) : (s.withDsr d).out = s.out := rfl
@[simp] theorem State.withDsr_pending (s : State) (d : Dsr) : (s.withDsr d).pending = s.pending := rfl

@[simp] theorem State.withBuf_framer (s : State) (b : List Byte) : (s.withBuf b).framer = s.framer := rfl
@[simp] theorem State.withBuf_dsr (s : State) (b : List Byte) : (s.withBuf b).dsr = s.dsr := rfl
@[simp] theorem State.withBuf_cfg (s : State) (b : List Byte) : (s.withBuf b).cfg = s.cfg := rfl
@[simp] theorem State.withBuf_port (s : State) (b : List Byte) : (s.withBuf b).port = { s.port with buf := b } := rfl
@[simp] theorem State.withBuf_out (s : State) (b : List Byte) : (s.withBuf b).out = s.out := rfl
@[simp] theorem State.withBuf_pending (s : State) (b : List Byte) : (s.withBuf b).pending = s.pending := rfl

@[simp] theorem State.present_framer (s : State) (r : Request) (left : List Byte) (rest : List Request) :
    (s.present r left rest).framer = s.framer := rfl
@[simp] theorem State.present_dsr (s : State) (r : Request) (left : List Byte) (rest : List Request) :
    (s.present r left rest).dsr = s.dsr := rfl
@[simp] theorem State.present_cfg (s : State) (r : Request) (left : List Byte) (rest : List Request) :
    (s.present r left rest).cfg = s.cfg := rfl
@[simp] theorem State.present_port (s : State) (r : Request) (left : List Byte) (rest : List Request) :
    (s.present r left rest).port = r.drive s.port := rfl
@[simp] theorem State.present_out (s : State) (r : Request) (left : List Byte) (rest : List Request) :
    (s.present r left rest).out = s.out := rfl
@[simp] theorem State.present_pending (s : State) (r : Request) (left : List Byte) (rest : List Request) :
    (s.present r left rest).pending = requestsLeft left rest := rfl

@[simp] theorem requestsLeft_nil (rest : List Request) : requestsLeft [] rest = rest := rfl
@[simp] theorem requestsLeft_cons (b : Byte) (bs : List Byte) (rest : List Request) :
    requestsLeft (b :: bs) rest = .wire (b :: bs) :: rest := rfl

@[simp] theorem Request.code_op (c : BitVec 6) (args : Operands) : (Request.op c args).code = .op6 c := rfl
@[simp] theorem Request.code_tag (t : Byte) (p : List Byte) : (Request.tag t p).code = .tag8 t := rfl
@[simp] theorem Request.code_wire (bs : List Byte) : (Request.wire bs).code = .wire bs := rfl

@[simp] theorem resetFramer_stage (f : Framer) : (resetFramer f).stage = .sync0 := rfl
@[simp] theorem resetFramer_idx (f : Framer) : (resetFramer f).idx = 0 := rfl
@[simp] theorem resetFramer_buf (f : Framer) : (resetFramer f).buf = f.buf := rfl
@[simp] theorem resetFramer_oversize (f : Framer) : (resetFramer f).oversize = false := rfl

/-! ## The results of the FEEDs of a step (R27, R220) -/

@[simp] theorem State.feedResults_feed (s : State) (p : Option Packet) :
    (s.withOut (.feed p)).feedResults = [p] := rfl
@[simp] theorem State.feedResults_stream (s : State) (ps : List (Option Packet)) :
    (s.withOut (.stream ps)).feedResults = ps := rfl
@[simp] theorem State.feedResults_idle (s : State) : (s.withOut .idle).feedResults = [] := rfl
@[simp] theorem State.feedResults_withFramer (s : State) (f : Framer) :
    (s.withFramer f).feedResults = s.feedResults := rfl

/-- The packets of a step are those its FEEDs gave. -/
theorem State.mem_emitted {s : State} {p : Packet} : p ∈ s.emitted ↔ some p ∈ s.feedResults :=
  List.reduceOption_mem_iff

/-- `pkt_valid` of a step is 1 exactly when one of its FEEDs emitted a packet (R320). -/
theorem State.pktValid_iff (s : State) : s.pktValid = true ↔ ∃ p, some p ∈ s.feedResults := by
  simp only [State.pktValid, State.pktValids, List.any_map, List.any_eq_true, Function.comp, id]
  constructor
  · rintro ⟨x, hx, h⟩
    obtain ⟨p, rfl⟩ := Option.isSome_iff_exists.1 h
    exact ⟨p, hx⟩
  · rintro ⟨p, hp⟩
    exact ⟨_, hp, rfl⟩

/-- Two updates of different fields commute, and the last update of a field counts. -/
@[simp] theorem State.withOut_withOut (s : State) (r r' : Result) :
    (s.withOut r).withOut r' = s.withOut r' := rfl
@[simp] theorem State.withFramer_withFramer (s : State) (f f' : Framer) :
    (s.withFramer f).withFramer f' = s.withFramer f' := rfl
@[simp] theorem State.withFramer_self (s : State) : s.withFramer s.framer = s := rfl
@[simp] theorem State.withBuf_self (s : State) : s.withBuf s.port.buf = s := rfl

end Sys2Proof.Machine
end

