-- ==== Sys2Proof/Laws/Step.lean ====
section
/-! SUPPORT. Everything a fetch and a step can do. -/

namespace Sys2Proof.Machine

theorem fetch_empty {s : State} (h : s.pending = []) : fetch s = .idle s := by
  simp [fetch, h]

theorem fetch_decoded {s : State} {r : Request} {rest : List Request} {i : Instr} {left : List Byte}
    (hp : s.pending = r :: rest) (hd : decode r.code = .ok (i, left)) :
    fetch s = .run i (s.present r left rest) := by
  simp [fetch, hp, hd]

/-- What a step can come to. -/
theorem step_cases {s t : State} (h : step s = .next t) :
    (s.pending = [] ∧ t = s.withOut .idle) ∨
    (∃ r rest, s.pending = r :: rest ∧ decode r.code = .error .noneAvailable ∧
      t = State.withOut { s with pending := rest } .idle) ∨
    (∃ r rest i left, s.pending = r :: rest ∧ decode r.code = .ok (i, left) ∧
      exec i (s.present r left rest) = .next t) := by
  unfold step at h
  cases hp : s.pending with
  | nil =>
    rw [fetch_empty hp] at h
    exact .inl ⟨rfl, (Host.Outcome.next.inj h).symm⟩
  | cons r rest =>
    cases hd : decode r.code with
    | ok v =>
      obtain ⟨i, left⟩ := v
      rw [fetch_decoded hp hd] at h
      exact .inr (.inr ⟨r, rest, i, left, rfl, hd, h⟩)
    | error e =>
      cases e with
      | noneAvailable =>
        simp only [fetch, hp, hd] at h
        exact .inr (.inl ⟨r, rest, rfl, hd, (Host.Outcome.next.inj h).symm⟩)
      | undefinedOp c =>
        simp only [fetch, hp, hd] at h
        cases h

end Sys2Proof.Machine
end

