-- ==== Sys2Proof/Tests/Slice0.lean ====
section
/-! SUPPORT. Tests on fixed values. Expected results are those of `spec/95_test_vectors.md` or written out
from the encodings of `spec/30_encoding.md`; the last part meets the hypotheses of every statement. -/

namespace Sys2Proof.Tests
open Sys2Proof.Machine Sys2Proof.Claims

/-! ## Well-formedness -/

/-- R81: 0xFE is not an ordinary type byte. -/
theorem test_wf_refuses_std_type : (Instr.frameStd 0xFE [] 0).wellFormed = false := by decide
/-- R81: a length byte cannot state 256. -/
theorem test_wf_refuses_long_payload :
    (Instr.frameStd 0x10 (List.replicate 256 0) 0).wellFormed = false := by
  simp only [Instr.wellFormed, payloadFits, List.length_replicate]
  decide
/-- R82: 13 payload bytes, not 12, not 14. -/
theorem test_wf_refuses_hs_length :
    (Instr.frameHsRaw (List.replicate 12 0) 0).wellFormed = false ∧
    (Instr.frameHsRaw (List.replicate 14 0) 0).wellFormed = false := by decide
theorem test_wf_accepts_limits :
    (Instr.frameStd 0xFF (List.replicate 255 0) 0).wellFormed = true ∧
    (Instr.frameHsRaw (List.replicate 13 0) 0).wellFormed = true := by
  simp only [Instr.wellFormed, payloadFits, List.length_replicate]
  decide

/-! ## Decoding: words written out from the spec's encodings -/

/-- `00LWWS` (R101), big-endian. -/
theorem test_decode_dec_be :
    [0b000000, 0b000001, 0b000010, 0b000011, 0b000100, 0b000101, 0b000110, 0b000111].map decodeOp
      = [.ok .decU16Be, .ok .decS16Be, .ok .decU24Be, .ok .decS24Be,
         .ok .decU32Be, .ok .decS32Be, .ok .decU64Be, .ok .decS64Be] := by decide
/-- `00LWWS` (R101), little-endian. -/
theorem test_decode_dec_le :
    [0b001000, 0b001001, 0b001010, 0b001011, 0b001100, 0b001101, 0b001110, 0b001111].map decodeOp
      = [.ok .decU16Le, .ok .decS16Le, .ok .decU24Le, .ok .decS24Le,
         .ok .decU32Le, .ok .decS32Le, .ok .decU64Le, .ok .decS64Le] := by decide
/-- `010LWW` (R101). -/
theorem test_decode_enc :
    [0b010000, 0b010001, 0b010010, 0b010011, 0b010100, 0b010101, 0b010110, 0b010111].map decodeOp
      = [.ok .enc16Be, .ok .enc24Be, .ok .enc32Be, .ok .enc64Be,
         .ok .enc16Le, .ok .enc24Le, .ok .enc32Le, .ok .enc64Le] := by decide
/-- 0x18 to 0x1F (R101). -/
theorem test_decode_float :
    [0b011000, 0b011001, 0b011010, 0b011011, 0b011100, 0b011101, 0b011110, 0b011111].map decodeOp
      = [.ok .decF32, .ok .decF64, .ok .encF32Be, .ok .encF32Le,
         .ok .encF64Be, .ok .encF64Le, .ok .f32ToH16, .ok .h16ToF32] := by decide
/-- `100WWS` (R101). -/
theorem test_decode_round :
    [0b100000, 0b100001, 0b100010, 0b100011, 0b100100, 0b100101, 0b100110, 0b100111].map decodeOp
      = [.ok .roundU8, .ok .roundS8, .ok .roundU16, .ok .roundS16,
         .ok .roundU24, .ok .roundS24, .ok .roundU32, .ok .roundS32] := by decide
/-- 0x28, 0x29, 0x30 to 0x33 (R101), and codes that have no operation. -/
theorem test_decode_rest :
    [0b101000, 0b101001, 0b110000, 0b110001, 0b110010, 0b110011, 0b101010, 0b110100, 0b111111].map decodeOp
      = [.ok .crc16Byte, .ok .crc16Block, .ok .feed, .ok .reset, .ok .dispatch, .ok .encodeFrame,
         .error (.undefinedOp 0x2A), .error (.undefinedOp 0x34), .error (.undefinedOp 0x3F)] := by decide
/-- The tags with a row of their own (R92, R93), and one without. -/
theorem test_decode_tags :
    [0x00, 0xFE, 0xFD, 0xFF, 0x77].map decodeTag
      = [.tagRawGyro, .tagHsRaw, .tagReservedFd, .tagReservedFf, .dispatch] := by decide
/-- The frame of type 0x10 without payload (R81), with a byte after it. -/
theorem test_decode_frame_std :
    decode (.wire [0x55, 0xAA, 0x10, 0x00, 0x52, 0x7D, 0x33]) = .ok (.frameStd 0x10 [] 0x527D, [0x33]) := by
  decide
/-- The high-speed raw frame of section 2.7 (R82): no length byte. -/
theorem test_decode_frame_hs_raw :
    decode (.wire [0x55, 0xAA, 0xFE, 1, 2, 3, 4, 5, 6, 7, 8, 9, 10, 11, 12, 13, 0x63, 0x5C, 0x55])
      = .ok (.frameHsRaw [1, 2, 3, 4, 5, 6, 7, 8, 9, 10, 11, 12, 13] 0x635C, [0x55]) := by decide
/-- A frame cut short is not a frame: its first byte is a FEED (R83). -/
theorem test_decode_frame_cut :
    decode (.wire [0x55, 0xAA, 0x10, 0x00, 0x52]) = .ok (.feed, [0xAA, 0x10, 0x00, 0x52]) := by decide
/-- The words of the opcode table. -/
theorem test_table_words :
    decodeTableWord 24 0x55AA00 = some (.frameStd 0x00 [] 0) ∧
    decodeTableWord 8 0xFD = some .tagReservedFd ∧ decodeTableWord 8 0x00 = some .tagRawGyro ∧
    decodeTableWord 6 0x00 = some .decU16Be ∧ decodeTableWord 8 0x32 = some .dispatch ∧
    decodeTableWord 8 0x2A = none := by decide

/-! ## One step of each instruction -/

/-- The reset state with a record of zeros, so that it can be evaluated. -/
def blank : State := { State.reset with dsr := default }
/-- `blank` with an operand buffer and an offset. -/
def at_ (buf : List Byte) (off : Nat) : State :=
  { blank with port := { Operands.reset with buf := buf, off := off } }
/-- The result of an answer that is a next state. -/
def resultOf : Answer → Option Result
  | .next t => some t.out
  | _ => none
/-- The operand buffer after an answer that is a next state. -/
def bufOf : Answer → Option (List Byte)
  | .next t => some t.port.buf
  | _ => none
/-- The reason of a refusal. -/
def refusalOf : Answer → Option Refusal
  | .refused r => some r
  | _ => none

/-- The buffer of section 2.1 of the vectors. -/
def nine : List Byte := [0x12, 0x34, 0x56, 0x78, 0x9A, 0xBC, 0xDE, 0xF0, 0xFF]
/-- The buffer of section 2.2. -/
def ee : List Byte := List.replicate 8 0xEE

theorem test_dec_unsigned_be :
    resultOf (exec .decU16Be (at_ nine 1)) = some (.u16 0x3456) ∧
    resultOf (exec .decU24Be (at_ nine 0)) = some (.u32 0x00123456) ∧
    resultOf (exec .decU32Be (at_ nine 0)) = some (.u32 0x12345678) ∧
    resultOf (exec .decU64Be (at_ nine 0)) = some (.u64 0x123456789ABCDEF0) := by decide
theorem test_dec_unsigned_le :
    resultOf (exec .decU16Le (at_ nine 0)) = some (.u16 0x3412) ∧
    resultOf (exec .decU24Le (at_ nine 0)) = some (.u32 0x00563412) ∧
    resultOf (exec .decU32Le (at_ nine 0)) = some (.u32 0x78563412) ∧
    resultOf (exec .decU64Le (at_ nine 0)) = some (.u64 0xF0DEBC9A78563412) := by decide
theorem test_dec_signed_be :
    resultOf (exec .decS16Be (at_ nine 4)) = some (.s16 (BitVec.ofInt 16 (-25924))) ∧
    resultOf (exec .decS24Be (at_ nine 4)) = some (.s32 0xFF9ABCDE) ∧
    resultOf (exec .decS32Be (at_ nine 4)) = some (.s32 (BitVec.ofInt 32 (-1698898192))) ∧
    resultOf (exec .decS64Be (at_ nine 1)) = some (.s64 3771334343958393087) := by decide
theorem test_dec_signed_le :
    resultOf (exec .decS16Le (at_ nine 7)) = some (.s16 (BitVec.ofInt 16 (-16))) ∧
    resultOf (exec .decS24Le (at_ nine 6)) = some (.s32 (BitVec.ofInt 32 (-3874))) ∧
    resultOf (exec .decS32Le (at_ [0xFE, 0xFF, 0xFF, 0xFF] 0)) = some (.s32 (BitVec.ofInt 32 (-2))) ∧
    resultOf (exec .decS64Le (at_ [0, 0, 0, 0, 0, 0, 0, 0x80] 0))
      = some (.s64 (BitVec.ofInt 64 (-9223372036854775808))) := by decide
theorem test_dec_past_end :
    resultOf (exec .decU16Be (at_ nine 7)) = some (.u16 0xF0FF) ∧
    refusalOf (exec .decU16Be (at_ nine 8)) = some .bufferEnd ∧
    refusalOf (exec .decU64Be (at_ nine 2)) = some .bufferEnd := by decide

/-- An encode of `v` into the buffer of `EE`s. -/
def enc (i : Instr) (v : Int) (off : Nat) : Answer :=
  exec i { blank with port := { Operands.reset with buf := ee, off := off, val := v } }

theorem test_enc_be :
    bufOf (enc .enc16Be (-2) 3) = some [0xEE, 0xEE, 0xEE, 0xFF, 0xFE, 0xEE, 0xEE, 0xEE] ∧
    bufOf (enc .enc24Be 0xAB123456 0) = some [0x12, 0x34, 0x56, 0xEE, 0xEE, 0xEE, 0xEE, 0xEE] ∧
    bufOf (enc .enc32Be 100000 0) = some [0x00, 0x01, 0x86, 0xA0, 0xEE, 0xEE, 0xEE, 0xEE] ∧
    bufOf (enc .enc64Be 0x123456789ABCDEF0 0) = some [0x12, 0x34, 0x56, 0x78, 0x9A, 0xBC, 0xDE, 0xF0] := by
  decide
theorem test_enc_le :
    bufOf (enc .enc16Le 0x1234 0) = some [0x34, 0x12, 0xEE, 0xEE, 0xEE, 0xEE, 0xEE, 0xEE] ∧
    bufOf (enc .enc24Le 0x123456 5) = some [0xEE, 0xEE, 0xEE, 0xEE, 0xEE, 0x56, 0x34, 0x12] ∧
    bufOf (enc .enc32Le 0x12345678 4) = some [0xEE, 0xEE, 0xEE, 0xEE, 0x78, 0x56, 0x34, 0x12] ∧
    bufOf (enc .enc64Le 0x123456789ABCDEF0 0) = some [0xF0, 0xDE, 0xBC, 0x9A, 0x78, 0x56, 0x34, 0x12] := by
  decide
theorem test_enc_count_and_end :
    resultOf (enc .enc24Be (-1) 0) = some (.count 3) ∧ refusalOf (enc .enc64Be 1 1) = some .bufferEnd := by
  decide

/-- `blank` with a binary32 operand. -/
def with32 (u : BitVec 32) : State := { blank with port := { Operands.reset with buf := ee, f32 := u } }
/-- `blank` with a binary64 operand. -/
def with64 (u : BitVec 64) : State := { blank with port := { Operands.reset with buf := ee, f64 := u } }

theorem test_dec_f32 :
    [0x7F800000, 0x7FC00000, 0x00000000, 0x80000000, 0x807FFFFF, 0x00800000].map
        (fun u => resultOf (exec .decF32 (with32 u)))
      = [some (.f32 0x3F800000 true), some (.f32 0x3F800000 true), some (.f32 0 false),
         some (.f32 0x80000000 false), some (.f32 0x3F800000 true), some (.f32 0x00800000 false)] := by decide
theorem test_dec_f64 :
    [0x7FF0000000000000, 0x000FFFFFFFFFFFFF, 0x0010000000000000, 0x7FEFFFFFFFFFFFFF].map
        (fun u => resultOf (exec .decF64 (with64 u)))
      = [some (.f64 0x3FF0000000000000 true), some (.f64 0x3FF0000000000000 true),
         some (.f64 0x0010000000000000 false), some (.f64 0x7FEFFFFFFFFFFFFF false)] := by decide
theorem test_enc_f32 :
    bufOf (exec .encF32Be (with32 0x40490FDB)) = some [0x40, 0x49, 0x0F, 0xDB, 0xEE, 0xEE, 0xEE, 0xEE] ∧
    bufOf (exec .encF32Le (with32 0x40490FDB)) = some [0xDB, 0x0F, 0x49, 0x40, 0xEE, 0xEE, 0xEE, 0xEE] := by
  decide
theorem test_enc_f64 :
    bufOf (exec .encF64Be (with64 0x400921FB54442D18))
      = some [0x40, 0x09, 0x21, 0xFB, 0x54, 0x44, 0x2D, 0x18] ∧
    bufOf (exec .encF64Le (with64 0x400921FB54442D18))
      = some [0x18, 0x2D, 0x44, 0x54, 0xFB, 0x21, 0x09, 0x40] := by decide
theorem test_f32_to_h16 :
    [0x80000000, 0x40490FDB, 0x30800000, 0x307FFFFF, 0x4FFFFFFF, 0x501502F9, 0x7FC00000].map
        (fun u => resultOf (exec .f32ToH16 (with32 u)))
      = [some (.bits16 0x8000), some (.bits16 0x4124), some (.bits16 0x0200), some (.bits16 0x0000),
         some (.bits16 0x7FFF), some (.bits16 0x7E54), some (.bits16 0x7F00)] := by decide
theorem test_h16_to_f32 :
    [0x01FF, 0xFFFF, 0x0200, 0x4124].map
        (fun h => resultOf (exec .h16ToF32 { blank with port := { Operands.reset with h16 := h } }))
      = [some (.bits32 0x00000000), some (.bits32 0xCFFFC000), some (.bits32 0x30800000),
         some (.bits32 0x40490000)] := by decide

/-- ENC_H16_BE (R106): the narrowed pattern's bytes, and the count. -/
theorem test_pseudo_enc_h16 :
    pseudoEncH16 0x40490FDB ee 6 = some ([0xEE, 0xEE, 0xEE, 0xEE, 0xEE, 0xEE, 0x41, 0x24], 2) := by decide

/-- All eight rounding helpers on a binary64 operand. -/
def roundAll (u : BitVec 64) : List (Option Result) :=
  [exec .roundU8 (with64 u), exec .roundS8 (with64 u), exec .roundU16 (with64 u), exec .roundS16 (with64 u),
    exec .roundU24 (with64 u), exec .roundS24 (with64 u), exec .roundU32 (with64 u),
    exec .roundS32 (with64 u)].map resultOf
/-- The eight results with these values. -/
def eight (a b c d e f g h : Int) : List (Option Result) :=
  [some (.u8 (.ofInt 8 a)), some (.s8 (.ofInt 8 b)), some (.u16 (.ofInt 16 c)), some (.s16 (.ofInt 16 d)),
    some (.u32 (.ofInt 32 e)), some (.s32 (.ofInt 32 f)), some (.u32 (.ofInt 32 g)), some (.s32 (.ofInt 32 h))]

/-- -128.5: ties away from zero, and saturation. -/
theorem test_round_negative_tie :
    roundAll 0xC060100000000000 = eight 0 (-128) 0 (-129) 0 (-129) 0 (-129) := by decide
/-- 8388607.5. -/
theorem test_round_upper_saturation :
    roundAll 0x415FFFFFE0000000 = eight 255 127 65535 32767 8388608 8388607 8388608 8388608 := by decide
/-- The largest number below a half. -/
theorem test_round_below_half : roundAll 0x3FDFFFFFFFFFFFFF = eight 0 0 0 0 0 0 0 0 := by decide
/-- -Infinity. -/
theorem test_round_infinity :
    roundAll 0xFFF0000000000000
      = eight 0 (-128) 0 (-32768) 0 (-8388608) 0 (-2147483648) := by decide
/-- NaN with the default ROUND_NAN. -/
theorem test_round_nan : refusalOf (exec .roundS16 (with64 0x7FF8000000000000)) = some .roundNan := by decide

/-- One CRC16_BYTE with the default table. -/
def crc1 (b : Byte) (acc : BitVec 16) : Option Result :=
  resultOf (exec .crc16Byte { blank with port := { Operands.reset with byte := b, acc := acc } })

theorem test_crc_byte :
    crc1 0x01 0 = some (.u16 0x1189) ∧ crc1 0x10 0 = some (.u16 0x1081) ∧
    crc1 0xAA 0x0528 = some (.u16 0xA71F) ∧ crc1 0x00 0x8000 = some (.u16 0x0080) := by decide
/-- "123456789" (section 2.6). -/
theorem test_crc_block :
    resultOf (exec .crc16Block (at_ [0x31, 0x32, 0x33, 0x34, 0x35, 0x36, 0x37, 0x38, 0x39] 0))
      = some (.u16 0x2189) := by decide
/-- TEST_TABLE_B of section 2.6: the model is parametric in CRC_TABLE. -/
theorem test_crc_table_b :
    crcBlock #v[0x0000, 0xCC01, 0xD801, 0x1400, 0xF001, 0x3C00, 0x2800, 0xE401,
        0xA001, 0x6C00, 0x7800, 0xB401, 0x5000, 0x9C01, 0x8801, 0x4400]
      [0x31, 0x32, 0x33, 0x34, 0x35, 0x36, 0x37, 0x38, 0x39] = 0xBB3D := by decide

/-- The state after feeding bytes to `blank`. -/
def fed (bs : List Byte) : State :=
  match feedAll blank.cfg.crcTable bs blank.framer with
  | .ok (g, _) => blank.withFramer g
  | .error _ => blank
/-- `s` with a byte offered. -/
def offer (b : Byte) (s : State) : State := { s with port := { s.port with byte := b } }
/-- STAGE, IDX and OVERSIZE after an answer that is a next state. -/
def placeOf : Answer → Option (Stage × BitVec 9 × Bool)
  | .next t => some (t.framer.stage, t.framer.idx, t.framer.oversize)
  | _ => none

/-- P1's last byte. -/
theorem test_feed_completes :
    let s := offer 0x52 (fed [0x55, 0xAA, 0x00, 0x07, 0x12, 0x34, 0x56, 0x78, 0x9A, 0xBC, 0x2A, 0x57])
    resultOf (exec .feed s)
        = some (.feed (some { typ := 0, len := 7, data := [0x12, 0x34, 0x56, 0x78, 0x9A, 0xBC, 0x2A] })) ∧
      placeOf (exec .feed s) = some (.sync0, 9, false) := by decide
/-- P9's fourth byte: a length of 19. -/
theorem test_feed_oversize :
    placeOf (exec .feed (offer 0x13 (fed [0x55, 0xAA, 0x07]))) = some (.data, 0, true) ∧
    placeOf (exec .feed (offer 0x12 (fed [0x55, 0xAA, 0x07]))) = some (.data, 0, false) := by decide
/-- P7 (a). -/
theorem test_reset :
    placeOf (exec .reset (fed [0x55, 0xAA, 0x00, 0x07, 0x12, 0x34])) = some (.sync0, 0, false) := by decide
/-- The result of a frame of `n` bytes and one more: nothing before its last byte. -/
def atLast (n : Nat) (p : Option Packet) : Result := .stream (List.replicate n none ++ [p])
/-- P2, and the same frame with the CRC that covers the elided length byte. -/
theorem test_frame_hs_raw :
    let p : List Byte := [1, 2, 3, 4, 5, 6, 7, 8, 9, 10, 11, 12, 13]
    resultOf (exec (.frameHsRaw p 0x635C) blank)
        = some (atLast 17 (some { typ := 0xFE, len := 13, data := p })) ∧
      resultOf (exec (.frameHsRaw p 0x861B) blank) = some (atLast 17 none) := by decide
/-- Section 2.7, and P3: one trailer bit wrong. -/
theorem test_frame_std :
    resultOf (exec (.frameStd 0x21 [0x05] 0x3A37) blank)
        = some (atLast 6 (some { typ := 0x21, len := 1, data := [0x05] })) ∧
      resultOf (exec (.frameStd 0x21 [0x05] 0x3A36) blank) = some (atLast 6 none) := by decide
/-- R27: pkt_valid of a frame row, and the packet beside it. -/
theorem test_frame_pkt_valid :
    let t r := blank.withOut r
    let p : Packet := { typ := 0x21, len := 1, data := [0x05] }
    (t (atLast 6 (some p))).pktValid = true ∧ (t (atLast 6 (some p))).packetOut = some p ∧
      (t (atLast 6 none)).pktValid = false ∧ (t (.feed (some p))).pktValid = true := by decide
/-- P6: a false sync swallows the frame that follows. -/
theorem test_frame_swallowed :
    resultOf (exec (.frameStd 0x10 [] 0x527D) (fed [0x55, 0xAA, 0x03, 0x02])) = some (atLast 5 none) := by
  decide

/-- `blank` with a packet at the demultiplexer and TAG_MAP binding 0x05 to TIMING. -/
def pkt (t : Byte) (data : List Byte) : State :=
  { blank with
    cfg := { blank.cfg with tagMap := [(0x05, .timing)] }
    port := { Operands.reset with pkt := { typ := t, len := BitVec.ofNat 8 data.length, data := data } } }
/-- A record field after an answer that is a next state. -/
def fieldOf {α : Type} (field : Dsr → α) : Answer → Option α
  | .next t => some (field t.dsr)
  | _ => none

/-- The seventh row of section 2.8: time 10, PPS count 3, SequenceNumber 43, clock error -2. -/
theorem test_dispatch_timing :
    let a := exec .dispatch (pkt 0x05 [0x00, 0x01, 0x86, 0xA0, 0x03, 0x2B, 0xFF, 0xFE])
    resultOf a = some (.selected (some .timing)) ∧
      fieldOf Dsr.timeMs a = some (Config.store .time 10) ∧
      fieldOf Dsr.ppsCount a = some (Config.store .ppsCount 3) ∧
      fieldOf Dsr.sequenceNumber a = some (Config.store .sequenceNumber 43) ∧
      fieldOf Dsr.clockError a = some (Config.store .clockError (-2)) := by
  refine ⟨rfl, ?_, ?_, ?_, ?_⟩ <;> refine congrArg (fun q => some (Config.store _ q)) ?_
  · show (((100000 : ℕ) / (10000 : ℕ) : ℚ) : ℝ) = 10
    norm_num
  · show ((3 : ℕ) : ℝ) = 3
    norm_num
  · show ((43 : ℕ) : ℝ) = 43
    norm_num
  · show ((-2 : ℤ) : ℝ) = -2
    norm_num
/-- Rows three and four. -/
theorem test_dispatch_unknown :
    resultOf (exec .dispatch (pkt 0x77 [1, 2, 3])) = some (.selected none) ∧
    resultOf (exec .tagReservedFd (pkt 0xFD [])) = some (.selected none) ∧
    resultOf (exec .tagReservedFf (pkt 0xFF [])) = some (.selected none) := by decide
/-- Rows one, five and six: the extra bytes of the last one are ignored. -/
theorem test_tag_raw_gyro :
    let row := exec .tagRawGyro (pkt 0x00 [0x12, 0x34, 0x56, 0x78, 0x9A, 0xBC, 0x2A])
    fieldOf (·.gyroVolts.x) row = some (Config.store .sensorsVolts (4660 * Config.analogScaleGyro)) ∧
    fieldOf Dsr.sequenceNumber row = some (Config.store .sequenceNumber 42) ∧
    refusalOf (exec .tagRawGyro (pkt 0x00 [0x12, 0x34, 0x56, 0x78, 0x9A, 0xBC])) = some .shortPayload ∧
    fieldOf id (exec .dispatch (pkt 0x00 [0x12, 0x34, 0x56, 0x78, 0x9A, 0xBC, 0x2A, 0xEE, 0xEE]))
      = fieldOf id row := by
  refine ⟨?_, ?_, by decide, rfl⟩
  · refine congrArg (fun q : ℝ => some (Config.store .sensorsVolts (q * Config.analogScaleGyro))) ?_
    show ((4660 : ℕ) : ℝ) = 4660
    norm_num
  · refine congrArg (fun q => some (Config.store _ q)) ?_
    show ((42 : ℕ) : ℝ) = 42
    norm_num
/-- R269: 13 payload bytes select HS_RAW. -/
theorem test_tag_hs_raw :
    resultOf (exec .tagHsRaw (pkt 0xFE [1, 2, 3, 4, 5, 6, 7, 8, 9, 10, 11, 12, 13]))
      = some (.selected (some .hsRaw)) := by decide
/-- The packet of P8. -/
theorem test_encode_frame :
    resultOf (exec .encodeFrame { at_ [0x00, 0x01, 0x86, 0xA0, 0x03, 0x2B, 0xFF, 0xFE] 0 with
        port := { Operands.reset with
          buf := [0x00, 0x01, 0x86, 0xA0, 0x03, 0x2B, 0xFF, 0xFE], tag := 0x05 } })
      = some (.block [0x55, 0xAA, 0x05, 0x08, 0x00, 0x01, 0x86, 0xA0, 0x03, 0x2B, 0xFF, 0xFE, 0xC0, 0xDB]) := by
  decide
/-- R294, R298: the requests without and with their one byte, and the packet of P8 composed. -/
theorem test_builders :
    configRequest Config.paramsDefault 0x10 none = .ok [0x55, 0xAA, 0x10, 0x00, 0x52, 0x7D] ∧
    calibrationRequest Config.paramsDefault 0x21 (some 0x05)
      = .ok [0x55, 0xAA, 0x21, 0x01, 0x05, 0x3A, 0x37] ∧
    buildMessage Config.paramsDefault 0x05 [.int .be 4 100000, .byte 3, .byte 0x2B, .int .be 2 (-2)]
      = .ok [0x55, 0xAA, 0x05, 0x08, 0x00, 0x01, 0x86, 0xA0, 0x03, 0x2B, 0xFF, 0xFE, 0xC0, 0xDB] :=
  ⟨(buildMessage_ok (bs := []) rfl (by decide)).trans (by decide),
    (buildMessage_ok (bs := [0x05]) rfl (by decide)).trans (by decide),
    (buildMessage_ok (bs := [0x00, 0x01, 0x86, 0xA0, 0x03, 0x2B, 0xFF, 0xFE]) rfl (by decide)).trans
      (by decide)⟩
/-- R298: an out-of-range float input of an integer field saturates. -/
theorem test_compose_saturates :
    compose .refuse [.rounded .be .u8 (.finite false 1000 1), .rounded .be .s16 (.infinite true)]
      = .ok [0xFF, 0x80, 0x00] :=
  compose_ok rfl (by decide)
/-- A FEED's word placed where the next step fetches it, and a frame's. -/
theorem test_with_fetch_word :
    resultOf (step (blank.withFetchWord 8 0x30)) = some (.feed none) ∧
    resultOf (step (blank.withFetchWord 24 0x55AA00)) = some (atLast 5 none) := by decide

/-! ## The hypotheses of the statements can be met

One theorem for each statement of `Certificates/Slice0/Obligations.lean` that has hypotheses, at the boundaries of
its clauses. -/

/-- A frame in progress, with a byte on the wire. -/
def midFrame : State := { fed [0x55, 0xAA, 0x10, 0x01, 0x77] with pending := [.wire [0x12]] }

theorem witness_StepKeepsFramingInvariant : ∃ t, midFrame.Inv ∧ step midFrame = .next t := ⟨_, by decide, rfl⟩

theorem witness_StepRunsDecoded :
    ({ blank with pending := [.op 0x33 zeroOperands] } : State).pending = [.op 0x33 zeroOperands] ∧
    decode (Request.op 0x33 zeroOperands).code = .ok (.encodeFrame, []) ∧
    decode (Request.tag 0xFD []).code = .ok (.tagReservedFd, []) ∧
    decode (Request.wire [0x12, 0x34]).code = .ok (.feed, [0x34]) := by decide

theorem witness_NoneAvailableIsIdle :
    blank.pending = [] ∧ ({ blank with pending := [.wire []] } : State).pending = [.wire []] := by decide

/-- Both sides of the equivalence, at the ends of the two ranges. -/
theorem witness_UndefinedCodesRefused :
    ({ blank with pending := [.op 0x2A zeroOperands] } : State).pending = [.op 0x2A zeroOperands] ∧
    [0x29, 0x2A, 0x2F, 0x30, 0x33, 0x34, 0x3F].map (fun c => refusalOf (step
        { blank with pending := [.op c { zeroOperands with buf := [] }] }))
      = [none, some (.undefinedOp 0x2A), some (.undefinedOp 0x2F), none, none, some (.undefinedOp 0x34),
         some (.undefinedOp 0x3F)] := by decide

theorem witness_DecodeEncodeAgree :
    (Instr.frameStd 0xFF [0x55] 0xFFFF).wellFormed = true ∧
    encode (.frameStd 0xFF [0x55] 0xFFFF) = .wire [0x55, 0xAA, 0xFF, 0x01, 0x55, 0xFF, 0xFF] ∧
    Instr.roundS32.wellFormed = true := by decide

theorem witness_WireBytesAccounted :
    decode (.wire [0x12]) = .ok (.feed, []) ∧
    decode (.wire [0x55, 0xAA, 0x00, 0x00, 0xC7, 0xEC, 0x55]) = .ok (.frameStd 0x00 [] 0xC7EC, [0x55]) := by
  decide

/-- A field that ends with its buffer, and one a byte past it, for each width of an integer field. -/
def FieldEnds (n : Nat) : Prop :=
  (∃ s : State, s.port.off + n ≤ s.port.buf.length ∧ s.port.buf.length = s.port.off + n) ∧
  ∃ s : State, s.port.buf.length < s.port.off + n ∧ s.port.buf.length + 1 = s.port.off + n

theorem fieldEnds (n : Nat) (h : 1 ≤ n ∧ n ≤ 9) : FieldEnds n :=
  ⟨⟨at_ nine (9 - n), by show 9 - n + n ≤ 9; omega, by show 9 = 9 - n + n; omega⟩,
    ⟨at_ nine (10 - n), by show 9 < 10 - n + n; omega, by show 9 + 1 = 10 - n + n; omega⟩⟩

theorem witness_UnsignedDecodeBigEndian : FieldEnds 2 ∧ FieldEnds 3 ∧ FieldEnds 4 ∧ FieldEnds 8 :=
  ⟨fieldEnds 2 (by decide), fieldEnds 3 (by decide), fieldEnds 4 (by decide), fieldEnds 8 (by decide)⟩
theorem witness_SignedDecodeBigEndian : FieldEnds 2 ∧ FieldEnds 3 ∧ FieldEnds 4 ∧ FieldEnds 8 :=
  witness_UnsignedDecodeBigEndian
theorem witness_UnsignedDecodeLittleEndian : FieldEnds 2 ∧ FieldEnds 3 ∧ FieldEnds 4 ∧ FieldEnds 8 :=
  witness_UnsignedDecodeBigEndian
theorem witness_SignedDecodeLittleEndian : FieldEnds 2 ∧ FieldEnds 3 ∧ FieldEnds 4 ∧ FieldEnds 8 :=
  witness_UnsignedDecodeBigEndian
theorem witness_EncodeBigEndian : FieldEnds 2 ∧ FieldEnds 3 ∧ FieldEnds 4 ∧ FieldEnds 8 :=
  witness_UnsignedDecodeBigEndian
theorem witness_EncodeLittleEndian : FieldEnds 2 ∧ FieldEnds 3 ∧ FieldEnds 4 ∧ FieldEnds 8 :=
  witness_UnsignedDecodeBigEndian
theorem witness_EncodeFloatPatterns : FieldEnds 4 ∧ FieldEnds 8 :=
  ⟨fieldEnds 4 (by decide), fieldEnds 8 (by decide)⟩

/-- An operand buffer of eight bytes of 0 with the operand 0: every encoder and decoder runs. -/
def zeros : State := at_ (List.replicate 8 0) 0

theorem witness_FieldRoundTrips :
    (∀ i ∈ [Instr.enc16Be, .enc24Be, .enc32Be, .enc64Be, .enc16Le, .enc24Le, .enc32Le, .enc64Le],
      (resultOf (exec i zeros)).isSome = true) ∧
    ([Instr.decU16Be, .decU24Be, .decU32Be, .decU64Be, .decU16Le, .decU24Le, .decU32Le, .decU64Le].map
        fun i => resultOf (exec i zeros))
      = [some (.u16 0), some (.u32 0), some (.u32 0), some (.u64 0),
         some (.u16 0), some (.u32 0), some (.u32 0), some (.u64 0)] ∧
    zeros.port.val = 0 := by decide

/-- Both sides of the two boundaries of each format. -/
theorem witness_FloatDecode :
    (Invalid32 (with32 0x7F800000).port.f32 ∧ Invalid32 (with32 0x007FFFFF).port.f32) ∧
    (¬ Invalid32 (with32 0x7F7FFFFF).port.f32 ∧ ¬ Invalid32 (with32 0x00800000).port.f32 ∧
      ¬ Invalid32 (with32 0x80000000).port.f32) ∧
    (Invalid64 (with64 0x7FF0000000000000).port.f64 ∧ Invalid64 (with64 0x000FFFFFFFFFFFFF).port.f64) ∧
    ¬ Invalid64 (with64 0x7FEFFFFFFFFFFFFF).port.f64 ∧ ¬ Invalid64 (with64 0x0010000000000000).port.f64 := by
  unfold Invalid32 Invalid64
  decide
theorem witness_FloatDecodeAfterEncode :
    (∃ t, exec .encF32Be (with32 0x7FC00000) = .next t ∧ Invalid32 (with32 0x7FC00000).port.f32) ∧
    ∃ t, exec .encF32Be (with32 0x40490FDB) = .next t ∧ ¬ Invalid32 (with32 0x40490FDB).port.f32 :=
  ⟨⟨_, rfl, by unfold Invalid32; decide⟩, ⟨_, rfl, by unfold Invalid32; decide⟩⟩

/-- H16 patterns on both sides of the exponent field 0, and binary32 patterns at the ends of the range. -/
theorem witness_H16RoundTrips :
    (0x0200 : BitVec 16).toNat / 2 ^ 9 % 2 ^ 6 ≠ 0 ∧ (0x81FF : BitVec 16).toNat / 2 ^ 9 % 2 ^ 6 = 0 ∧
    exp32 0x30800000 = 97 ∧ exp32 0x4FFFFFFF = 159 ∧ exp32 0x50000000 = 160 := by decide

/-- A state with a rounding operand in each format. -/
def rounding (fmt : RoundFormat) (nan : RoundNan) (u : BitVec 32) (v : BitVec 64) : State :=
  { blank with
    cfg := { blank.cfg with roundInFmt := fmt, roundNan := nan }
    port := { Operands.reset with f32 := u, f64 := v } }

theorem witness_RoundingHelpers :
    (¬ OperandNan (rounding .binary32 .refuse 0xBF800000 0) ∧
      ¬ OperandInfinite (rounding .binary32 .refuse 0xBF800000 0)) ∧
    (¬ OperandNan (rounding .binary64 .refuse 0 0x7FEFFFFFFFFFFFFF) ∧
      ¬ OperandInfinite (rounding .binary64 .refuse 0 0x7FEFFFFFFFFFFFFF)) ∧
    OperandInfinite (rounding .binary32 .refuse 0xFF800000 0) ∧
    OperandInfinite (rounding .binary64 .refuse 0 0x7FF0000000000000) ∧
    OperandNan (rounding .binary64 .refuse 0 0x7FF0000000000001) ∧
    (rounding .binary64 .refuse 0 0x7FF0000000000001).cfg.roundNan = .refuse := by
  simp only [OperandNan, OperandInfinite, rounding]
  decide

theorem witness_RoundingNanValue :
    OperandNan (rounding .binary32 .anyValue 0x7F800001 0) ∧
    (rounding .binary32 .anyValue 0x7F800001 0).cfg.roundNan = .anyValue ∧
    OperandNan (rounding .binary64 .anyValue 0 0x7FF8000000000000) := by
  simp only [OperandNan, rounding]
  decide

theorem witness_CrcBlockFolds : (at_ [] 0).port.buf = [] ∧ (at_ nine 0).port.buf = nine.take 8 ++ [0xFF] := by decide
/-- CRC_TABLE_DEFAULT is linear. -/
theorem witness_CrcLinearTables :
    ∀ i j : BitVec 4, Config.crcTableDefault[(i ^^^ j).toFin]
      = Config.crcTableDefault[i.toFin] ^^^ Config.crcTableDefault[j.toFin] := by decide
theorem witness_CrcDetectsOneByte : (0x52 : Byte) ≠ 0x53 := by decide

theorem witness_FeedInHeaderStages :
    ((offer 0x55 blank).framer.stage = .sync0 ∧ (offer 0x55 blank).port.byte = 0x55) ∧
    ((offer 0xAA blank).framer.stage = .sync0 ∧ (offer 0xAA blank).port.byte ≠ 0x55) ∧
    ((offer 0xAA (fed [0x55])).framer.stage = .sync1 ∧ (offer 0xAA (fed [0x55])).port.byte = 0xAA) ∧
    ((offer 0x55 (fed [0x55])).framer.stage = .sync1 ∧ (offer 0x55 (fed [0x55])).port.byte ≠ 0xAA) ∧
    (fed [0x55, 0xAA]).framer.stage = .type := by decide
theorem witness_FeedLengthByte :
    (fed [0x55, 0xAA, 0xFD]).framer.stage = .len ∧ Memory.byte (fed [0x55, 0xAA, 0xFD]).framer.buf 2 ≠ 0xFE := by
  decide
theorem witness_FeedElidedLength :
    (fed [0x55, 0xAA, 0xFE]).framer.stage = .len ∧
    Memory.byte (fed [0x55, 0xAA, 0xFE]).framer.buf 2 = 0xFE ∧ (fed [0x55, 0xAA, 0xFE]).framer.idx = 0 := by decide
/-- The first trailer byte, the last one, and the last byte of the longest frame. -/
theorem witness_FeedInData :
    let f (n : BitVec 9) (l : Byte) : Framer := { stage := .data, idx := n, buf := [(3, l)], oversize := false }
    ((f 1 1).idx.toNat ≤ 256 ∧ (f 1 1).idx.toNat + 1 ≠ (Memory.byte (f 1 1).buf 3).toNat + 2) ∧
    ((f 2 1).idx.toNat ≤ 256 ∧ (f 2 1).idx.toNat + 1 = (Memory.byte (f 2 1).buf 3).toNat + 2) ∧
    (f 256 255).idx.toNat ≤ 256 ∧
      (f 256 255).idx.toNat + 1 = (Memory.byte (f 256 255).buf 3).toNat + 2 := by decide
/-- A frame one byte short of complete. -/
theorem witness_FeedAlwaysCompletes :
    (fed [0x55, 0xAA, 0x10, 0x00, 0x52]).Inv ∧ (fed [0x55, 0xAA, 0x10, 0x00, 0x52]).framer.stage = .data ∧
    placeOf (exec .feed (fed [0x55, 0xAA, 0x10, 0x00, 0x52])) = some (.sync0, 2, false) := by decide
theorem witness_OrdinaryFrameOutcome :
    blank.framer.stage = .sync0 ∧ (Instr.frameStd 0x10 [] 0x527D).wellFormed = true ∧
    crcBlock blank.cfg.crcTable [0x55, 0xAA, 0x10, 0x00] = 0x527D := by decide
theorem witness_HighSpeedFrameOutcome :
    blank.framer.stage = .sync0 ∧
    (Instr.frameHsRaw [1, 2, 3, 4, 5, 6, 7, 8, 9, 10, 11, 12, 13] 0x635C).wellFormed = true := by decide
theorem witness_FramesFeedInAnyStage :
    midFrame.Inv ∧ midFrame.framer.stage = .data ∧
    encode (.frameStd 0x10 [] 0x527D) = .wire [0x55, 0xAA, 0x10, 0x00, 0x52, 0x7D] := by decide
theorem witness_LoopBack :
    (0x10 : Byte) ≠ 0xFE ∧ ([] : List Byte).length ≤ 255 ∧
    encodeFrameBytes Config.crcTableDefault 0x10 [] = .ok [0x55, 0xAA, 0x10, 0x00, 0x52, 0x7D] ∧
    Framer.reset.stage = .sync0 := by decide
theorem witness_ResyncAfterNoise :
    Framer.reset.stage = .sync0 ∧ ∀ b ∈ ([0x00, 0x13, 0xAA] : List Byte), b ≠ 0x55 := by decide
/-- The reset state and the state after a dropped frame (P3). -/
theorem witness_ResetEquivalence :
    let g := (fed [0x55, 0xAA, 0x10, 0x00, 0x52, 0x7C]).framer
    Framer.reset.stage = .sync0 ∧ g.stage = .sync0 ∧ Framer.reset.oversize = g.oversize ∧
      Framer.reset.idx ≠ g.idx := by decide
theorem witness_WireRunFeedsEveryByte :
    midFrame.Inv ∧ midFrame.pending = [.wire [0x12]] := by decide

theorem witness_DispatchRawGyro : 7 ≤ (pkt 0x00 (nine.take 7)).port.pkt.data.length ∧
    (pkt 0x00 (nine.take 7)).port.pkt.typ = 0x00 := by decide
/-- `pkt` with TAG_MAP binding 0x05, 0xFD and 0xFF to one routine. -/
def bound (r : Routine) (t : Byte) (data : List Byte) : State :=
  { pkt t data with cfg := { blank.cfg with tagMap := [(0x05, r), (0xFD, r), (0xFF, r)] } }
theorem witness_DispatchRawAccel :
    tagRoutine (bound .rawAccel 0x05 (nine.take 7)).cfg (bound .rawAccel 0x05 (nine.take 7)).port.pkt.typ = some .rawAccel ∧
    7 ≤ (bound .rawAccel 0x05 (nine.take 7)).port.pkt.data.length := by decide
theorem witness_DispatchTiming :
    tagRoutine (bound .timing 0x05 (nine.take 8)).cfg (bound .timing 0x05 (nine.take 8)).port.pkt.typ = some .timing ∧
    8 ≤ (bound .timing 0x05 (nine.take 8)).port.pkt.data.length := by decide
theorem witness_UnknownTagIgnored :
    (pkt 0x77 []).port.pkt.typ ≠ 0x00 ∧ (pkt 0x77 []).port.pkt.typ ≠ 0xFE ∧
    ∀ e ∈ (pkt 0x77 []).cfg.tagMap, e.1 ≠ (pkt 0x77 []).port.pkt.typ := by decide
/-- A tag bound behind another entry. -/
theorem witness_SelectIsOneHot :
    let s := { pkt 0x05 (nine.take 8) with
      cfg := { blank.cfg with tagMap := [(0x06, .rawAccel), (0x05, .timing), (0x05, .settings)] } }
    (∃ t, exec .dispatch s = .next t) ∧
    s.cfg.tagMap = [(0x06, .rawAccel)] ++ (s.port.pkt.typ, .timing) :: [(0x05, .settings)] ∧
    (∀ e ∈ [((0x06 : Byte), Routine.rawAccel)], e.1 ≠ s.port.pkt.typ) ∧ s.port.pkt.typ ≠ 0x00 ∧
    s.port.pkt.typ ≠ 0xFE ∧ layoutLen .timing ≤ s.port.pkt.data.length :=
  ⟨⟨_, rfl⟩, rfl, by decide, by decide, by decide, by decide⟩
theorem witness_BoundTagRunsItsRoutine :
    let s := bound .timing 0x05 (nine.take 8)
    layoutLen .timing ≤ s.port.pkt.data.length ∧ tagRoutine s.cfg s.port.pkt.typ = some .timing ∧
      tagRoutine s.cfg 0xFD = some .timing ∧ tagRoutine s.cfg 0xFF = some .timing ∧
      (∀ e ∈ (pkt 0xFD []).cfg.tagMap, e.1 ≠ 0xFD) ∧ ∀ e ∈ (pkt 0xFF []).cfg.tagMap, e.1 ≠ 0xFF := by decide
theorem witness_DispatchHsRaw :
    13 ≤ (pkt 0xFE (List.replicate 13 7)).port.pkt.data.length ∧
    (pkt 0xFE (List.replicate 13 7)).port.pkt.typ = 0xFE := by decide

/-- A packet as long as the open layout of `r` needs. -/
def asLong (r : Routine) : State := bound r 0x05 (List.replicate (layoutLen r) 0)
theorem asLong_runs (r : Routine) :
    ∃ t, exec .dispatch (asLong r) = .next t ∧ t.out = .selected (some r) := by
  have h : tagRoutine (asLong r).cfg (asLong r).port.pkt.typ = some r := rfl
  exact ⟨_, by rw [exec, execDispatch, h, selectAndRun_some (by simp [asLong, bound, pkt])], rfl⟩

theorem witness_RangesFeedConversion :
    (∃ t, tagRoutine (asLong .resolution).cfg (asLong .resolution).port.pkt.typ = some .resolution ∧
      exec .dispatch (asLong .resolution) = .next t) ∧
    ∃ t, tagRoutine (asLong .hsConverted).cfg (asLong .hsConverted).port.pkt.typ = some .hsConverted ∧
      exec .dispatch (asLong .hsConverted) = .next t :=
  ⟨(asLong_runs _).imp fun _ h => ⟨rfl, h.1⟩, (asLong_runs _).imp fun _ h => ⟨rfl, h.1⟩⟩
theorem witness_ShortPayloadRefused :
    (pkt 0x00 (nine.take 6)).port.pkt.data.length < 7 ∧
    tagRoutine (pkt 0x00 (nine.take 6)).cfg (pkt 0x00 (nine.take 6)).port.pkt.typ = some .rawGyro ∧
    tagRoutine (pkt 0x05 (nine.take 7)).cfg (pkt 0x05 (nine.take 7)).port.pkt.typ = some .timing ∧
    (pkt 0x05 (nine.take 7)).port.pkt.data.length < 8 := by decide
theorem witness_CalibrationValueIsValid :
    tagRoutine (asLong .calibration).cfg (asLong .calibration).port.pkt.typ = some .calibration ∧
    layoutLen .calibration ≤ (asLong .calibration).port.pkt.data.length :=
  ⟨rfl, by simp [asLong, bound, pkt]⟩
theorem witness_EncodeFrame :
    (∃ s : State, s.port.buf.length ≤ 255 ∧ s.port.buf.length = 255) ∧
    ∃ s : State, 255 < s.port.buf.length ∧ s.port.buf.length = 256 :=
  ⟨⟨at_ (List.replicate 255 0) 0, by simp only [at_, List.length_replicate]; decide,
      by simp only [at_, List.length_replicate]⟩,
    ⟨at_ (List.replicate 256 0) 0, by simp only [at_, List.length_replicate]; decide,
      by simp only [at_, List.length_replicate]⟩⟩

/-- Settings of zero fit every field, and a period of 1 does. -/
theorem witness_SettingsRoundTrip :
    (∀ f, FitsField f 0) ∧ FitsField .rate 1 ∧ (1 : ℤ) ≠ 0 ∧ (1000000 : ℚ) = 1000000 / (1 : ℤ) ∧
    tagRoutine (asLong .settings).cfg (asLong .settings).port.pkt.typ = some .settings := by
  have h : ∀ r : IntRange, (r.lo ≤ 0 ∧ 0 ≤ r.hi) ∧ r.lo ≤ 1 ∧ 1 ≤ r.hi := by
    intro r
    cases r <;> decide
  exact ⟨fun f => (h _).1, (h _).2, by decide, by norm_num, rfl⟩

theorem witness_FramerChangedOnlyByFraming : ¬ IsFraming .dispatch ∧ ∃ t, exec .dispatch (pkt 0x77 []) = .next t :=
  ⟨id, _, rfl⟩
/-- An instruction that does not dispatch, every routine selected, and none. -/
theorem witness_RecordChangedOnlyByDispatch :
    (¬ IsDispatching .feed ∧ ∃ t, exec .feed blank = .next t) ∧ IsDispatching .dispatch ∧
    (∀ r, ∃ t, exec .dispatch (asLong r) = .next t ∧ t.out = .selected (some r)) ∧
    ∃ t, exec .dispatch (pkt 0x77 []) = .next t ∧ t.out = .selected none :=
  ⟨⟨id, _, rfl⟩, trivial, asLong_runs, _, rfl, rfl⟩
theorem witness_ParametersNeverChange :
    (∃ t, exec .feed blank = .next t) ∧ ∃ t, step midFrame = .next t ∧ Reaches midFrame t :=
  ⟨⟨_, rfl⟩, _, rfl, .step rfl (.here _)⟩
theorem witness_OperandsChangedOnlyByEncoders :
    (¬ IsEncoding .feed ∧ ∃ t, exec .feed blank = .next t) ∧ IsEncoding .enc16Be ∧ ∃ t, exec .enc16Be zeros = .next t :=
  ⟨⟨id, _, rfl⟩, trivial, _, rfl⟩
/-- A set flag that stays, the length byte that sets it, and a frame that does. -/
theorem witness_OversizeIsSticky :
    (∃ t, exec .feed { blank with framer := { Framer.reset with oversize := true } } = .next t) ∧
    (∃ t, exec .feed (offer 0x13 (fed [0x55, 0xAA, 0x07])) = .next t ∧
      (offer 0x13 (fed [0x55, 0xAA, 0x07])).framer.oversize = false ∧ t.framer.oversize = true) ∧
    ∃ t, exec (.frameStd 0x10 (List.replicate 19 0) 0) blank = .next t ∧
      blank.framer.oversize = false ∧ t.framer.oversize = true :=
  ⟨⟨_, rfl⟩, ⟨_, rfl, rfl, rfl⟩, _, rfl, rfl, rfl⟩
theorem witness_EmittedPacketsMatchLength :
    ∃ t p, exec .feed (offer 0x7D (fed [0x55, 0xAA, 0x10, 0x00, 0x52])) = .next t ∧ p ∈ t.emitted :=
  ⟨_, { typ := 0x10, len := 0, data := [] }, rfl, by decide⟩

end Sys2Proof.Tests
end

section
/-! # Rules of the whole machine (`10_state.md`): what an instruction and a step keep

Every statement about all instructions is read off one inversion, `exec_effect`: an instruction that
answers a next state did one of six things. The framer's statements then need only what one FEED keeps
(`feedByte_cases`) and an induction over the bytes fed. -/

namespace Sys2Proof.Machine
open Sys2Proof.Claims

/-! ## Everything an instruction can do -/

/-- An instruction that may change neither the Framer State, nor the record, nor the operand buffer. -/
structure IsPure (i : Instr) : Prop where
  notFraming : ¬ IsFraming i
  notDispatching : ¬ IsDispatching i
  notEncoding : ¬ IsEncoding i

/-- What instruction `i` did that took `s` to `t`: the shapes the meanings under `exec` have in common. -/
inductive Effect (i : Instr) (s t : State) : Prop where
  /-- Only a result, which is not one of a FEED. -/
  | result (r : Result) (hi : IsPure i) (hr : (s.withOut r).feedResults = []) (ht : t = s.withOut r)
  /-- An encoder wrote the operand buffer (R120, R141). -/
  | encoded (b : List Byte) (n : Nat) (hi : IsEncoding i) (hb : b.length = s.port.buf.length)
      (ht : t = (s.withBuf b).withOut (.count n))
  /-- The demultiplexer ran the routine selected, if any (R261). -/
  | dispatched (r : Option Routine) (hi : IsDispatching i) (h : selectAndRun r s = .next t)
  /-- One FEED of the operand byte (R220). -/
  | fed (g : Framer) (p : Option Packet) (hi : i = .feed)
      (h : feedByte s.cfg.crcTable s.port.byte s.framer = .ok (g, p))
      (ht : t = (s.withFramer g).withOut (.feed p))
  /-- FEED of every wire byte of a frame row (R105). -/
  | streamed (bs : List Byte) (g : Framer) (ps : List (Option Packet)) (hi : IsFraming i)
      (hc : encode i = .wire bs) (h : feedAll s.cfg.crcTable bs s.framer = .ok (g, ps))
      (ht : t = (s.withFramer g).withOut (.stream ps))
  /-- RESET (R231). -/
  | wasReset (hi : i = .reset) (ht : t = (s.withFramer (resetFramer s.framer)).withOut .done)

section Effects
variable {i : Instr} {s t : State}

theorem Effect.of_decodeField {o : ByteOrder} {n : Nat} {mk : Nat → Result} (hi : IsPure i)
    (hr : ∀ u, (s.withOut (mk u)).feedResults = []) (h : decodeField o n mk s = .next t) : Effect i s t :=
  .result _ hi (hr _) (decodeField_inv h).2

theorem Effect.of_roundTo {r : IntRange} {mk : Int → Result} (hi : IsPure i)
    (hr : ∀ v, (s.withOut (mk v)).feedResults = []) (h : roundTo r mk s = .next t) : Effect i s t := by
  obtain ⟨v, -, -, ht⟩ := roundTo_inv h
  exact .result _ hi (hr v) ht

theorem Effect.of_encodeField {o : ByteOrder} {n p : Nat} (hi : IsEncoding i)
    (h : encodeField o n p s = .next t) : Effect i s t := by
  obtain ⟨b, hb, ht⟩ := encodeField_inv h
  obtain ⟨-, hlen, -⟩ := memWrite_spec hb
  exact .encoded b n hi hlen ht

theorem Effect.of_withOut {r : Result} (hi : IsPure i) (hr : (s.withOut r).feedResults = [])
    (h : Host.Outcome.next (s.withOut r) = (.next t : Answer)) : Effect i s t :=
  .result r hi hr (Host.Outcome.next.inj h).symm

theorem Effect.of_feedFrame {bs : List Byte} (hi : IsFraming i) (hc : encode i = .wire bs)
    (h : feedFrame bs s = .next t) : Effect i s t := by
  obtain ⟨g, ps, hf, ht⟩ := feedFrame_next h
  exact .streamed bs g ps hi hc hf ht

/-- DISPATCH and the tag rows run the demultiplexer on some selection. -/
theorem exec_dispatching (h : exec i s = .next t) (hi : IsDispatching i) :
    ∃ r, selectAndRun r s = .next t := by
  cases i with
  | tagRawGyro => exact ⟨tagRoutine s.cfg Config.tagRawGyro, h⟩
  | tagHsRaw => exact ⟨tagRoutine s.cfg Config.tagHsRaw, h⟩
  | tagReservedFd | tagReservedFf | dispatch => exact ⟨_, h⟩
  | _ => exact hi.elim

/-- Everything an instruction that answers a next state can do. -/
theorem exec_effect (h : exec i s = .next t) : Effect i s t := by
  cases i with
  | frameHsRaw | frameStd => exact .of_feedFrame trivial rfl h
  | tagRawGyro | tagHsRaw | tagReservedFd | tagReservedFf | dispatch =>
    obtain ⟨r, hr⟩ := exec_dispatching h trivial
    exact .dispatched r trivial hr
  | decU16Be | decS16Be | decU24Be | decS24Be | decU32Be | decS32Be | decU64Be | decS64Be
  | decU16Le | decS16Le | decU24Le | decS24Le | decU32Le | decS32Le | decU64Le | decS64Le =>
    exact .of_decodeField ⟨id, id, id⟩ (fun _ => rfl) h
  | enc16Be | enc24Be | enc32Be | enc64Be | enc16Le | enc24Le | enc32Le | enc64Le
  | encF32Be | encF32Le | encF64Be | encF64Le => exact .of_encodeField trivial h
  | decF32 | decF64 | f32ToH16 | h16ToF32 | crc16Byte | crc16Block =>
    exact .of_withOut ⟨id, id, id⟩ rfl h
  | roundU8 | roundS8 | roundU16 | roundS16 | roundU24 | roundS24 | roundU32 | roundS32 =>
    exact .of_roundTo ⟨id, id, id⟩ (fun _ => rfl) h
  | encodeFrame =>
    obtain ⟨bs, -, ht⟩ := execEncodeFrame_next h
    exact .result _ ⟨id, id, id⟩ rfl ht
  | feed =>
    obtain ⟨g, p, hf, ht⟩ := execFeed_next h
    exact .fed g p rfl hf ht
  | reset => exact .wasReset rfl (Host.Outcome.next.inj h).symm

end Effects

/-! ## What one instruction leaves as it was -/

section Frames
variable {i : Instr} {s t : State}

/-- A dispatch leaves everything but the record and the result. -/
theorem selectAndRun_frame {r : Option Routine} (h : selectAndRun r s = .next t) :
    t.framer = s.framer ∧ t.cfg = s.cfg ∧ t.feedResults = [] := by
  obtain ⟨-, rfl⟩ | ⟨q, -, -, rfl⟩ := selectAndRun_inv h
  · exact ⟨rfl, rfl, rfl⟩
  · exact ⟨rfl, rfl, rfl⟩

/-- Settles O55: of the six effects, those that touch the Framer State are framing instructions'. -/
theorem framerChangedOnlyByFraming : Obligations.FramerChangedOnlyByFraming := by
  intro i s t hi h
  cases exec_effect h with
  | result r _ _ ht => simp [ht]
  | encoded b n _ _ ht => simp [ht]
  | dispatched r _ hr => exact (selectAndRun_frame hr).1
  | fed g p hf => exact absurd (hf ▸ trivial) hi
  | streamed bs g ps hf => exact absurd hf hi
  | wasReset hf => exact absurd (hf ▸ trivial) hi

/-- No instruction changes a build-time parameter (R29). -/
theorem exec_cfg (h : exec i s = .next t) : t.cfg = s.cfg := by
  cases exec_effect h with
  | result r _ _ ht => simp [ht]
  | encoded b n _ _ ht => simp [ht]
  | dispatched r _ hr => exact (selectAndRun_frame hr).2.1
  | fed g p _ _ ht => simp [ht]
  | streamed bs g ps _ _ _ ht => simp [ht]
  | wasReset _ ht => simp [ht]

theorem step_cfg (h : step s = .next t) : t.cfg = s.cfg := by
  obtain ⟨-, rfl⟩ | ⟨r, rest, -, -, rfl⟩ | ⟨r, rest, i, left, -, -, he⟩ := step_cases h
  · rfl
  · rfl
  · simpa using exec_cfg he

theorem reaches_cfg (h : Reaches s t) : t.cfg = s.cfg := by
  induction h with
  | here => rfl
  | step h _ ih => exact ih.trans (step_cfg h)

/-- Settles O57: instruction by instruction, then by induction on the run. -/
theorem parametersNeverChange : Obligations.ParametersNeverChange :=
  ⟨fun _ _ _ => exec_cfg, fun _ _ => reaches_cfg⟩

/-- A routine writes only the record fields that its rule names (R264 to R270, R273). -/
theorem routineOn_frame (r : Routine) (data : List Byte) (d : Dsr) :
    RoutineFrame r d (routineOn r data d) := by
  cases r <;> rfl

/-- No instruction but DISPATCH and the tag rows changes the record (R33). -/
theorem exec_dsr (hi : ¬ IsDispatching i) (h : exec i s = .next t) : t.dsr = s.dsr := by
  cases exec_effect h with
  | result r _ _ ht => simp [ht]
  | encoded b n _ _ ht => simp [ht]
  | dispatched r hd => exact absurd hd hi
  | fed g p _ _ ht => simp [ht]
  | streamed bs g ps _ _ _ ht => simp [ht]
  | wasReset _ ht => simp [ht]

/-- Settles O56: the record is written through `routineOn` only, and that keeps `RoutineFrame`. -/
theorem recordChangedOnlyByDispatch : Obligations.RecordChangedOnlyByDispatch := by
  refine ⟨fun i s t => exec_dsr, fun i s t hi h => ?_⟩
  obtain ⟨r, hr⟩ := exec_dispatching h hi
  obtain ⟨-, rfl⟩ | ⟨q, -, -, rfl⟩ := selectAndRun_inv hr
  · exact ⟨fun r' h' => (by simp at h'), fun _ => rfl, none, rfl⟩
  · refine ⟨fun r' h' => ?_, fun h' => (by simp at h'), some q, rfl⟩
    obtain rfl : q = r' := by simpa using h'
    exact routineOn_frame q _ _

end Frames

/-! ## The framing invariant -/

section Framing
variable {table : Vector (BitVec 16) 16} {b : Byte} {f g : Framer}

/-- Outside a frame the invariant asks only for a canonical BUF and for IDX in its range. -/
theorem Framer.inv_of_sync0 (hs : f.stage = .sync0) (hwf : Memory.wf f.buf = true)
    (hidx : f.idx.toNat ≤ 257) : f.Inv := by
  simp [Framer.Inv, hs, hwf, hidx]

/-- In stage DATA IDX is in its range because the frame is not yet complete. -/
theorem Framer.inv_of_data (hs : f.stage = .data) (hwf : Memory.wf f.buf = true)
    (h0 : Memory.read f.buf 0 = some Config.sync0Val) (h1 : Memory.read f.buf 1 = some Config.sync1Val)
    (h2 : Memory.Written f.buf 2) (h3 : Memory.Written f.buf 3)
    (hlt : f.idx.toNat < (Memory.byte f.buf 3).toNat + 2)
    (helided : Memory.byte f.buf 2 = Config.tagHsRaw → (Memory.byte f.buf 3).toNat = Config.hsRawLen)
    (hover : Config.maxPayload < (Memory.byte f.buf 3).toNat → f.oversize = true)
    (hpay : ∀ i < f.idx.toNat, Memory.Written f.buf (4 + i)) : f.Inv :=
  ⟨hwf, by omega, fun _ => h0, fun _ => h1, fun _ => h2, by simp [hs],
    fun _ => ⟨h3, hlt, helided, hover, hpay⟩⟩

/-- Entering stage DATA with the length `n` stored (R224, R225), before any payload byte. -/
theorem Framer.inv_enter_data (hf : f.Inv) (hs : f.stage = .len) {n : Byte} {o : Bool}
    (helided : Memory.byte f.buf 2 = Config.tagHsRaw → n.toNat = Config.hsRawLen)
    (hover : Config.maxPayload < n.toNat → o = true) :
    Framer.Inv { f with stage := .data, buf := Memory.write f.buf 3 n, oversize := o } := by
  obtain ⟨hwf, -, h0, h1, h2, hz, -⟩ := hf
  have hidx : f.idx = 0 := hz (by simp [hs])
  apply Framer.inv_of_data rfl (Memory.wf_write n hwf (by decide))
  case h0 => simp [Memory.read_write_other, h0, hs]
  case h1 => simp [Memory.read_write_other, h1, hs]
  case h2 => exact Memory.written_write n (h2 (by simp [hs]))
  case h3 => simp [Memory.Written]
  case hlt => simp [hidx]
  case helided => simpa [Memory.byte_write_other] using helided
  case hover => simpa using hover
  case hpay => simp [hidx]

/-- IDX counts up without wrapping (R22). -/
theorem idx_succ_toNat {idx : BitVec 9} (h : idx.toNat ≤ 256) : (idx + 1).toNat = idx.toNat + 1 := by
  bv_omega

/-- Appending the next byte of a frame in progress keeps the invariant (R226, R230). -/
theorem Framer.inv_feedData {p : Option Packet} (hf : f.Inv) (hs : f.stage = .data)
    (h : feedData table b f = .ok (g, p)) : g.Inv := by
  obtain ⟨hwf, -, h0, h1, h2, -, hd⟩ := hf
  obtain ⟨h3, hlt, helided, hover, hpay⟩ := hd hs
  obtain ⟨hcap, hbuf, hidx, ho, hend⟩ := feedData_inv h
  have hsucc : g.idx.toNat = f.idx.toNat + 1 := by
    rw [hidx, idx_succ_toNat]
    omega
  have hwf' : Memory.wf g.buf = true := hbuf ▸ Memory.wf_write b hwf hcap
  have hread : ∀ a < 4, Memory.read g.buf a = Memory.read f.buf a := fun a ha => by
    rw [hbuf, Memory.read_write_other _ _ (by omega)]
  have hbyte : ∀ a < 4, Memory.byte g.buf a = Memory.byte f.buf a := fun a ha => by
    simp [Memory.byte, hread a ha]
  have hkept : ∀ a, Memory.Written f.buf a → Memory.Written g.buf a := fun a ha =>
    hbuf ▸ Memory.written_write b ha
  have hlen := congrArg BitVec.toNat (hbyte 3 (by omega))
  obtain ⟨-, hstage, -⟩ | ⟨hmore, hstage, -⟩ := hend
  · exact Framer.inv_of_sync0 hstage hwf' (by omega)
  · apply Framer.inv_of_data hstage hwf'
    case h0 => simp [hread, h0, hs]
    case h1 => simp [hread, h1, hs]
    case h2 => exact hkept 2 (h2 (by simp [hs]))
    case h3 => exact hkept 3 h3
    case hlt => omega
    case helided => simpa [hbyte] using helided
    case hover => simpa [hbyte, ho] using hover
    case hpay =>
      intro i hi
      obtain hi | rfl : i < f.idx.toNat ∨ i = f.idx.toNat := by omega
      · exact hkept _ (hpay i hi)
      · simp [hbuf, Memory.Written]

/-- One FEED keeps the framing invariant (R230, R233). -/
theorem Framer.inv_feedByte {p : Option Packet} (hf : f.Inv) (h : feedByte table b f = .ok (g, p)) :
    g.Inv := by
  have ⟨hwf, hidx, h0, h1, h2, hz, _⟩ := hf
  obtain ⟨hs, rfl, -, rfl⟩ | ⟨-, -, -, rfl⟩ | ⟨hs, rfl, -, rfl⟩ | ⟨hs, -, -, rfl⟩ | ⟨hs, -, rfl⟩ |
    ⟨hs, ht, -, rfl⟩ | ⟨hs, ht, hd⟩ | ⟨hs, hd⟩ := feedByte_cases h
  · simp [Framer.Inv, Memory.wf_write _ hwf (by decide : 0 < Config.bufCap)]
  · exact hf
  · simp [Framer.Inv, Memory.wf_write _ hwf (by decide : 1 < Config.bufCap), Memory.read_write_other,
      h0, hz, hs]
  · exact Framer.inv_of_sync0 rfl hwf hidx
  · simp [Framer.Inv, Memory.wf_write _ hwf (by decide : 2 < Config.bufCap), Memory.read_write_other,
      h0, h1, hz, hs, Memory.Written]
  · exact Framer.inv_enter_data hf hs (fun h => absurd h ht) (fun h => by simp [oversizeAfter, h])
  · exact Framer.inv_feedData (Framer.inv_enter_data hf hs (fun _ => rfl) fun h => absurd h (by decide))
      rfl hd
  · exact Framer.inv_feedData hf hs hd

/-- Feeding any bytes keeps the framing invariant. -/
theorem Framer.inv_feedAll {bs : List Byte} {ps : List (Option Packet)} (hf : f.Inv)
    (h : feedAll table bs f = .ok (g, ps)) : g.Inv := by
  induction bs generalizing f ps with
  | nil => cases h; exact hf
  | cons b bs ih =>
    obtain ⟨f', p, qs, hb, hbs, -⟩ := feedAll_cons_inv h
    exact ih (Framer.inv_feedByte hf hb) hbs

/-- RESET meets the invariant, since it leaves BUF (R231). -/
theorem Framer.inv_resetFramer (hf : f.Inv) : (resetFramer f).Inv :=
  Framer.inv_of_sync0 rfl hf.1 (by simp)

/-- Every instruction keeps the framing invariant. -/
theorem State.inv_exec {i : Instr} {s t : State} (hs : s.Inv) (h : exec i s = .next t) : t.Inv := by
  cases exec_effect h with
  | result r _ _ ht => exact ht ▸ hs
  | encoded b n _ _ ht => exact ht ▸ hs
  | dispatched r _ hr => exact ((selectAndRun_frame hr).1 ▸ hs : t.framer.Inv)
  | fed g p _ hf ht => exact ht ▸ Framer.inv_feedByte hs hf
  | streamed bs g ps _ _ hf ht => exact ht ▸ Framer.inv_feedAll hs hf
  | wasReset _ ht => exact ht ▸ Framer.inv_resetFramer hs

/-- Settles O3: a step idles, which leaves the Framer State, or runs one instruction. -/
theorem stepKeepsFramingInvariant : Obligations.StepKeepsFramingInvariant := by
  intro s t hs h
  obtain ⟨-, rfl⟩ | ⟨r, rest, -, -, rfl⟩ | ⟨r, rest, i, left, -, -, he⟩ := step_cases h
  · exact hs
  · exact hs
  · exact State.inv_exec (s := s.present r left rest) hs he

/-- Settles O2: at reset no frame is in progress and BUF lists nothing (R37). -/
theorem resetMeetsFramingInvariant : Obligations.ResetMeetsFramingInvariant :=
  Framer.inv_of_sync0 rfl Memory.wf_nil (by decide)

/-! ## OVERSIZE (R28) -/

/-- A FEED takes the length byte of an ordinary type, or keeps OVERSIZE; it emits only where it appends. -/
theorem feedByte_length_or_append {p : Option Packet} (h : feedByte table b f = .ok (g, p)) :
    (f.stage = .len ∧ Memory.byte f.buf 2 ≠ Config.tagHsRaw ∧ p = none ∧
      g.oversize = oversizeAfter f.oversize b) ∨
    (p = none ∧ g.oversize = f.oversize) ∨
    ∃ f' : Framer, f'.oversize = f.oversize ∧ feedData table b f' = .ok (g, p) := by
  obtain ⟨-, -, hp, rfl⟩ | ⟨-, -, hp, rfl⟩ | ⟨-, -, hp, rfl⟩ | ⟨-, -, hp, rfl⟩ | ⟨-, hp, rfl⟩ |
    ⟨hs, ht, hp, rfl⟩ | ⟨-, -, hd⟩ | ⟨-, hd⟩ := feedByte_cases h
  · exact .inr (.inl ⟨hp, rfl⟩)
  · exact .inr (.inl ⟨hp, rfl⟩)
  · exact .inr (.inl ⟨hp, rfl⟩)
  · exact .inr (.inl ⟨hp, rfl⟩)
  · exact .inr (.inl ⟨hp, rfl⟩)
  · exact .inl ⟨hs, ht, hp, rfl⟩
  · exact .inr (.inr ⟨{ f with buf := Memory.write f.buf 3 (BitVec.ofNat 8 Config.hsRawLen) }, rfl, hd⟩)
  · exact .inr (.inr ⟨f, rfl, hd⟩)

/-- A FEED keeps OVERSIZE, but for a length byte of an ordinary type, which may set it. -/
theorem feedByte_oversize {p : Option Packet} (h : feedByte table b f = .ok (g, p)) :
    g.oversize = f.oversize ∨
    f.stage = .len ∧ Memory.byte f.buf 2 ≠ Config.tagHsRaw ∧ g.oversize = oversizeAfter f.oversize b := by
  obtain ⟨hs, ht, -, ho⟩ | ⟨-, ho⟩ | ⟨f', hf', hd⟩ := feedByte_length_or_append h
  · exact .inr ⟨hs, ht, ho⟩
  · exact .inl ho
  · obtain ⟨-, -, -, ho, -⟩ := feedData_inv hd
    exact .inl (ho.trans hf')

/-- OVERSIZE is sticky under FEED. -/
theorem feedByte_oversize_sticky {p : Option Packet} (h : feedByte table b f = .ok (g, p))
    (hf : f.oversize = true) : g.oversize = true := by
  obtain ho | ⟨-, -, ho⟩ := feedByte_oversize h
  · exact ho.trans hf
  · simp [ho, oversizeAfter, hf]

/-- A FEED that sets OVERSIZE took a byte above 18 in stage LEN of an ordinary type. -/
theorem feedByte_sets_oversize {p : Option Packet} (h : feedByte table b f = .ok (g, p))
    (hf : f.oversize = false) (hg : g.oversize = true) :
    f.stage = .len ∧ Memory.byte f.buf 2 ≠ Config.tagHsRaw ∧ Config.maxPayload < b.toNat := by
  obtain ho | ⟨hs, ht, ho⟩ := feedByte_oversize h
  · simp [ho, hf] at hg
  · exact ⟨hs, ht, by simpa [ho, oversizeAfter, hf] using hg⟩

theorem feedAll_oversize_sticky {bs : List Byte} {ps : List (Option Packet)}
    (h : feedAll table bs f = .ok (g, ps)) (hf : f.oversize = true) : g.oversize = true := by
  induction bs generalizing f ps with
  | nil => cases h; exact hf
  | cons b bs ih =>
    obtain ⟨f', p, qs, hb, hbs, -⟩ := feedAll_cons_inv h
    exact ih hbs (feedByte_oversize_sticky hb hf)

/-- A stream that sets OVERSIZE has a first byte that does: the bytes in front of it leave it 0. -/
theorem feedAll_sets_oversize {bs : List Byte} {ps : List (Option Packet)}
    (h : feedAll table bs f = .ok (g, ps)) (hf : f.oversize = false) (hg : g.oversize = true) :
    ∃ front b back f' qs, bs = front ++ b :: back ∧ feedAll table front f = .ok (f', qs) ∧
      f'.oversize = false ∧ f'.stage = .len ∧ Memory.byte f'.buf 2 ≠ Config.tagHsRaw ∧
      Config.maxPayload < b.toNat := by
  induction bs generalizing f ps with
  | nil =>
    cases h
    simp [hf] at hg
  | cons b bs ih =>
    obtain ⟨f', p, qs, hb, hbs, -⟩ := feedAll_cons_inv h
    cases ho : f'.oversize with
    | true => exact ⟨[], b, bs, f, [], rfl, rfl, hf, feedByte_sets_oversize hb hf ho⟩
    | false =>
      obtain ⟨front, c, back, f'', rs, rfl, hfront, hrest⟩ := ih hbs ho
      exact ⟨b :: front, c, back, f'', p :: rs, rfl, by rw [feedAll_cons hb, hfront]; rfl, hrest⟩

/-- Only RESET clears OVERSIZE. -/
theorem exec_oversize_sticky {i : Instr} {s t : State} (h : exec i s = .next t)
    (hs : s.framer.oversize = true) (hi : i ≠ .reset) : t.framer.oversize = true := by
  cases exec_effect h with
  | result r _ _ ht => simpa [ht] using hs
  | encoded b n _ _ ht => simpa [ht] using hs
  | dispatched r _ hr => rwa [(selectAndRun_frame hr).1]
  | fed g p _ hf ht => simpa [ht] using feedByte_oversize_sticky hf hs
  | streamed bs g ps _ _ hf ht => simpa [ht] using feedAll_oversize_sticky hf hs
  | wasReset hr => exact absurd hr hi

/-- Settles O59: where OVERSIZE turns to 1, the byte that sets it is the FEED's or one of the frame's. -/
theorem oversizeIsSticky : Obligations.OversizeIsSticky := by
  refine ⟨fun i s t => exec_oversize_sticky, fun i s t h hs ht => ?_⟩
  cases exec_effect h with
  | fed g p hi hf hg =>
    have hset := feedByte_sets_oversize hf hs (by simpa [hg] using ht)
    exact ⟨[], [], s.port.byte, s.framer, [], .inl ⟨hi, rfl, rfl⟩, rfl, hs, hset⟩
  | streamed bs g ps _ hc hf hg =>
    obtain ⟨front, b, back, f, qs, rfl, hset⟩ := feedAll_sets_oversize hf hs (by simpa [hg] using ht)
    exact ⟨front, back, b, f, qs, .inr hc, hset⟩
  | result r _ _ hg => simp [hg, hs] at ht
  | encoded b n _ _ hg => simp [hg, hs] at ht
  | dispatched r _ hr => simp [(selectAndRun_frame hr).1, hs] at ht
  | wasReset _ hg => simp [hg] at ht

/-! ## The packets emitted (R32, R229) -/

/-- Validation answers a packet of as many bytes as its length states (R229). -/
theorem validate_wf {m : Memory} {p : Packet} (h : validate table m = some p) :
    p.data.length = p.len.toNat := by
  unfold validate at h
  split at h
  · cases h
    simp
  · cases h

/-- A FEED that emits a packet validated it. -/
theorem feedByte_emits {p : Packet} (h : feedByte table b f = .ok (g, some p)) :
    validate table g.buf = some p := by
  obtain ⟨-, -, hp, -⟩ | ⟨hp, -⟩ | ⟨f', -, hd⟩ := feedByte_length_or_append h
  · cases hp
  · cases hp
  · obtain ⟨-, -, -, -, ⟨-, -, hp⟩ | ⟨-, -, hp⟩⟩ := feedData_inv hd
    · exact hp.symm
    · cases hp

theorem feedAll_emits_wf {bs : List Byte} {ps : List (Option Packet)} {p : Packet}
    (h : feedAll table bs f = .ok (g, ps)) (hp : some p ∈ ps) : p.data.length = p.len.toNat := by
  induction bs generalizing f ps with
  | nil => cases h; simp at hp
  | cons b bs ih =>
    obtain ⟨f', q, qs, hb, hbs, rfl⟩ := feedAll_cons_inv h
    obtain rfl | hp := List.mem_cons.1 hp
    · exact validate_wf (feedByte_emits hb)
    · exact ih hbs hp

/-- Settles O60: only a FEED emits, and it emits what it validated. -/
theorem emittedPacketsMatchLength : Obligations.EmittedPacketsMatchLength := by
  intro i s t h p hp
  rw [State.mem_emitted] at hp
  cases exec_effect h with
  | fed g q _ hf ht =>
    obtain rfl : some p = q := by simpa [ht] using hp
    exact validate_wf (feedByte_emits hf)
  | streamed bs g ps _ _ hf ht => exact feedAll_emits_wf hf (by simpa [ht] using hp)
  | result r _ hr ht => simp [ht, hr] at hp
  | encoded b n _ _ ht => simp [ht, State.feedResults] at hp
  | dispatched r _ hr => simp [(selectAndRun_frame hr).2.2] at hp
  | wasReset _ ht => simp [ht, State.feedResults] at hp

end Framing

/-! ## The step and the decoder -/

/-- The payload that a frame's body splits off has the stated length (R81, R82). -/
theorem splitBody_length {n : Nat} {bs payload left : List Byte} {crc : BitVec 16}
    (h : splitBody n bs = some (payload, crc, left)) : payload.length = n := by
  unfold splitBody at h
  split at h
  · split at h
    · simp only [Option.some.injEq, Prod.mk.injEq] at h
      obtain ⟨rfl, -, -⟩ := h
      simpa
    · cases h
  · cases h

/-- The operation codes name no frame row, and no other instruction has a field to limit. -/
theorem operationAt_wellFormed {c : Nat} {i : Instr} (h : operationAt c = some i) :
    i.wellFormed = true := by
  unfold operationAt at h
  split at h <;> cases h <;> rfl

theorem decodeTag_wellFormed (t : Byte) : (decodeTag t).wellFormed = true := by
  unfold decodeTag
  split_ifs <;> rfl

/-- A frame found on the wire keeps the limits on its fields: a length byte states at most 255. -/
theorem decodeFrame_wellFormed {bs left : List Byte} {i : Instr} (h : decodeFrame bs = some (i, left)) :
    i.wellFormed = true := by
  unfold decodeFrame at h
  split at h
  · split_ifs at h with hsync ht
    · obtain ⟨⟨payload, crc, left'⟩, hsplit, hi⟩ := Option.map_eq_some_iff.1 h
      cases hi
      simp [Instr.wellFormed, splitBody_length hsplit]
    · split at h
      next len body =>
        obtain ⟨⟨payload, crc, left'⟩, hsplit, hi⟩ := Option.map_eq_some_iff.1 h
        cases hi
        have hfits : payload.length ≤ 255 := by
          have := splitBody_length hsplit
          have := len.isLt
          omega
        simp [Instr.wellFormed, ht, payloadFits, Config.maxFramePayload, hfits]
      next => cases h
  · cases h

theorem decodeWire_wellFormed {bs left : List Byte} {i : Instr} (h : decodeWire bs = .ok (i, left)) :
    i.wellFormed = true := by
  cases bs with
  | nil => cases h
  | cons b bs =>
    simp only [decodeWire] at h
    split at h
    · cases h
      exact decodeFrame_wellFormed ‹_›
    · cases h
      rfl

/-- Whatever the decoder reads is well formed. -/
theorem decode_wellFormed {c : Code} {i : Instr} {left : List Byte} (h : decode c = .ok (i, left)) :
    i.wellFormed = true := by
  cases c with
  | op6 c =>
    cases ho : operationAt c.toNat with
    | none => simp [decode, decodeOp, ho, Except.map] at h
    | some j =>
      simp only [decode, decodeOp, ho, Except.map, Except.ok.injEq, Prod.mk.injEq] at h
      exact h.1 ▸ operationAt_wellFormed ho
  | tag8 t =>
    cases h
    exact decodeTag_wellFormed t
  | wire bs => exact decodeWire_wellFormed h

/-- Settles O4: the fetch presents the decoded instruction, and the step runs it. -/
theorem stepRunsDecoded : Obligations.StepRunsDecoded := by
  intro s r rest i left hp hd
  exact ⟨decode_wellFormed hd, by rw [step, fetch_decoded hp hd]⟩

end Sys2Proof.Machine
end

section
/-! # Operands, the wire and the empty request (`20_memory.md`)

What an instruction does to the operand port and the queue is read off `exec_effect`. A run on wire
bytes is an induction over the bytes left: a step takes some of them from the front, FEEDs just those
(`step_wire`), and feeding in parts is feeding the whole (`Feeds.trans`). -/

namespace Sys2Proof.Machine
open Sys2Proof.Claims

/-! ## Where nothing is offered (R70) -/

theorem fetch_noneAvailable {s : State} {r : Request} {rest : List Request}
    (hp : s.pending = r :: rest) (hd : decode r.code = .error .noneAvailable) :
    fetch s = .idle { s with pending := rest } := by
  simp [fetch, hp, hd]

theorem step_idle {s s' : State} (h : fetch s = .idle s') : step s = .next (s'.withOut .idle) := by
  simp [step, h]

/-- An empty wire request is taken from the queue, and nothing else happens. -/
theorem step_wire_nil {s : State} {rest : List Request} (hp : s.pending = .wire [] :: rest) :
    step s = .next (State.withOut { s with pending := rest } .idle) :=
  step_idle (fetch_noneAvailable hp rfl)

/-- Settles O5: an empty queue and an empty wire are both fetched as idle. -/
theorem noneAvailableIsIdle : Obligations.NoneAvailableIsIdle :=
  ⟨fun _ hp => step_idle (fetch_empty hp), fun _ _ hp => step_wire_nil hp⟩

/-! ## The operand port and the queue (R55, R59) -/

section Port
variable {i : Instr} {s t : State}

/-- A dispatch leaves the operands and the requests to come. -/
theorem selectAndRun_port {r : Option Routine} (h : selectAndRun r s = .next t) :
    t.port = s.port ∧ t.pending = s.pending := by
  obtain ⟨-, rfl⟩ | ⟨q, -, -, rfl⟩ := selectAndRun_inv h
  · exact ⟨rfl, rfl⟩
  · exact ⟨rfl, rfl⟩

/-- No instruction touches the requests to come. -/
theorem exec_pending (h : exec i s = .next t) : t.pending = s.pending := by
  cases exec_effect h with
  | result r _ _ ht => simp [ht]
  | encoded b n _ _ ht => simp [ht]
  | dispatched r _ hr => exact (selectAndRun_port hr).2
  | fed g p _ _ ht => simp [ht]
  | streamed bs g ps _ _ _ ht => simp [ht]
  | wasReset _ ht => simp [ht]

/-- An instruction leaves the operand port, or is an encoder, which gives it a buffer as long as before. -/
theorem exec_port (h : exec i s = .next t) :
    t.port = s.port ∨
    IsEncoding i ∧ ∃ b : List Byte, b.length = s.port.buf.length ∧ t.port = { s.port with buf := b } := by
  cases exec_effect h with
  | encoded b n hi hb ht => exact .inr ⟨hi, b, hb, by simp [ht]⟩
  | result r _ _ ht => simp [ht]
  | dispatched r _ hr => exact .inl (selectAndRun_port hr).1
  | fed g p _ _ ht => simp [ht]
  | streamed bs g ps _ _ _ ht => simp [ht]
  | wasReset _ ht => simp [ht]

/-- Settles O58: of the six effects only an encoder's reaches the operand port. -/
theorem operandsChangedOnlyByEncoders : Obligations.OperandsChangedOnlyByEncoders := by
  intro i s t h
  obtain hport | ⟨hi, b, hb, hport⟩ := exec_port h
  · exact ⟨fun _ => hport, fun _ => by simp [hport], exec_pending h⟩
  · exact ⟨fun hn => absurd hi hn, fun _ => by simp [hport, hb], exec_pending h⟩

end Port

/-! ## Feeding completes in every state of the invariant (R230) -/

section Completes
variable {table : Vector (BitVec 16) 16} {b : Byte} {f : Framer}

theorem feedData_completes (h : 4 + f.idx.toNat < Config.bufCap) :
    ∃ g p, feedData table b f = .ok (g, p) := by
  rw [feedData_ok h]
  split
  · exact ⟨_, _, rfl⟩
  · exact ⟨_, _, rfl⟩

/-- Only an append can be refused, and the invariant bounds IDX where a FEED appends. -/
theorem Framer.feedByte_completes (hf : f.Inv) : ∃ g p, feedByte table b f = .ok (g, p) := by
  obtain ⟨-, -, -, -, -, hzero, hdata⟩ := hf
  cases hs : f.stage with
  | sync0 =>
    by_cases hb : b = Config.sync0Val
    · exact ⟨_, _, hb ▸ feedByte_sync0_match hs⟩
    · exact ⟨_, _, feedByte_sync0_skip hs hb⟩
  | sync1 =>
    by_cases hb : b = Config.sync1Val
    · exact ⟨_, _, hb ▸ feedByte_sync1_match hs⟩
    · exact ⟨_, _, feedByte_sync1_drop hs hb⟩
  | type => exact ⟨_, _, feedByte_type hs⟩
  | len =>
    by_cases ht : Memory.byte f.buf 2 = Config.tagHsRaw
    · have hidx : f.idx = 0 := hzero (by simp [hs])
      rw [feedByte_len_hsRaw hs ht]
      exact feedData_completes (by simp [hidx, Config.bufCap])
    · exact ⟨_, _, feedByte_len_std hs ht⟩
  | data =>
    obtain ⟨-, hlt, -⟩ := hdata hs
    have hlen := (Memory.byte f.buf 3).isLt
    rw [feedByte_data hs]
    exact feedData_completes (by simp only [Config.bufCap]; omega)

/-- Any bytes can be fed from a state of the invariant. -/
theorem Framer.feedAll_completes (bs : List Byte) (hf : f.Inv) :
    ∃ g ps, feedAll table bs f = .ok (g, ps) := by
  induction bs generalizing f with
  | nil => exact ⟨f, [], rfl⟩
  | cons b bs ih =>
    obtain ⟨f', p, hb⟩ := Framer.feedByte_completes (table := table) (b := b) hf
    obtain ⟨g, ps, hbs⟩ := ih (Framer.inv_feedByte hf hb)
    exact ⟨g, p :: ps, by rw [feedAll_cons hb, hbs]; rfl⟩

end Completes

/-! ## The bytes a frame row takes from the wire (R83) -/

/-- The trailer read from two bytes is sent as those two bytes (R90). -/
theorem bytesBe_two_append (hi lo : Byte) : bytesBe 2 (hi ++ lo).toNat = [hi, lo] := by
  rw [bytesBe_two, BitVec.extractLsb'_append_eq_left, BitVec.extractLsb'_append_eq_right]

/-- A frame's body is its payload, its trailer and the bytes left. -/
theorem splitBody_bytes {n : Nat} {bs payload left : List Byte} {crc : BitVec 16}
    (h : splitBody n bs = some (payload, crc, left)) :
    bs = payload ++ bytesBe 2 crc.toNat ++ left := by
  unfold splitBody at h
  split at h
  · split at h
    next hi lo rest hdrop =>
      cases h
      rw [bytesBe_two_append, List.append_assoc, List.cons_append, List.cons_append, List.nil_append,
        ← hdrop, List.take_append_drop]
    next => cases h
  · cases h

/-- A frame found on the wire is its own encoding, in front of the bytes left. -/
theorem decodeFrame_bytes {bs left : List Byte} {i : Instr} (h : decodeFrame bs = some (i, left)) :
    ∃ own, encode i = .wire own ∧ bs = own ++ left := by
  unfold decodeFrame at h
  split at h
  next b0 b1 t rest =>
    split_ifs at h with hsync ht
    · obtain ⟨⟨payload, crc, left'⟩, hsplit, hi⟩ := Option.map_eq_some_iff.1 h
      cases hi
      refine ⟨_, rfl, ?_⟩
      simp [frameHsRawBytes, hsync, ht, splitBody_bytes hsplit]
    · split at h
      next len body =>
        obtain ⟨⟨payload, crc, left'⟩, hsplit, hi⟩ := Option.map_eq_some_iff.1 h
        cases hi
        refine ⟨_, rfl, ?_⟩
        simp [frameStdBytes, hsync, splitBody_length hsplit, splitBody_bytes hsplit]
      next => cases h
  next => cases h

/-- Bytes on the wire decode to FEED of the first one, or to a frame row that takes its encoding. -/
theorem decode_wire_cons (b : Byte) (bs : List Byte) :
    decode (.wire (b :: bs)) = .ok (.feed, bs) ∨
    ∃ i own left, decode (.wire (b :: bs)) = .ok (i, left) ∧ encode i = .wire own ∧
      b :: bs = own ++ left := by
  cases hf : decodeFrame (b :: bs) with
  | none => exact .inl (by simp [decode, decodeWire, hf])
  | some r =>
    obtain ⟨i, left⟩ := r
    obtain ⟨own, hc, hbs⟩ := decodeFrame_bytes hf
    exact .inr ⟨i, own, left, by simp [decode, decodeWire, hf], hc, hbs⟩

/-- An instruction with a wire encoding is a frame row: at least one byte, all of them fed. -/
theorem exec_of_encode_wire {i : Instr} {own : List Byte} (h : encode i = .wire own) (s : State) :
    own ≠ [] ∧ exec i s = feedFrame own s := by
  cases i with
  | frameHsRaw payload crc =>
    cases h
    exact ⟨by simp [frameHsRawBytes], rfl⟩
  | frameStd typ payload crc =>
    cases h
    exact ⟨by simp [frameStdBytes], rfl⟩
  | _ => cases h

/-! ## A run on wire bytes (R63, R69) -/

/-- From `s` to `t` the bytes `bs` were fed one at a time with the results `ps`; the record and the
parameters stayed. -/
structure Feeds (s : State) (bs : List Byte) (ps : List (Option Packet)) (t : State) : Prop where
  framer : feedAll s.cfg.crcTable bs s.framer = .ok (t.framer, ps)
  dsr : t.dsr = s.dsr
  cfg : t.cfg = s.cfg

theorem Feeds.nil {s t : State} (hf : t.framer = s.framer) (hd : t.dsr = s.dsr) (hc : t.cfg = s.cfg) :
    Feeds s [] [] t :=
  ⟨by rw [hf, feedAll_nil], hd, hc⟩

/-- Feeding a stream in two parts is feeding it whole (R69). -/
theorem Feeds.trans {s t u : State} {as bs : List Byte} {ps qs : List (Option Packet)}
    (h : Feeds s as ps t) (h' : Feeds t bs qs u) : Feeds s (as ++ bs) (ps ++ qs) u where
  framer := by
    rw [feedAll_append h.framer, ← h.cfg, h'.framer]
    rfl
  dsr := h'.dsr.trans h.dsr
  cfg := h'.cfg.trans h.cfg

/-- Of the bytes on the wire a step takes at least one from the front, and FEEDs just those it takes. -/
theorem step_wire {s : State} {b : Byte} {bs : List Byte} {rest : List Request} (hs : s.Inv)
    (hp : s.pending = .wire (b :: bs) :: rest) :
    ∃ own left t, b :: bs = own ++ left ∧ own ≠ [] ∧ step s = .next t ∧
      Feeds s own t.feedResults t ∧ t.pending = requestsLeft left rest := by
  obtain hd | ⟨i, own, left, hd, hc, hbs⟩ := decode_wire_cons b bs
  · obtain ⟨g, p, hb⟩ := Framer.feedByte_completes (table := s.cfg.crcTable) (b := b) hs
    have hfeed : exec .feed (s.present (.wire (b :: bs)) bs rest)
        = .next (((s.present (.wire (b :: bs)) bs rest).withFramer g).withOut (.feed p)) := by
      simp [exec, execFeed, Request.drive, hb]
    refine ⟨[b], bs, _, rfl, by simp, ((stepRunsDecoded s _ rest _ bs hp hd).2).trans hfeed, ?_, rfl⟩
    exact ⟨by rw [feedAll_cons hb]; rfl, rfl, rfl⟩
  · obtain ⟨hne, he⟩ := exec_of_encode_wire hc (s.present (.wire (b :: bs)) left rest)
    obtain ⟨g, ps, hf⟩ := Framer.feedAll_completes (table := s.cfg.crcTable) own hs
    have hframe : exec i (s.present (.wire (b :: bs)) left rest)
        = .next (((s.present (.wire (b :: bs)) left rest).withFramer g).withOut (.stream ps)) := by
      simp [he, feedFrame, hf]
    exact ⟨own, left, _, hbs, hne, ((stepRunsDecoded s _ rest i left hp hd).2).trans hframe,
      ⟨hf, rfl, rfl⟩, rfl⟩

theorem run_succ {s t : State} (h : step s = .next t) (k : Nat) :
    Host.Core.run core (k + 1) s = Host.Core.run core k t := by
  simp [Host.Core.run, core, h]

theorem feedsOfRun_succ {s t : State} (h : step s = .next t) (k : Nat) :
    feedsOfRun (k + 1) s = t.feedResults ++ feedsOfRun k t := by
  simp [feedsOfRun, h]

/-- A step in front of a run that feeds the bytes left. -/
theorem run_feeds_cons {s t u : State} {own left : List Byte} {k : Nat} (h : step s = .next t)
    (hown : Feeds s own t.feedResults t) (hrun : Host.Core.run core k t = .next u)
    (hleft : Feeds t left (feedsOfRun k t) u) :
    Host.Core.run core (k + 1) s = .next u ∧ Feeds s (own ++ left) (feedsOfRun (k + 1) s) u :=
  ⟨(run_succ h k).trans hrun, feedsOfRun_succ h k ▸ hown.trans hleft⟩

/-- While bytes are left a step takes some of them, so a run as long as it needs to be takes them all. -/
theorem run_wire {s : State} {bs : List Byte} (hs : s.Inv) (hp : s.pending = requestsLeft bs []) :
    ∃ k t, Host.Core.run core k s = .next t ∧ t.pending = [] ∧ Feeds s bs (feedsOfRun k s) t := by
  induction hn : bs.length using Nat.strong_induction_on generalizing s bs with
  | _ n ih =>
    cases bs with
    | nil => exact ⟨0, s, rfl, hp, .nil rfl rfl rfl⟩
    | cons b bs =>
      obtain ⟨own, left, t, hbs, hne, hstep, hown, hpt⟩ := step_wire hs hp
      have hshort : left.length < n := by
        have hpos := List.length_pos_iff.2 hne
        have hlen := congrArg List.length hbs
        rw [List.length_append] at hlen
        omega
      obtain ⟨k, u, hrun, hpu, hleft⟩ :=
        ih left.length hshort (stepKeepsFramingInvariant s t hs hstep) hpt rfl
      obtain ⟨hrun', hall⟩ := run_feeds_cons hstep hown hrun hleft
      exact ⟨k + 1, u, hrun', hpu, hbs ▸ hall⟩

/-- Settles O42: an empty wire is one idle step, any other is `run_wire`. -/
theorem wireRunFeedsEveryByte : Obligations.WireRunFeedsEveryByte := by
  intro s bs hs hp
  cases bs with
  | nil =>
    have hstep := step_wire_nil hp
    exact ⟨1, _, (run_succ hstep 0).trans rfl, rfl, by rw [feedsOfRun_succ hstep]; rfl, rfl, rfl⟩
  | cons b bs =>
    obtain ⟨k, t, hrun, hpt, hfeeds⟩ := run_wire (bs := b :: bs) hs hp
    exact ⟨k, t, hrun, hpt, hfeeds.framer, hfeeds.dsr, hfeeds.cfg⟩

end Sys2Proof.Machine
end

section
/-! # Encodings and frames (`30_encoding.md`)

The decoder inverts the encoder because `splitBody` finds a payload and its trailer whatever follows them.
A frame fed from stage SYNC0 leaves its image in BUF (`Memory.writeAll`): three header bytes, then the length,
sent or elided, then an induction over the bytes of stage DATA. Both frame rows leave the image of the
ordinary frame, so both verdicts are read off one set of lemmas about that image. -/

namespace Sys2Proof.Machine
open Sys2Proof.Claims

/-! ## Decoding what was encoded (R81 to R83, R102) -/

@[simp] theorem wellFormed_frameStd {typ : Byte} {payload : List Byte} {crc : BitVec 16} :
    (Instr.frameStd typ payload crc).wellFormed = true ↔ typ ≠ Config.tagHsRaw ∧ payload.length ≤ 255 := by
  rw [show 255 = Config.maxFramePayload from rfl]
  simp [Instr.wellFormed, payloadFits]

@[simp] theorem wellFormed_frameHsRaw {payload : List Byte} {crc : BitVec 16} :
    (Instr.frameHsRaw payload crc).wellFormed = true ↔ payload.length = 13 := by
  simp [Instr.wellFormed, Config.hsRawLen]

/-- A payload and its trailer are split off in front of any bytes. -/
theorem splitBody_append {n : Nat} {payload : List Byte} (h : payload.length = n) (crc : BitVec 16)
    (rest : List Byte) :
    splitBody n (payload ++ bytesBe 2 crc.toNat ++ rest) = some (payload, crc, rest) := by
  subst h
  simp [splitBody, bytesBe_two]

theorem decodeFrame_frameStdBytes {typ : Byte} {payload : List Byte} (ht : typ ≠ Config.tagHsRaw)
    (hlen : payload.length ≤ 255) (crc : BitVec 16) (rest : List Byte) :
    decodeFrame (frameStdBytes typ payload crc ++ rest) = some (.frameStd typ payload crc, rest) := by
  have hn : payload.length = payload.length % 256 := by omega
  have hbody := splitBody_append hn crc rest
  rw [List.append_assoc] at hbody
  simp [frameStdBytes, decodeFrame, ht, hbody]

theorem decodeFrame_frameHsRawBytes {payload : List Byte} (hlen : payload.length = 13) (crc : BitVec 16)
    (rest : List Byte) :
    decodeFrame (frameHsRawBytes payload crc ++ rest) = some (.frameHsRaw payload crc, rest) := by
  have hbody := splitBody_append hlen crc rest
  rw [List.append_assoc] at hbody
  simp [frameHsRawBytes, decodeFrame, Config.hsRawLen, hbody]

theorem decode_wire_of_decodeFrame {bs left : List Byte} {i : Instr} (h : decodeFrame bs = some (i, left)) :
    decode (.wire bs) = .ok (i, left) := by
  cases bs with
  | nil => cases h
  | cons b bs => simp [decode, decodeWire, h]

/-- A well-formed frame is found whole, whatever bytes follow it (R83). -/
theorem decode_encode_append {i : Instr} {own : List Byte} (hi : i.wellFormed = true)
    (h : encode i = .wire own) (rest : List Byte) : decode (.wire (own ++ rest)) = .ok (i, rest) := by
  apply decode_wire_of_decodeFrame
  cases i with
  | frameHsRaw payload crc =>
    cases h
    exact decodeFrame_frameHsRawBytes (wellFormed_frameHsRaw.1 hi) crc rest
  | frameStd typ payload crc =>
    cases h
    obtain ⟨ht, hlen⟩ := wellFormed_frameStd.1 hi
    exact decodeFrame_frameStdBytes ht hlen crc rest
  | _ => cases h

/-- The codes and tags are constants and decode as the tables say; a frame is one with nothing after it. -/
theorem decode_encode {i : Instr} (hi : i.wellFormed = true) : decode (encode i) = .ok (i, []) := by
  cases i with
  | frameHsRaw | frameStd =>
    have h := decode_encode_append hi rfl []
    rwa [List.append_nil] at h
  | _ => rfl

/-- Settles O7: the operations and tags by their tables, the frames by `splitBody_append`. -/
theorem decodeEncodeAgree : Obligations.DecodeEncodeAgree :=
  ⟨fun _ => decode_encode, fun _ _ rest hi h => decode_encode_append hi h rest⟩

/-- Settles O8: a byte alone is a FEED; a frame found is its own encoding. -/
theorem wireBytesAccounted : Obligations.WireBytesAccounted := by
  intro bs left i h
  cases bs with
  | nil => cases h
  | cons b bs =>
    obtain hfeed | ⟨j, own, rest, hframe, hc, hbs⟩ := decode_wire_cons b bs
    · cases h.symm.trans hfeed
      exact .inl ⟨rfl, b, rfl⟩
    · cases h.symm.trans hframe
      exact .inr ⟨decode_wellFormed h, own, hc, hbs⟩

/-- Settles O9: each word is the encoding of its instruction, which decodes to it. -/
theorem sampleWordsDecode : Obligations.SampleWordsDecode := by
  have htable : tableCode 24 0x55AAFE = encode (.frameHsRaw (List.replicate 13 0) 0) := by decide
  refine ⟨decode_encode (i := .frameStd 0x21 [0x05] 0x3A37) rfl,
    decode_encode (i := .frameHsRaw [1, 2, 3, 4, 5, 6, 7, 8, 9, 10, 11, 12, 13] 0x635C) rfl,
    decode_encode (i := .tagHsRaw) rfl, decode_encode (i := .decS24Be) rfl,
    decode_encode (i := .decU64Le) rfl, decode_encode (i := .enc32Le) rfl,
    decode_encode (i := .roundS24) rfl, decode_encode (i := .feed) rfl, ?_⟩
  rw [decodeTableWord, htable, decode_encode rfl]

/-! ## Undefined operation codes (R101, U17) -/

/-- The refusals that an operation itself can answer: of an operand, never of a code (R317). -/
def Refusal.OfOperand : Refusal → Prop
  | .bufferEnd | .roundNan | .payloadTooLong | .shortPayload => True
  | .notModelled _ | .undefinedOp _ => False

theorem orRefuse_refused {α : Type} {x : Except Refusal α} {k : α → State} {r : Refusal}
    (h : orRefuse x k = .refused r) : x = .error r := by
  cases x with
  | ok v => cases h
  | error q => cases h; rfl

section Refusals
variable {s : State} {r : Refusal}

theorem decodeField_refusal {o : ByteOrder} {n : Nat} {mk : Nat → Result}
    (h : decodeField o n mk s = .refused r) : r.OfOperand := by
  rcases Nat.lt_or_ge s.port.buf.length (s.port.off + n) with hb | hb
  · rw [decodeField_refused hb] at h
    cases h
    trivial
  · rw [decodeField_next hb] at h
    cases h

theorem encodeField_refusal {o : ByteOrder} {n p : Nat} (h : encodeField o n p s = .refused r) :
    r.OfOperand := by
  rcases Nat.lt_or_ge s.port.buf.length (s.port.off + n) with hb | hb
  · rw [encodeField_refused hb] at h
    cases h
    trivial
  · obtain ⟨b, -, hnext⟩ := encodeField_next (o := o) (p := p) hb
    rw [hnext] at h
    cases h

theorem roundTo_refusal {range : IntRange} {mk : Int → Result} (h : roundTo range mk s = .refused r) :
    r.OfOperand := by
  have herr := orRefuse_refused h
  cases hx : roundOperand s with
  | finite neg num den => simp [hx] at herr
  | infinite neg => simp [hx] at herr
  | nan u =>
    cases hn : s.cfg.roundNan with
    | refuse =>
      rw [hx, hn, roundValue_nan_refuse] at herr
      cases herr
      trivial
    | anyValue => simp [hx, hn] at herr

theorem selectAndRun_refusal {q : Option Routine} (h : selectAndRun q s = .refused r) : r.OfOperand := by
  cases q with
  | none => cases h
  | some q =>
    rcases Nat.lt_or_ge s.port.pkt.data.length (layoutLen q) with hq | hq
    · rw [selectAndRun_short hq] at h
      cases h
      trivial
    · rw [selectAndRun_some hq] at h
      cases h

theorem execEncodeFrame_refusal (h : execEncodeFrame s = .refused r) : r.OfOperand := by
  have herr := orRefuse_refused h
  rcases Nat.lt_or_ge Config.maxFramePayload s.port.buf.length with hp | hp
  · rw [encodeFrameBytes_tooLong hp] at herr
    cases herr
    trivial
  · rw [encodeFrameBytes_ok hp] at herr
    cases herr

/-- The only refusal of a FEED is the append past the end of BUF (R57; log 15). -/
theorem feedData_refusal {table : Vector (BitVec 16) 16} {b : Byte} {f : Framer}
    (h : feedData table b f = .error r) : r = .bufferEnd := by
  by_cases hb : 4 + f.idx.toNat < Config.bufCap
  · obtain ⟨g, p, hok⟩ := feedData_completes (table := table) (b := b) hb
    cases hok.symm.trans h
  · cases (feedData_overrun hb).symm.trans h
    rfl

theorem feedByte_refusal {table : Vector (BitVec 16) 16} {b : Byte} {f : Framer}
    (h : feedByte table b f = .error r) : r = .bufferEnd := by
  cases hs : f.stage with
  | sync0 =>
    by_cases hb : b = Config.sync0Val
    · cases (hb ▸ feedByte_sync0_match hs).symm.trans h
    · cases (feedByte_sync0_skip hs hb).symm.trans h
  | sync1 =>
    by_cases hb : b = Config.sync1Val
    · cases (hb ▸ feedByte_sync1_match hs).symm.trans h
    · cases (feedByte_sync1_drop hs hb).symm.trans h
  | type => cases (feedByte_type hs).symm.trans h
  | len =>
    by_cases ht : Memory.byte f.buf 2 = Config.tagHsRaw
    · exact feedData_refusal ((feedByte_len_hsRaw hs ht).symm.trans h)
    · cases (feedByte_len_std hs ht).symm.trans h
  | data => exact feedData_refusal ((feedByte_data hs).symm.trans h)

theorem feedAll_refusal {table : Vector (BitVec 16) 16} {bs : List Byte} {f : Framer}
    (h : feedAll table bs f = .error r) : r = .bufferEnd := by
  induction bs generalizing f with
  | nil => cases h
  | cons b bs ih =>
    cases hb : feedByte table b f with
    | error q =>
      rw [feedAll, hb] at h
      cases h
      exact feedByte_refusal hb
    | ok v =>
      rw [feedAll_cons hb] at h
      cases hbs : feedAll table bs v.1 with
      | error q =>
        rw [hbs] at h
        cases h
        exact ih hbs
      | ok w =>
        rw [hbs] at h
        cases h

theorem feedFrame_refusal {bs : List Byte} (h : feedFrame bs s = .refused r) : r.OfOperand := by
  rw [feedAll_refusal (orRefuse_refused h)]
  trivial

/-- An instruction refuses only its operands (R317). -/
theorem exec_refusal {i : Instr} (h : exec i s = .refused r) : r.OfOperand := by
  cases i with
  | frameHsRaw | frameStd => exact feedFrame_refusal h
  | tagRawGyro => exact selectAndRun_refusal (q := tagRoutine s.cfg Config.tagRawGyro) h
  | tagHsRaw => exact selectAndRun_refusal (q := tagRoutine s.cfg Config.tagHsRaw) h
  | tagReservedFd | tagReservedFf | dispatch => exact selectAndRun_refusal h
  | decU16Be | decS16Be | decU24Be | decS24Be | decU32Be | decS32Be | decU64Be | decS64Be
  | decU16Le | decS16Le | decU24Le | decS24Le | decU32Le | decS32Le | decU64Le | decS64Le =>
    exact decodeField_refusal h
  | enc16Be | enc24Be | enc32Be | enc64Be | enc16Le | enc24Le | enc32Le | enc64Le
  | encF32Be | encF32Le | encF64Be | encF64Le => exact encodeField_refusal h
  | roundU8 | roundS8 | roundU16 | roundS16 | roundU24 | roundS24 | roundU32 | roundS32 =>
    exact roundTo_refusal h
  | encodeFrame => exact execEncodeFrame_refusal h
  | feed =>
    rw [feedByte_refusal (orRefuse_refused h)]
    trivial
  | decF32 | decF64 | f32ToH16 | h16ToF32 | crc16Byte | crc16Block | reset => cases h

end Refusals

/-- The codes without an operation (R101): R102 leaves out 0x2A to 0x2F and ends at 0x33. -/
theorem operationAt_eq_none (c : BitVec 6) :
    operationAt c.toNat = none ↔ (42 ≤ c.toNat ∧ c.toNat ≤ 47) ∨ 52 ≤ c.toNat := by
  revert c
  decide

/-- A step refuses an operation code by name exactly where no operation has it. -/
theorem step_op_refused {s : State} {c : BitVec 6} {args : Operands} {rest : List Request}
    (hp : s.pending = .op c args :: rest) :
    step s = .refused (.undefinedOp c) ↔ operationAt c.toNat = none := by
  cases ho : operationAt c.toNat with
  | none => simp [step, fetch, hp, decode, decodeOp, ho, Except.map]
  | some i =>
    have hd : decode (Request.op c args).code = .ok (i, []) := by
      simp [decode, decodeOp, ho, Except.map]
    rw [(stepRunsDecoded s _ rest i [] hp hd).2]
    exact ⟨fun h => (exec_refusal h).elim, fun h => nomatch h⟩

/-- Settles O6: the codes without an operation, and `exec` refuses no code. -/
theorem undefinedCodesRefused : Obligations.UndefinedCodesRefused :=
  fun _ c _ _ hp => (step_op_refused hp).trans (operationAt_eq_none c)

/-! ## Runs of bytes in BUF -/

/-- Write bytes at consecutive indices. -/
def Memory.writeAll : (m : Memory) → (a : Nat) → (bs : List Byte) → Memory
  | m, _, [] => m
  | m, a, b :: bs => Memory.writeAll (Memory.write m a b) (a + 1) bs

/-- The bytes stand at their indices, and nothing else changed. -/
theorem Memory.read_writeAll (m : Memory) (a : Nat) (bs : List Byte) (k : Nat) :
    Memory.read (Memory.writeAll m a bs) k
      = if a ≤ k ∧ k < a + bs.length then bs[k - a]? else Memory.read m k := by
  induction bs generalizing m a with
  | nil =>
    have hk : ¬ (a ≤ k ∧ k < a + ([] : List Byte).length) := by simp
    rw [if_neg hk, Memory.writeAll]
  | cons b bs ih =>
    rw [Memory.writeAll, ih, Memory.read_write, List.length_cons]
    rcases Nat.lt_trichotomy k a with hk | rfl | hk
    · rw [if_neg (by omega), if_neg (by omega), if_neg (by omega)]
    · rw [if_neg (by omega), if_pos rfl, if_pos (by omega), Nat.sub_self, List.getElem?_cons_zero]
    · have hsub : k - a = k - (a + 1) + 1 := by omega
      rw [if_neg (show k ≠ a by omega), hsub, List.getElem?_cons_succ]
      exact if_congr (by omega) rfl rfl

theorem Memory.writeAll_append (m : Memory) (a : Nat) (as bs : List Byte) :
    Memory.writeAll m a (as ++ bs) = Memory.writeAll (Memory.writeAll m a as) (a + as.length) bs := by
  induction as generalizing m a with
  | nil => rfl
  | cons b as ih =>
    rw [List.cons_append, Memory.writeAll, ih, Memory.writeAll, List.length_cons, Nat.add_right_comm,
      Nat.add_assoc]

theorem Memory.byte_writeAll (m : Memory) {bs : List Byte} {k : Nat} (hk : k < bs.length) :
    Memory.byte (Memory.writeAll m 0 bs) k = bs[k] := by
  apply Memory.byte_of_read
  rw [Memory.read_writeAll, if_pos (by omega), Nat.sub_zero, List.getElem?_eq_getElem hk]

/-- MemRead of a part of the bytes written gives that part. -/
theorem Memory.bytes_writeAll (m : Memory) (as bs cs : List Byte) :
    Memory.bytes (Memory.writeAll m 0 (as ++ bs ++ cs)) as.length bs.length = bs := by
  apply Memory.bytes_eq
  intro i hi
  rw [Memory.byte_writeAll m (by simp only [List.length_append]; omega),
    List.getElem_append_left (by simp only [List.length_append]; omega), List.getElem_append_right (by omega)]
  simp

theorem Memory.bytes_two (m : Memory) (off : Nat) :
    Memory.bytes m off 2 = [Memory.byte m off, Memory.byte m (off + 1)] := rfl

/-! ## The image of a frame in BUF (R81, R227, R228)

The image of either frame is that of the ordinary frame: 13 stands where the high-speed raw frame sends no
length (R225). -/

section Image
variable (m : Memory) (typ : Byte) {payload : List Byte} (crc : BitVec 16)

/-- BUF with the image of a frame from index 0 on. -/
def frameImage (payload : List Byte) : Memory := Memory.writeAll m 0 (frameStdBytes typ payload crc)

/-- The bytes of an ordinary frame in front of its trailer (R228). -/
def coveredStd (payload : List Byte) : List Byte :=
  [Config.sync0Val, Config.sync1Val, typ, BitVec.ofNat 8 payload.length] ++ payload

@[simp] theorem length_coveredStd : (coveredStd typ payload).length = payload.length + 4 := by
  simp [coveredStd]

@[simp] theorem length_frameStdBytes : (frameStdBytes typ payload crc).length = payload.length + 6 := by
  simp [frameStdBytes]

/-- A length byte states the payload's length (R81). -/
theorem toNat_length (hlen : payload.length ≤ 255) :
    (BitVec.ofNat 8 payload.length).toNat = payload.length := by
  rw [BitVec.toNat_ofNat]
  omega

theorem frameImage_type : Memory.byte (frameImage m typ crc payload) 2 = typ := by
  rw [frameImage, Memory.byte_writeAll m (by simp)]
  rfl

theorem frameImage_length :
    Memory.byte (frameImage m typ crc payload) 3 = BitVec.ofNat 8 payload.length := by
  rw [frameImage, Memory.byte_writeAll m (by simp)]
  rfl

theorem frameImage_payload :
    Memory.bytes (frameImage m typ crc payload) 4 payload.length = payload :=
  Memory.bytes_writeAll m [Config.sync0Val, Config.sync1Val, typ, BitVec.ofNat 8 payload.length] payload
    (bytesBe 2 crc.toNat)

theorem frameImage_covered :
    Memory.bytes (frameImage m typ crc payload) 0 (payload.length + 4) = coveredStd typ payload := by
  have h := Memory.bytes_writeAll m [] (coveredStd typ payload) (bytesBe 2 crc.toNat)
  rwa [length_coveredStd] at h

theorem frameImage_header :
    Memory.bytes (frameImage m typ crc payload) 0 3 = [Config.sync0Val, Config.sync1Val, typ] :=
  Memory.bytes_writeAll m [] [Config.sync0Val, Config.sync1Val, typ]
    (BitVec.ofNat 8 payload.length :: (payload ++ bytesBe 2 crc.toNat))

/-- The trailer stands behind the payload (R227). -/
theorem frameImage_receivedCrc (hlen : payload.length ≤ 255) :
    receivedCrc (frameImage m typ crc payload) = crc := by
  have htrailer := Memory.bytes_writeAll m (coveredStd typ payload) (bytesBe 2 crc.toNat) []
  rw [List.append_nil, length_coveredStd, length_bytesBe, Memory.bytes_two, Nat.add_comm, bytesBe_two]
    at htrailer
  simp only [List.cons.injEq, and_true] at htrailer
  obtain ⟨hhi, hlo⟩ := htrailer
  rw [receivedCrc, frameImage_length, toNat_length hlen, frameImage, frameStdBytes, bytesBe_two, ← coveredStd,
    hhi, hlo, append_extract]

variable (table : Vector (BitVec 16) 16)

/-- The CRC of an ordinary frame is over everything in front of its trailer (R228). -/
theorem frameImage_expectedCrc_std (ht : typ ≠ Config.tagHsRaw) (hlen : payload.length ≤ 255) :
    expectedCrc table (frameImage m typ crc payload) = crcBlock table (coveredStd typ payload) := by
  rw [expectedCrc, frameImage_type, if_pos ht, frameImage_length, toNat_length hlen, frameImage_covered]

/-- The CRC of a high-speed raw frame leaves out the length, which was never sent (R228). -/
theorem frameImage_expectedCrc_hsRaw (hlen : payload.length = 13) :
    expectedCrc table (frameImage m Config.tagHsRaw crc payload)
      = crcBlock table ([Config.sync0Val, Config.sync1Val, Config.tagHsRaw] ++ payload) := by
  have hpayload := frameImage_payload m Config.tagHsRaw (payload := payload) crc
  rw [hlen] at hpayload
  rw [expectedCrc, frameImage_type, if_neg (not_not.2 rfl), frameImage_header, Config.hsRawLen, hpayload,
    crcBlock, ← crcFold_append]
  rfl

/-- The verdict on the image: its packet, where the trailer is the CRC expected (R229). -/
theorem validate_frameImage (hlen : payload.length ≤ 255) :
    validate table (frameImage m typ crc payload)
      = if crc = expectedCrc table (frameImage m typ crc payload) then
          some { typ := typ, len := BitVec.ofNat 8 payload.length, data := payload } else none := by
  rw [validate, frameImage_receivedCrc m typ crc hlen, frameImage_type, frameImage_length, toNat_length hlen,
    frameImage_payload]
  exact if_congr eq_comm rfl rfl

end Image

/-! ## A frame from stage SYNC0 (R221 to R226) -/

section Frame
variable {table : Vector (BitVec 16) 16} {f : Framer} {b : Byte}

/-- A byte of stage DATA with more to come is appended. -/
theorem feedByte_data_more (hs : f.stage = .data)
    (hidx : f.idx.toNat + 1 < (Memory.byte f.buf 3).toNat + 2) :
    feedByte table b f
      = .ok ({ f with buf := Memory.write f.buf (4 + f.idx.toNat) b, idx := f.idx + 1 }, none) := by
  have hn := (Memory.byte f.buf 3).isLt
  have hsucc : (f.idx + 1).toNat = f.idx.toNat + 1 := idx_succ_toNat (by omega)
  rw [feedByte_data hs, feedData_ok (by simp only [Config.bufCap]; omega), if_neg (by omega), hs]

/-- The last byte of stage DATA is appended, and the image is validated (R226). -/
theorem feedByte_data_last (hs : f.stage = .data)
    (hidx : f.idx.toNat + 1 = (Memory.byte f.buf 3).toNat + 2) :
    feedByte table b f
      = .ok ({ f with buf := Memory.write f.buf (4 + f.idx.toNat) b, idx := f.idx + 1, stage := .sync0 },
          validate table (Memory.write f.buf (4 + f.idx.toNat) b)) := by
  have hn := (Memory.byte f.buf 3).isLt
  have hsucc : (f.idx + 1).toNat = f.idx.toNat + 1 := idx_succ_toNat (by omega)
  rw [feedByte_data hs, feedData_ok (by simp only [Config.bufCap]; omega), if_pos (by omega)]

/-- The bytes that a frame in stage DATA still needs: all are appended, none before the last has a packet, and
the last gives the verdict. -/
theorem feedAll_data_rest {bs : List Byte} {k : Nat} (hs : f.stage = .data) (hk : bs.length = k + 1)
    (hend : f.idx.toNat + bs.length = (Memory.byte f.buf 3).toNat + 2) :
    feedAll table bs f
      = .ok ({ f with stage := .sync0, idx := BitVec.ofNat 9 (f.idx.toNat + bs.length),
                      buf := Memory.writeAll f.buf (4 + f.idx.toNat) bs },
          List.replicate k none ++ [validate table (Memory.writeAll f.buf (4 + f.idx.toNat) bs)]) := by
  have hn := (Memory.byte f.buf 3).isLt
  induction bs generalizing f k with
  | nil => cases hk
  | cons b bs ih =>
    rw [List.length_cons] at hk hend
    have hsucc : (f.idx + 1).toNat = f.idx.toNat + 1 := idx_succ_toNat (by omega)
    cases bs with
    | nil =>
      obtain rfl : k = 0 := by simpa using hk.symm
      have hidx : f.idx + 1 = BitVec.ofNat 9 (f.idx.toNat + 1) := by
        rw [← hsucc, BitVec.ofNat_toNat, BitVec.setWidth_eq]
      rw [feedAll_cons (feedByte_data_last hs hend), hidx]
      rfl
    | cons c cs =>
      rw [List.length_cons] at hk hend
      obtain ⟨j, rfl⟩ : ∃ j, k = j + 1 := ⟨cs.length, by omega⟩
      have h3 : Memory.byte (Memory.write f.buf (4 + f.idx.toNat) b) 3 = Memory.byte f.buf 3 :=
        Memory.byte_write_other _ b (by omega)
      have hstep := ih (f := { f with buf := Memory.write f.buf (4 + f.idx.toNat) b, idx := f.idx + 1 })
        (k := j) hs (by simp only [List.length_cons]; omega)
        (by simp only [List.length_cons, h3, hsucc]; omega) (by simp only [h3]; omega)
      rw [feedAll_cons (feedByte_data_more hs (by omega)), hstep]
      simp only [Except.map, hsucc, Memory.writeAll, List.length_cons, List.replicate_succ, List.cons_append,
        Nat.add_assoc, Nat.add_comm 1]

/-- The three header bytes bring the framer from stage SYNC0 to stage LEN (R221 to R223). -/
theorem feedAll_header (hs : f.stage = .sync0) (typ : Byte) :
    feedAll table [Config.sync0Val, Config.sync1Val, typ] f
      = .ok ({ f with stage := .len, idx := 0,
                      buf := Memory.writeAll f.buf 0 [Config.sync0Val, Config.sync1Val, typ] },
          List.replicate 3 none) := by
  rw [feedAll_cons (feedByte_sync0_match hs), feedAll_cons (feedByte_sync1_match rfl),
    feedAll_cons (feedByte_type rfl)]
  rfl

/-- The Framer State once the length `n` of a frame is known (R224, R225). -/
def Framer.entered (f : Framer) (typ n : Byte) (oversize : Bool) : Framer where
  stage := .data
  idx := 0
  buf := Memory.writeAll f.buf 0 [Config.sync0Val, Config.sync1Val, typ, n]
  oversize := oversize

/-- The Framer State after a whole frame: its image stands in BUF. -/
def Framer.afterFrame (f : Framer) (typ : Byte) (payload : List Byte) (crc : BitVec 16) (oversize : Bool) :
    Framer where
  stage := .sync0
  idx := BitVec.ofNat 9 (payload.length + 2)
  buf := frameImage f.buf typ crc payload
  oversize := oversize

variable {typ : Byte} {payload : List Byte}

theorem Framer.afterFrame_idx (crc : BitVec 16) (o : Bool) (hlen : payload.length ≤ 255) :
    (f.afterFrame typ payload crc o).idx.toNat = payload.length + 2 := by
  rw [afterFrame, BitVec.toNat_ofNat]
  omega

theorem Framer.read_afterFrame (crc : BitVec 16) (o : Bool) (a : Nat) :
    Memory.read (f.afterFrame typ payload crc o).buf a
      = if a < payload.length + 6 then (frameStdBytes typ payload crc)[a]? else Memory.read f.buf a := by
  rw [afterFrame, frameImage, Memory.read_writeAll, length_frameStdBytes]
  simp

/-- Payload and trailer complete the image in BUF. -/
theorem feedAll_body (hlen : payload.length ≤ 255) (crc : BitVec 16) (o : Bool) :
    feedAll table (payload ++ bytesBe 2 crc.toNat) (f.entered typ (BitVec.ofNat 8 payload.length) o)
      = .ok (f.afterFrame typ payload crc o,
          List.replicate (payload.length + 1) none ++ [validate table (frameImage f.buf typ crc payload)]) := by
  have himage : frameImage f.buf typ crc payload = Memory.writeAll
      (f.entered typ (BitVec.ofNat 8 payload.length) o).buf 4 (payload ++ bytesBe 2 crc.toNat) := by
    rw [frameImage, frameStdBytes, List.append_assoc]
    exact Memory.writeAll_append f.buf 0 _ _
  have h3 : (Memory.byte (f.entered typ (BitVec.ofNat 8 payload.length) o).buf 3).toNat = payload.length := by
    rw [Framer.entered, Memory.byte_writeAll _ (by simp)]
    exact toNat_length hlen
  have hbody : (payload ++ bytesBe 2 crc.toNat).length = payload.length + 2 := by simp
  have hzero : (f.entered typ (BitVec.ofNat 8 payload.length) o).idx.toNat = 0 := rfl
  have hrest := feedAll_data_rest (table := table) rfl hbody (by rw [h3, hzero, hbody, Nat.zero_add])
  rw [hrest, hzero, Nat.zero_add, hbody, Framer.afterFrame, himage]
  rfl

/-- The length byte of an ordinary frame is stored, and latches OVERSIZE (R224). -/
theorem feedAll_length_std (hs : f.stage = .sync0) (ht : typ ≠ Config.tagHsRaw) (n : Byte) :
    feedAll table [Config.sync0Val, Config.sync1Val, typ, n] f
      = .ok (f.entered typ n (oversizeAfter f.oversize n), List.replicate 4 none) := by
  have hheader := feedAll_append (bs := [n]) (feedAll_header (table := table) hs typ)
  rw [List.cons_append, List.cons_append, List.cons_append, List.nil_append] at hheader
  rw [hheader, feedAll_cons (feedByte_len_std rfl (by rwa [Memory.byte_writeAll _ (by simp)]))]
  rfl

/-- In stage LEN of the elided type the length 13 is stored, and the byte is taken as in stage DATA (R225). -/
theorem feedAll_elided (hs : f.stage = .len) (ht : Memory.byte f.buf 2 = Config.tagHsRaw) (bs : List Byte) :
    feedAll table (b :: bs) f = feedAll table (b :: bs)
      { f with stage := .data, buf := Memory.write f.buf 3 (BitVec.ofNat 8 Config.hsRawLen) } := by
  have hbyte : feedByte table b f = feedByte table b
      { f with stage := .data, buf := Memory.write f.buf 3 (BitVec.ofNat 8 Config.hsRawLen) } := by
    rw [feedByte_len_hsRaw hs ht, feedByte_data rfl]
    rfl
  rw [feedAll, feedAll, hbyte]

/-- An ordinary frame from stage SYNC0: nothing is emitted before its last byte, and the verdict there. -/
theorem feedAll_frameStd (hs : f.stage = .sync0) (ht : typ ≠ Config.tagHsRaw) (hlen : payload.length ≤ 255)
    (crc : BitVec 16) :
    feedAll table (frameStdBytes typ payload crc) f
      = .ok (f.afterFrame typ payload crc (f.oversize || decide (Config.maxPayload < payload.length)),
          List.replicate (payload.length + 5) none ++
            [if crc = crcBlock table (coveredStd typ payload) then
              some { typ := typ, len := BitVec.ofNat 8 payload.length, data := payload } else none]) := by
  rw [frameStdBytes, List.append_assoc, feedAll_append (feedAll_length_std hs ht _), feedAll_body hlen,
    validate_frameImage _ _ _ _ hlen, frameImage_expectedCrc_std _ _ _ _ ht hlen, oversizeAfter,
    toNat_length hlen, Except.map, ← List.append_assoc, List.replicate_append_replicate, Nat.add_comm 4]

/-- A high-speed raw frame from stage SYNC0: the same, with the length 13 that was not sent. -/
theorem feedAll_frameHsRaw (hs : f.stage = .sync0) (hlen : payload.length = 13) (crc : BitVec 16) :
    feedAll table (frameHsRawBytes payload crc) f
      = .ok (f.afterFrame Config.tagHsRaw payload crc f.oversize,
          List.replicate 17 none ++
            [if crc = crcBlock table ([Config.sync0Val, Config.sync1Val, Config.tagHsRaw] ++ payload) then
              some { typ := Config.tagHsRaw, len := 13, data := payload } else none]) := by
  have hheader := feedAll_header (table := table) hs Config.tagHsRaw
  have ht : Memory.byte (Memory.writeAll f.buf 0 [Config.sync0Val, Config.sync1Val, Config.tagHsRaw]) 2
      = Config.tagHsRaw := Memory.byte_writeAll _ (by simp)
  have hshort : payload.length ≤ 255 := by omega
  have hbody := feedAll_body (table := table) (f := f) (typ := Config.tagHsRaw) hshort crc f.oversize
  rw [validate_frameImage _ _ _ _ hshort, frameImage_expectedCrc_hsRaw _ _ _ hlen, hlen] at hbody
  cases payload with
  | nil => cases hlen
  | cons b bs =>
    rw [frameHsRawBytes, List.append_assoc, feedAll_append hheader, List.cons_append, feedAll_elided rfl ht]
    change (feedAll table (b :: bs ++ _) (f.entered Config.tagHsRaw (BitVec.ofNat 8 13) f.oversize)).map _ = _
    rw [hbody, Except.map, ← List.append_assoc, List.replicate_append_replicate]
    rfl

end Frame

/-! ## The frame rows from stage SYNC0 (R238) -/

/-- A frame row is FEED of its wire bytes. -/
theorem exec_frame_next {i : Instr} {s : State} {bs : List Byte} {g : Framer} {ps : List (Option Packet)}
    (hc : encode i = .wire bs) (hf : feedAll s.cfg.crcTable bs s.framer = .ok (g, ps)) :
    exec i s = .next ((s.withFramer g).withOut (.stream ps)) := by
  rw [(exec_of_encode_wire hc s).2, feedFrame, hf, orRefuse_ok]

/-- Settles O38: a frame row is FEED of its bytes, which completes in every state of the invariant. -/
theorem framesFeedInAnyStage : Obligations.FramesFeedInAnyStage := by
  intro s i bs hs hc
  obtain ⟨g, ps, hf⟩ := Framer.feedAll_completes (table := s.cfg.crcTable) bs hs
  exact ⟨g, ps, exec_frame_next hc hf, hf, Framer.inv_feedAll hs hf⟩

/-- Settles O36: header, length, payload and trailer in turn, and the verdict on the image. -/
theorem ordinaryFrameOutcome : Obligations.OrdinaryFrameOutcome := by
  intro s typ payload crc hs hi
  obtain ⟨ht, hlen⟩ := wellFormed_frameStd.1 hi
  exact ⟨_, exec_frame_next rfl (feedAll_frameStd hs ht hlen crc), rfl, Framer.afterFrame_idx crc _ hlen, rfl,
    Framer.read_afterFrame crc _⟩

/-- Settles O37: header, payload and trailer in turn; the image has the length that was not sent. -/
theorem highSpeedFrameOutcome : Obligations.HighSpeedFrameOutcome := by
  intro s payload crc hs hi
  have hlen := wellFormed_frameHsRaw.1 hi
  refine ⟨_, exec_frame_next rfl (feedAll_frameHsRaw hs hlen crc), rfl, ?_, rfl, fun a => ?_⟩
  · rw [Framer.afterFrame_idx crc _ (by omega), hlen]
  · rw [Framer.read_afterFrame, frameStdBytes, hlen]
    rfl

end Sys2Proof.Machine
end

section
/-! # Integer fields (`40_byteorder_int.md`)

The twenty-four integer operations are eight fields: a width and a byte order each, with one encoder and two
decoders (`IntField`). Each statement is proved once for every such field, from the value of the field's bytes
(`ByteOrder.value_slice`) and their places (`ByteOrder.byteNum_bytes`). -/

namespace Sys2Proof.Machine
open Sys2Proof.Claims

/-! ## The number of a run of bytes (R121, R122) -/

/-- The number of the `n` bytes at `o` in an order, as the statements sum it. -/
def ByteOrder.sum : ByteOrder → List Byte → (o n : Nat) → Nat
  | .be => beSum
  | .le => leSum

/-- The first byte is the most significant one. -/
theorem beSum_succ (buf : List Byte) (o n : Nat) :
    beSum buf o (n + 1) = byteNum buf o * 256 ^ n + beSum buf (o + 1) n := by
  have hplace : ∀ i, n + 1 - 1 - (i + 1) = n - 1 - i := by omega
  simp_rw [beSum, Finset.sum_range_succ', hplace, add_assoc, add_comm 1]
  simp [pow_mul, add_comm]

/-- The first byte is the least significant one. -/
theorem leSum_succ (buf : List Byte) (o n : Nat) :
    leSum buf o (n + 1) = leSum buf (o + 1) n * 256 + byteNum buf o := by
  simp only [leSum, Finset.sum_range_succ', Finset.sum_mul, mul_add, pow_add, add_assoc, add_comm 1]
  simp [mul_assoc]

/-- A run of bytes within the buffer: its first byte, then the rest. -/
theorem slice_succ {buf : List Byte} {o n : Nat} (h : o + (n + 1) ≤ buf.length) :
    ∃ b, b.toNat = byteNum buf o ∧
      (buf.drop o).take (n + 1) = b :: (buf.drop (o + 1)).take n := by
  have ho : o < buf.length := by omega
  exact ⟨buf[o], by simp [byteNum, ho], by rw [List.drop_eq_getElem_cons ho, List.take_succ_cons]⟩

/-- The value of a run of bytes is its sum by weights, whichever end comes first. -/
theorem ByteOrder.value_slice (order : ByteOrder) {buf : List Byte} {o n : Nat} (h : o + n ≤ buf.length) :
    order.value ((buf.drop o).take n) = order.sum buf o n := by
  induction n generalizing o with
  | zero => cases order <;> simp [sum, beSum, leSum]
  | succ n ih =>
    obtain ⟨b, hb, hslice⟩ := slice_succ h
    have hlen : ((buf.drop (o + 1)).take n).length = n := by simp; omega
    have ih := ih (o := o + 1) (by omega)
    rw [hslice]
    cases order with
    | be =>
      rw [value_be] at ih ⊢
      rw [beValue_cons, hlen, hb, ih]
      exact (beSum_succ buf o n).symm
    | le =>
      rw [value_le] at ih ⊢
      rw [leValue_cons, hb, ih]
      exact (leSum_succ buf o n).symm

/-- The value of some bytes fits their number. -/
theorem ByteOrder.value_lt (order : ByteOrder) (bs : List Byte) : order.value bs < 256 ^ bs.length := by
  cases order with
  | be => exact beValue_lt bs
  | le => simpa [leValue] using beValue_lt bs.reverse

theorem ByteOrder.sum_lt (order : ByteOrder) {buf : List Byte} {o n : Nat} (h : o + n ≤ buf.length) :
    order.sum buf o n < 256 ^ n := by
  have hlen : ((buf.drop o).take n).length = n := by simp; omega
  have hlt := order.value_lt ((buf.drop o).take n)
  rwa [order.value_slice h, hlen] at hlt

/-! ## The bytes of a number (R141) -/

/-- The place of byte `k` of `n` in an order, as the statements name it. -/
def ByteOrder.place : ByteOrder → (n k : Nat) → Nat
  | .be => bePlace
  | .le => fun _ => lePlace

theorem ByteOrder.place_lt (order : ByteOrder) {n k : Nat} (h : k < n) : order.place n k < n := by
  cases order with
  | be => simp only [place, bePlace]; omega
  | le => exact h

theorem getElem?_bytesBe {n k : Nat} (p : Nat) (h : k < n) :
    (bytesBe n p)[k]? = some (BitVec.ofNat 8 (p / 256 ^ (n - 1 - k))) := by
  induction n generalizing k with
  | zero => omega
  | succ n ih =>
    cases k with
    | zero => rfl
    | succ k =>
      rw [bytesBe, List.getElem?_cons_succ, ih (by omega), show n + 1 - 1 - (k + 1) = n - 1 - k by omega]

/-- Byte `k` of a number's bytes is the number's digit at its place. -/
theorem ByteOrder.getElem?_bytes (order : ByteOrder) {n k : Nat} (p : Nat) (h : k < n) :
    (order.bytes n p)[k]? = some (BitVec.ofNat 8 (p / 256 ^ order.place n k)) := by
  cases order with
  | be => exact getElem?_bytesBe p h
  | le =>
    change (bytesBe n p).reverse[k]? = some (BitVec.ofNat 8 (p / 256 ^ k))
    rw [List.getElem?_reverse (by simpa using h), length_bytesBe, getElem?_bytesBe p (by omega),
      show n - 1 - (n - 1 - k) = k by omega]

/-- A digit below the field's end is that of the number before it was cut to the field. -/
theorem emod_ediv_emod_digit (v : Int) {n j : Nat} (h : j < n) :
    v % 256 ^ n / 256 ^ j % 256 = v / 256 ^ j % 256 := by
  obtain ⟨d, rfl⟩ := Nat.exists_eq_add_of_lt h
  have hcut : v % 256 ^ (j + d + 1) = v + 256 ^ j * (256 * -(256 ^ d * (v / 256 ^ (j + d + 1)))) := by
    rw [Int.emod_def]
    ring
  rw [hcut, Int.add_mul_ediv_left _ _ (by positivity), Int.add_mul_emod_self_left]

/-! ## Patterns of a field (R123, R141) -/

theorem toNat_ofNat_field {n u : Nat} (h : u < 256 ^ n) : (BitVec.ofNat (8 * n) u).toNat = u := by
  rw [BitVec.toNat_ofNat, pow_mul]
  exact Nat.mod_eq_of_lt h

/-- The two's complement value of a field's pattern is `signed_N` of its number. -/
theorem toInt_ofNat_field {n u : Nat} (hn : 0 < n) (h : u < 256 ^ n) :
    (BitVec.ofNat (8 * n) u).toInt = signedOf (8 * n) u := by
  have hhalf : 2 ^ (8 * n) = 2 * 2 ^ (8 * n - 1) := by rw [← pow_succ', Nat.sub_add_cancel (by omega)]
  rw [BitVec.toInt_eq_toNat_cond, toNat_ofNat_field h, signedOf]
  by_cases hu : 2 ^ (8 * n - 1) ≤ u
  · rw [if_neg (by omega), if_pos hu]
    norm_cast
  · rw [if_pos (by omega), if_neg hu]

/-- The pattern of a number cut to a field is that of the number (R141). -/
theorem ofNat_truncateTo (n : Nat) (v : Int) :
    BitVec.ofNat (8 * n) (truncateTo n v) = BitVec.ofInt (8 * n) v := by
  apply BitVec.eq_of_toNat_eq
  rw [toNat_ofNat_field (truncateTo_lt n v), BitVec.toNat_ofInt, truncateTo, pow_mul]
  norm_cast

/-- A number that fits a field is kept whole. -/
theorem truncateTo_of_lt {n u : Nat} (h : u < 256 ^ n) : truncateTo n u = u := by
  unfold truncateTo
  norm_cast
  exact Nat.mod_eq_of_lt h

/-! ## What any encoder does -/

/-- An operation that writes a field of `v mod 256^n` at the operand offset encodes `v`. -/
theorem encodes_of_encodeField {i : Instr} {c : BitVec 6} {order : ByteOrder} {n : Nat} {p : State → Nat}
    {v : State → Int} (hc : HasCode i c) (hexec : ∀ s, exec i s = encodeField order n (p s) s)
    (hv : ∀ s, (p s : Int) = v s % 256 ^ n) : Encodes i c n v (order.place n) := by
  refine ⟨hc, fun s => ⟨fun hin => ?_, fun hout => (hexec s).trans (encodeField_refused hout)⟩⟩
  obtain ⟨b, hwrite, henc⟩ := encodeField_next (o := order) (p := p s) hin
  obtain ⟨-, hlen, hbytes, hrest⟩ := memWrite_spec hwrite
  rw [ByteOrder.length_bytes] at hbytes hrest
  refine ⟨b, (hexec s).trans henc, hlen, fun k hk => ?_, hrest⟩
  have hdigit : byteNum b (s.port.off + k) = p s / 256 ^ order.place n k % 256 := by
    rw [byteNum, List.getD_eq_getElem?_getD, hbytes k hk, order.getElem?_bytes _ hk]
    exact BitVec.toNat_ofNat _ _
  calc (byteNum b (s.port.off + k) : Int)
      = v s % 256 ^ n / 256 ^ order.place n k % 256 := by rw [hdigit, ← hv s]; norm_cast
    _ = v s / 256 ^ order.place n k % 256 := emod_ediv_emod_digit _ (order.place_lt hk)

/-- A decoder at the offset of an encoder that answered reads the number cut to the field. -/
theorem decodeField_after_encodeField {order : ByteOrder} {n : Nat} {v : Int} {s t : State}
    (h : encodeField order n (truncateTo n v) s = .next t) (mk : Nat → Result) :
    decodeField order n mk t = .next (t.withOut (mk (truncateTo n v))) := by
  obtain ⟨b, hwrite, rfl⟩ := encodeField_inv h
  have hread := memRead_memWrite hwrite
  rw [ByteOrder.length_bytes] at hread
  simp [decodeField, readField, hread, ByteOrder.value_bytes, Nat.mod_eq_of_lt (truncateTo_lt n v)]

/-- An encoder given the number of the field at its offset writes the bytes already there. -/
theorem encodeField_value_slice {order : ByteOrder} {n : Nat} {s : State}
    (h : s.port.off + n ≤ s.port.buf.length) :
    encodeField order n (order.value ((s.port.buf.drop s.port.off).take n)) s
      = .next (s.withOut (.count n)) := by
  have hread := memRead_eq_some.2 ⟨h, rfl⟩
  have hbytes := order.bytes_value ((s.port.buf.drop s.port.off).take n)
  rw [memRead_length hread] at hbytes
  rw [encodeField, writeField, hbytes, memWrite_memRead hread]
  rfl

/-! ## The integer fields -/

/-- A field of `n` bytes in one order: its encoder and its two decoders, whose results of `w` bits are the
field's pattern, zero- or sign-extended (R86). -/
structure IntField (order : ByteOrder) (n : Nat) {w : Nat} (enc decU decS : Instr)
    (mkU mkS : BitVec w → Result) : Prop where
  exec_enc : ∀ s, exec enc s = encodeField order n (truncateTo n s.port.val) s
  exec_decU : ∀ s, exec decU s = decodeField order n (fun u => mkU ((BitVec.ofNat (8 * n) u).setWidth w)) s
  exec_decS : ∀ s, exec decS s = decodeField order n (fun u => mkS ((BitVec.ofNat (8 * n) u).signExtend w)) s
  mkU_injective : Function.Injective mkU
  bytes_pos : 0 < n
  width_le : 8 * n ≤ w

/-- A field whose pattern is its result: nothing is extended. -/
theorem IntField.of_fullWidth {order : ByteOrder} {n : Nat} {enc decU decS : Instr}
    {mkU mkS : BitVec (8 * n) → Result} (hn : 0 < n) (hinj : Function.Injective mkU)
    (henc : ∀ s, exec enc s = encodeField order n (truncateTo n s.port.val) s)
    (hdecU : ∀ s, exec decU s = decodeField order n (fun u => mkU (BitVec.ofNat (8 * n) u)) s)
    (hdecS : ∀ s, exec decS s = decodeField order n (fun u => mkS (BitVec.ofNat (8 * n) u)) s) :
    IntField order n enc decU decS mkU mkS where
  exec_enc := henc
  exec_decU := by simpa using hdecU
  exec_decS := by simpa [BitVec.signExtend_eq] using hdecS
  mkU_injective := hinj
  bytes_pos := hn
  width_le := le_rfl

theorem intField16Be : IntField .be 2 .enc16Be .decU16Be .decS16Be .u16 .s16 :=
  .of_fullWidth (by decide) (fun _ _ => Result.u16.inj) (fun _ => rfl) (fun _ => rfl) fun _ => rfl

theorem intField32Be : IntField .be 4 .enc32Be .decU32Be .decS32Be .u32 .s32 :=
  .of_fullWidth (by decide) (fun _ _ => Result.u32.inj) (fun _ => rfl) (fun _ => rfl) fun _ => rfl

theorem intField64Be : IntField .be 8 .enc64Be .decU64Be .decS64Be .u64 .s64 :=
  .of_fullWidth (by decide) (fun _ _ => Result.u64.inj) (fun _ => rfl) (fun _ => rfl) fun _ => rfl

theorem intField16Le : IntField .le 2 .enc16Le .decU16Le .decS16Le .u16 .s16 :=
  .of_fullWidth (by decide) (fun _ _ => Result.u16.inj) (fun _ => rfl) (fun _ => rfl) fun _ => rfl

theorem intField32Le : IntField .le 4 .enc32Le .decU32Le .decS32Le .u32 .s32 :=
  .of_fullWidth (by decide) (fun _ _ => Result.u32.inj) (fun _ => rfl) (fun _ => rfl) fun _ => rfl

theorem intField64Le : IntField .le 8 .enc64Le .decU64Le .decS64Le .u64 .s64 :=
  .of_fullWidth (by decide) (fun _ _ => Result.u64.inj) (fun _ => rfl) (fun _ => rfl) fun _ => rfl

/-- A 24-bit field is extended to a 32-bit result (R127, R128). -/
theorem intField24Be : IntField .be 3 .enc24Be .decU24Be .decS24Be .u32 .s32 :=
  ⟨fun _ => rfl, fun _ => rfl, fun _ => rfl, fun _ _ => Result.u32.inj, by decide, by decide⟩

/-- A 24-bit field is extended to a 32-bit result (R135, R136). -/
theorem intField24Le : IntField .le 3 .enc24Le .decU24Le .decS24Le .u32 .s32 :=
  ⟨fun _ => rfl, fun _ => rfl, fun _ => rfl, fun _ _ => Result.u32.inj, by decide, by decide⟩

/-! ## What the operations of a field do -/

section Fields
variable {order : ByteOrder} {n w : Nat} {enc decU decS : Instr} {mkU mkS : BitVec w → Result}

theorem IntField.decodesUnsigned (hf : IntField order n enc decU decS mkU mkS) {c : BitVec 6}
    (hc : HasCode decU c) : DecodesUnsigned decU c n order.sum mkU := by
  refine ⟨hc, fun s => ⟨fun hin => ⟨_, (hf.exec_decU s).trans (decodeField_next hin), ?_⟩,
    fun hout => (hf.exec_decU s).trans (decodeField_refused hout)⟩⟩
  rw [order.value_slice hin, BitVec.toNat_setWidth_of_le hf.width_le, toNat_ofNat_field (order.sum_lt hin)]

theorem IntField.decodesSigned (hf : IntField order n enc decU decS mkU mkS) {c : BitVec 6}
    (hc : HasCode decS c) : DecodesSigned decS c n order.sum mkS := by
  refine ⟨hc, fun s => ⟨fun hin => ⟨_, (hf.exec_decS s).trans (decodeField_next hin), ?_⟩,
    fun hout => (hf.exec_decS s).trans (decodeField_refused hout)⟩⟩
  rw [order.value_slice hin, BitVec.toInt_signExtend_of_le hf.width_le,
    toInt_ofNat_field hf.bytes_pos (order.sum_lt hin)]

theorem IntField.encodes (hf : IntField order n enc decU decS mkU mkS) {c : BitVec 6} (hc : HasCode enc c) :
    Encodes enc c n (·.port.val) (order.place n) :=
  encodes_of_encodeField hc hf.exec_enc fun s => truncateTo_cast n s.port.val

/-- Decoding what was encoded gives its low bits, unsigned and signed (R150). -/
theorem IntField.decode_encode (hf : IntField order n enc decU decS mkU mkS) {s t : State}
    (h : exec enc s = .next t) :
    exec decU t = .next (t.withOut (mkU ((BitVec.ofInt (8 * n) s.port.val).setWidth w))) ∧
      exec decS t = .next (t.withOut (mkS ((BitVec.ofInt (8 * n) s.port.val).signExtend w))) := by
  rw [hf.exec_enc] at h
  rw [hf.exec_decU, hf.exec_decS, decodeField_after_encodeField h, decodeField_after_encodeField h,
    ofNat_truncateTo]
  exact ⟨rfl, rfl⟩

/-- Encoding the number that was decoded writes the bytes it was decoded from (R150). -/
theorem IntField.encode_decode (hf : IntField order n enc decU decS mkU mkS) {s t : State} (v : BitVec w)
    (h : exec decU s = .next t) (hout : t.out = mkU v) (hval : s.port.val = v.toNat) :
    exec enc s = .next (s.withOut (.count n)) := by
  rw [hf.exec_decU] at h
  obtain ⟨hin, rfl⟩ := decodeField_inv h
  have hlt := order.value_slice hin ▸ order.sum_lt hin
  obtain rfl := hf.mkU_injective hout
  rw [BitVec.toNat_setWidth_of_le hf.width_le, toNat_ofNat_field hlt] at hval
  rw [hf.exec_enc, hval, truncateTo_of_lt hlt, encodeField_value_slice hin]

end Fields

/-! ## The statements -/

/-- Settles O10: the value of a field's bytes, which its zero extension keeps. -/
theorem unsignedDecodeBigEndian : Obligations.UnsignedDecodeBigEndian :=
  ⟨intField16Be.decodesUnsigned rfl, intField24Be.decodesUnsigned rfl, intField32Be.decodesUnsigned rfl,
    intField64Be.decodesUnsigned rfl⟩

/-- Settles O11: the two's complement value of a field's pattern, which its sign extension keeps. -/
theorem signedDecodeBigEndian : Obligations.SignedDecodeBigEndian :=
  ⟨intField16Be.decodesSigned rfl, intField24Be.decodesSigned rfl, intField32Be.decodesSigned rfl,
    intField64Be.decodesSigned rfl⟩

/-- Settles O12: as O10, with the first byte the least significant. -/
theorem unsignedDecodeLittleEndian : Obligations.UnsignedDecodeLittleEndian :=
  ⟨intField16Le.decodesUnsigned rfl, intField24Le.decodesUnsigned rfl, intField32Le.decodesUnsigned rfl,
    intField64Le.decodesUnsigned rfl⟩

/-- Settles O13: as O11, with the first byte the least significant. -/
theorem signedDecodeLittleEndian : Obligations.SignedDecodeLittleEndian :=
  ⟨intField16Le.decodesSigned rfl, intField24Le.decodesSigned rfl, intField32Le.decodesSigned rfl,
    intField64Le.decodesSigned rfl⟩

/-- Settles O14: the bytes of `v mod 256^n` by their places, and MemWrite's frame. -/
theorem encodeBigEndian : Obligations.EncodeBigEndian :=
  ⟨intField16Be.encodes rfl, intField24Be.encodes rfl, intField32Be.encodes rfl, intField64Be.encodes rfl⟩

/-- Settles O15: as O14, with the places rising. -/
theorem encodeLittleEndian : Obligations.EncodeLittleEndian :=
  ⟨intField16Le.encodes rfl, intField24Le.encodes rfl, intField32Le.encodes rfl, intField64Le.encodes rfl⟩

theorem decodeAfterEncode : DecodeAfterEncode :=
  fun _ _ => ⟨fun h => by simpa using intField16Be.decode_encode h, intField24Be.decode_encode,
    fun h => by simpa using intField32Be.decode_encode h, fun h => by simpa using intField64Be.decode_encode h,
    fun h => by simpa using intField16Le.decode_encode h, intField24Le.decode_encode,
    fun h => by simpa using intField32Le.decode_encode h, fun h => by simpa using intField64Le.decode_encode h⟩

theorem encodeAfterDecode : EncodeAfterDecode :=
  fun _ _ => ⟨intField16Be.encode_decode, intField24Be.encode_decode, intField32Be.encode_decode,
    intField64Be.encode_decode, intField16Le.encode_decode, intField24Le.encode_decode,
    intField32Le.encode_decode, intField64Le.encode_decode⟩

/-- Settles O17: the bytes of a number and the number of its bytes are inverse, in every field. -/
theorem fieldRoundTrips : Obligations.FieldRoundTrips := ⟨decodeAfterEncode, encodeAfterDecode⟩

end Sys2Proof.Machine
end

section
/-! # Floats (`41_byteorder_float.md`)

The statements speak of a pattern by the numbers of its fields, the model by bit ranges; the first part ties
the two and puts a pattern together from its fields. The 16-bit float is then arithmetic on three fields. A
rounding operand is tied to its exact rational value (`RealOperand.HasValue`), and the eight rounding helpers
are one helper over a range (`RoundHelper`). -/

namespace Sys2Proof.Machine
open Sys2Proof.Claims

/-! ## The fields of a pattern (R87, R88, R89) -/

theorem toNat_f32Exp (u : BitVec 32) : (f32Exp u).toNat = exp32 u := by
  simp [f32Exp, exp32, Nat.shiftRight_eq_div_pow]

theorem toNat_f32Mant (u : BitVec 32) : (f32Mant u).toNat = mant32 u := by
  simp [f32Mant, mant32]

theorem toNat_f64Exp (u : BitVec 64) : (f64Exp u).toNat = exp64 u := by
  simp [f64Exp, exp64, Nat.shiftRight_eq_div_pow]

theorem toNat_f64Mant (u : BitVec 64) : (f64Mant u).toNat = mant64 u := by
  simp [f64Mant, mant64]

/-- The top bit, as a number. -/
theorem toNat_msb {w : Nat} (u : BitVec (w + 1)) : u.msb.toNat = u.toNat / 2 ^ w := by
  have hlt : u.toNat < 2 ^ w * 2 := by rw [← pow_succ]; exact u.isLt
  have htwo : u.toNat / 2 ^ w < 2 := Nat.div_lt_of_lt_mul hlt
  rw [BitVec.msb_eq_decide, Nat.add_sub_cancel]
  by_cases h : 2 ^ w ≤ u.toNat
  · have := Nat.div_pos h (by positivity)
    simp only [h, decide_true, Bool.toNat_true]
    omega
  · simp [h, Nat.div_eq_of_lt (Nat.not_le.1 h)]

theorem toNat_msb32 (u : BitVec 32) : u.msb.toNat = sign32 u := toNat_msb u

theorem toNat_msb64 (u : BitVec 64) : u.msb.toNat = sign64 u := toNat_msb u

theorem mant32_lt (u : BitVec 32) : mant32 u < 2 ^ 23 := Nat.mod_lt _ (by decide)

/-- A binary32 pattern is its sign, its exponent and its mantissa. -/
theorem toNat_eq_fields32 (u : BitVec 32) :
    u.toNat = sign32 u * 2 ^ 31 + exp32 u * 2 ^ 23 + mant32 u := by
  unfold sign32 exp32 mant32
  omega

/-- The fields of a binary32 pattern put together from fields in their ranges. -/
theorem fields32_of_toNat {u : BitVec 32} {s e m : Nat} (he : e < 2 ^ 8) (hm : m < 2 ^ 23)
    (hu : u.toNat = s * 2 ^ 31 + e * 2 ^ 23 + m) : sign32 u = s ∧ exp32 u = e ∧ mant32 u = m := by
  unfold sign32 exp32 mant32
  omega

/-! ## Validation and decoding (R161 to R164) -/

theorem invalid32_iff (u : BitVec 32) : invalid32 u = true ↔ Invalid32 u := by
  simp [invalid32, Invalid32, ← BitVec.toNat_inj, toNat_f32Exp, toNat_f32Mant]

theorem invalid64_iff (u : BitVec 64) : invalid64 u = true ↔ Invalid64 u := by
  simp [invalid64, Invalid64, ← BitVec.toNat_inj, toNat_f64Exp, toNat_f64Mant]

theorem decodeF32_of_invalid {u : BitVec 32} (h : Invalid32 u) : decodeF32 u = (0x3F800000, true) := by
  simp [decodeF32, (invalid32_iff u).2 h, Config.floatSentinel32]

theorem decodeF32_of_valid {u : BitVec 32} (h : ¬ Invalid32 u) : decodeF32 u = (u, false) := by
  simp [decodeF32, mt (invalid32_iff u).1 h]

theorem decodeF64_of_invalid {u : BitVec 64} (h : Invalid64 u) :
    decodeF64 u = (0x3FF0000000000000, true) := by
  simp [decodeF64, (invalid64_iff u).2 h, Config.floatSentinel64]

theorem decodeF64_of_valid {u : BitVec 64} (h : ¬ Invalid64 u) : decodeF64 u = (u, false) := by
  simp [decodeF64, mt (invalid64_iff u).1 h]

theorem exec_decF32 (s : State) :
    exec .decF32 s = .next (s.withOut (.f32 (decodeF32 s.port.f32).1 (decodeF32 s.port.f32).2)) := rfl

theorem exec_decF64 (s : State) :
    exec .decF64 s = .next (s.withOut (.f64 (decodeF64 s.port.f64).1 (decodeF64 s.port.f64).2)) := rfl

/-- Settles O18: an INVALID pattern is replaced and flagged, every other one kept, in both formats. -/
theorem floatDecode : Obligations.FloatDecode := by
  refine ⟨⟨rfl, fun s => ⟨fun h => ?_, fun h => ?_⟩⟩, rfl, fun s => ⟨fun h => ?_, fun h => ?_⟩⟩
  · rw [exec_decF32, decodeF32_of_invalid h]
  · rw [exec_decF32, decodeF32_of_valid h]
  · rw [exec_decF64, decodeF64_of_invalid h]
  · rw [exec_decF64, decodeF64_of_valid h]

/-! ## Encoding a pattern (R165 to R169) -/

/-- A pattern of `n` bytes is kept whole by a field of `n` bytes. -/
theorem toNat_mod_field {n : Nat} (u : BitVec (8 * n)) : u.toNat % 256 ^ n = u.toNat :=
  Nat.mod_eq_of_lt (by simpa [pow_mul] using u.isLt)

/-- An encoder of a pattern of the field's width writes the pattern, whatever it is (R169). -/
theorem encodes_pattern {i : Instr} {c : BitVec 6} {order : ByteOrder} {n : Nat}
    {pattern : State → BitVec (8 * n)} (hc : HasCode i c)
    (hexec : ∀ s, exec i s = encodeField order n (pattern s).toNat s) :
    Encodes i c n (fun s => (pattern s).toNat) (order.place n) :=
  encodes_of_encodeField hc hexec fun s => by exact_mod_cast (toNat_mod_field (pattern s)).symm

/-- Settles O16: the float encoders are the integer encoders, given the pattern. -/
theorem encodeFloatPatterns : Obligations.EncodeFloatPatterns :=
  ⟨encodes_pattern (order := .be) (n := 4) rfl fun _ => rfl,
    encodes_pattern (order := .le) (n := 4) rfl fun _ => rfl,
    encodes_pattern (order := .be) (n := 8) rfl fun _ => rfl,
    encodes_pattern (order := .le) (n := 8) rfl fun _ => rfl⟩

/-- The field at the offset of an encoder that answered is the number it wrote, cut to the field. -/
theorem readField_after_encodeField {order : ByteOrder} {n p : Nat} {s t : State}
    (h : encodeField order n p s = .next t) :
    readField order t.port.buf t.port.off n = some (p % 256 ^ n) := by
  obtain ⟨b, hwrite, rfl⟩ := encodeField_inv h
  have hread := memRead_memWrite hwrite
  rw [ByteOrder.length_bytes] at hread
  simp [readField, hread, ByteOrder.value_bytes]

/-- DEC_F32_BE after ENC_F32_BE validates the pattern encoded. -/
theorem pseudoDecF32_after_encF32Be {s t : State} (h : exec .encF32Be s = .next t) :
    pseudoDecF32 .be t.port.buf t.port.off = some (decodeF32 s.port.f32) := by
  have hread : readField .be t.port.buf t.port.off 4 = some (s.port.f32.toNat % 256 ^ 4) :=
    readField_after_encodeField h
  rw [pseudoDecF32, hread, toNat_mod_field (n := 4)]
  simp

/-- Settles O19: the pattern is written unvalidated, and validated where it is read back. -/
theorem floatDecodeAfterEncode : Obligations.FloatDecodeAfterEncode := by
  intro s t h
  rw [pseudoDecF32_after_encF32Be h]
  exact ⟨fun hv => congrArg some (decodeF32_of_valid hv),
    fun hi => congrArg some (decodeF32_of_invalid hi)⟩

/-! ## The 16-bit float (R180 to R184) -/

theorem h16Exp_eq (h : BitVec 16) : h16Exp h = h.toNat / 2 ^ 9 % 2 ^ 6 := rfl

theorem h16Mant_eq (h : BitVec 16) : h16Mant h = h.toNat % 2 ^ 9 := rfl

theorem toNat_h16Pattern (neg : Bool) {e m : Nat} (he : e < 2 ^ 6) (hm : m < 2 ^ 9) :
    (h16Pattern neg e m).toNat = neg.toNat * 2 ^ 15 + e * 2 ^ 9 + m := by
  have := neg.toNat_lt
  simp only [h16Pattern, Config.h16ExpBits, Config.h16MantBits, BitVec.toNat_ofNat]
  omega

/-- The pattern of a signed zero. -/
theorem toNat_h16Pattern_zero (neg : Bool) : (h16Pattern neg 0 0).toNat = neg.toNat * 2 ^ 15 := by
  simp [toNat_h16Pattern]

theorem msb_of_toNat_eq {w : Nat} {u : BitVec w} {b : Bool} (h : u.msb.toNat = b.toNat) : u.msb = b :=
  Function.LeftInverse.injective Bool.ofNat_toNat h

/-- The fields of an H16 pattern put together from fields in their ranges. -/
theorem fields_h16Pattern (neg : Bool) {e m : Nat} (he : e < 2 ^ 6) (hm : m < 2 ^ 9) :
    (h16Pattern neg e m).msb = neg ∧ h16Exp (h16Pattern neg e m) = e ∧
      h16Mant (h16Pattern neg e m) = m := by
  have hp := toNat_h16Pattern neg he hm
  have hmsb := toNat_msb (h16Pattern neg e m)
  refine ⟨msb_of_toNat_eq (by omega), ?_, ?_⟩
  · rw [h16Exp_eq]
    omega
  · rw [h16Mant_eq]
    omega

/-- An H16 pattern is its sign, its exponent and its mantissa. -/
theorem h16Pattern_fields (h : BitVec 16) : h16Pattern h.msb (h16Exp h) (h16Mant h) = h := by
  have hmsb := toNat_msb h
  have he := h16Exp_eq h
  have hm := h16Mant_eq h
  apply BitVec.eq_of_toNat_eq
  rw [toNat_h16Pattern _ (by omega) (by omega)]
  omega

/-- An exponent field of at most 96 is flushed to zero (R181). -/
theorem f32ToH16_flush {u : BitVec 32} (h : exp32 u ≤ 96) : f32ToH16 u = h16Pattern u.msb 0 0 := by
  have hfield : ((exp32 u : Int) - Config.f32Bias + Config.h16Bias) < 1 := by
    simp only [Config.f32Bias, Config.h16Bias]
    omega
  simp [f32ToH16, toNat_f32Exp, hfield]

/-- Above 96 the exponent is rebiased, up to 63, and the mantissa truncated (R181). -/
theorem f32ToH16_truncate {u : BitVec 32} (h : 96 < exp32 u) :
    f32ToH16 u = h16Pattern u.msb (min (exp32 u - 96) 63) (mant32 u / 2 ^ 14) := by
  have hexp : f32Exp u ≠ 0 := fun h0 => by
    have := toNat_f32Exp u
    simp [h0] at this
    omega
  have hfield : (exp32 u : Int) - Config.f32Bias + Config.h16Bias = (exp32 u - 96 : Nat) := by
    simp only [Config.f32Bias, Config.h16Bias]
    omega
  simp only [f32ToH16, toNat_f32Exp, toNat_f32Mant, hfield, hexp, Config.h16MantBits, Config.h16ExpBits]
  rw [if_neg (by simp), if_neg (by omega)]
  by_cases hmost : 159 < exp32 u
  · rw [if_pos (by omega), Nat.min_eq_right (by omega)]
    rfl
  · rw [if_neg (by omega), Nat.min_eq_left (by omega), Int.toNat_natCast]

/-- What F32_TO_H16 answers, in plain arithmetic. -/
theorem toNat_f32ToH16 (u : BitVec 32) :
    (f32ToH16 u).toNat = sign32 u * 2 ^ 15 +
      if exp32 u ≤ 96 then 0 else min (exp32 u - 96) 63 * 2 ^ 9 + mant32 u / 2 ^ 14 := by
  have hm := mant32_lt u
  rw [← toNat_msb32]
  split_ifs with h
  · rw [f32ToH16_flush h, toNat_h16Pattern_zero, add_zero]
  · rw [f32ToH16_truncate (by omega), toNat_h16Pattern _ (by omega) (by omega), add_assoc]

/-- Settles O20: the least of the rebiased exponent and 63 is one of the statement's two cases above 96. -/
theorem narrowToH16 : Obligations.NarrowToH16 := by
  refine ⟨rfl, fun s => ⟨f32ToH16 s.port.f32, rfl, ?_⟩⟩
  rw [toNat_f32ToH16]
  split_ifs <;> omega

/-- What H16_TO_F32 answers, in plain arithmetic. -/
theorem toNat_h16ToF32 (h : BitVec 16) :
    (h16ToF32 h).toNat = h.msb.toNat * 2 ^ 31 +
      if h16Exp h = 0 then 0 else (h16Exp h + 96) * 2 ^ 23 + h16Mant h * 2 ^ 14 := by
  have := h.msb.toNat_lt
  have he := h16Exp_eq h
  have hm := h16Mant_eq h
  simp only [h16ToF32, Config.f32Bias, Config.h16Bias, Config.h16MantBits, BitVec.toNat_ofNat]
  split_ifs <;> omega

/-- Exponent field 0 is a signed zero (R183). -/
theorem fields_h16ToF32_zero {h : BitVec 16} (h0 : h16Exp h = 0) :
    sign32 (h16ToF32 h) = h.msb.toNat ∧ exp32 (h16ToF32 h) = 0 ∧ mant32 (h16ToF32 h) = 0 :=
  fields32_of_toNat (by decide) (by decide) (by simp [toNat_h16ToF32, h0])

/-- Every other exponent field is rebiased, and the mantissa gets 14 zero bits (R183). -/
theorem fields_h16ToF32_normal {h : BitVec 16} (h0 : h16Exp h ≠ 0) :
    sign32 (h16ToF32 h) = h.msb.toNat ∧ exp32 (h16ToF32 h) = h16Exp h + 96 ∧
      mant32 (h16ToF32 h) = h16Mant h * 2 ^ 14 := by
  have he := h16Exp_eq h
  have hm := h16Mant_eq h
  exact fields32_of_toNat (by omega) (by omega) (by simp [toNat_h16ToF32, h0, add_assoc])

theorem msb_h16ToF32 (h : BitVec 16) : (h16ToF32 h).msb = h.msb := by
  apply msb_of_toNat_eq
  rw [toNat_msb32]
  by_cases h0 : h16Exp h = 0
  · exact (fields_h16ToF32_zero h0).1
  · exact (fields_h16ToF32_normal h0).1

/-- The exponent field of a widened pattern is 0 with a mantissa of 0, or between 97 and 159. -/
theorem not_invalid32_h16ToF32 (h : BitVec 16) : ¬ Invalid32 (h16ToF32 h) := by
  have he := h16Exp_eq h
  unfold Invalid32
  by_cases h0 : h16Exp h = 0
  · obtain ⟨-, hexp, hmant⟩ := fields_h16ToF32_zero h0
    omega
  · obtain ⟨-, hexp, -⟩ := fields_h16ToF32_normal h0
    omega

/-- Settles O21: the pattern in plain arithmetic, and its exponent field, which is never 255. -/
theorem widenFromH16 : Obligations.WidenFromH16 :=
  ⟨rfl, fun s => ⟨h16ToF32 s.port.h16, rfl, not_invalid32_h16ToF32 _, by
    rw [toNat_h16ToF32, toNat_msb, h16Exp_eq, h16Mant_eq]⟩⟩

/-- Narrowing drops the 14 zero bits that widening appended (R184). -/
theorem f32ToH16_h16ToF32 {h : BitVec 16} (h0 : h16Exp h ≠ 0) : f32ToH16 (h16ToF32 h) = h := by
  have he := h16Exp_eq h
  obtain ⟨-, hexp, hmant⟩ := fields_h16ToF32_normal h0
  rw [f32ToH16_truncate (by omega), msb_h16ToF32, hexp, hmant, Nat.mul_div_cancel _ (by decide),
    Nat.add_sub_cancel, Nat.min_eq_left (by omega)]
  exact h16Pattern_fields h

/-- Of exponent field 0 only the sign comes back (R184). -/
theorem f32ToH16_h16ToF32_zero {h : BitVec 16} (h0 : h16Exp h = 0) :
    f32ToH16 (h16ToF32 h) = h &&& 0x8000 := by
  obtain ⟨-, hexp, -⟩ := fields_h16ToF32_zero h0
  have hsign : (h &&& 0x8000).toNat = h.msb.toNat * 2 ^ 15 := by
    rw [BitVec.toNat_and, show (0x8000 : BitVec 16).toNat = 2 ^ 15 from rfl, Nat.and_two_pow]
    rfl
  apply BitVec.eq_of_toNat_eq
  rw [f32ToH16_flush (by omega), msb_h16ToF32, toNat_h16Pattern_zero, hsign]

/-- What a binary32 pattern has become when it is narrowed and widened again. -/
theorem toNat_h16ToF32_f32ToH16 (u : BitVec 32) :
    (h16ToF32 (f32ToH16 u)).toNat = sign32 u * 2 ^ 31 +
      if exp32 u ≤ 96 then 0 else min (exp32 u) 159 * 2 ^ 23 + mant32 u / 2 ^ 14 * 2 ^ 14 := by
  have hm := mant32_lt u
  rw [toNat_h16ToF32]
  by_cases h : exp32 u ≤ 96
  · obtain ⟨hsign, hexp, -⟩ := fields_h16Pattern u.msb (e := 0) (m := 0) (by decide) (by decide)
    rw [f32ToH16_flush h, hsign, toNat_msb32, if_pos hexp, if_pos h]
  · obtain ⟨hsign, hexp, hmant⟩ := fields_h16Pattern u.msb (e := min (exp32 u - 96) 63)
      (m := mant32 u / 2 ^ 14) (by omega) (by omega)
    rw [f32ToH16_truncate (by omega), hsign, toNat_msb32, hexp, hmant, if_neg (by omega), if_neg h]
    omega

theorem h16ToF32_f32ToH16_iff (u : BitVec 32) :
    h16ToF32 (f32ToH16 u) = u ↔
      exp32 u = 0 ∧ mant32 u = 0 ∨ 97 ≤ exp32 u ∧ exp32 u ≤ 159 ∧ mant32 u % 2 ^ 14 = 0 := by
  have hm := mant32_lt u
  rw [← BitVec.toNat_inj, toNat_h16ToF32_f32ToH16, toNat_eq_fields32 u]
  split_ifs <;> omega

/-- Up to exponent 159 the sign is kept and the magnitude does not grow (R184). -/
theorem h16ToF32_f32ToH16_le {u : BitVec 32} (h : exp32 u ≤ 159) :
    sign32 (h16ToF32 (f32ToH16 u)) = sign32 u ∧
      (h16ToF32 (f32ToH16 u)).toNat % 2 ^ 31 ≤ u.toNat % 2 ^ 31 := by
  have hm := mant32_lt u
  have hu := toNat_eq_fields32 u
  have hw := toNat_h16ToF32_f32ToH16 u
  rw [sign32]
  split_ifs at hw <;> omega

/-- Settles O22: each round trip is arithmetic on the three fields. -/
theorem h16RoundTrips : Obligations.H16RoundTrips :=
  ⟨fun _ => f32ToH16_h16ToF32, fun _ => f32ToH16_h16ToF32_zero, h16ToF32_f32ToH16_iff,
    fun _ => h16ToF32_f32ToH16_le⟩

/-! ## The exact value of a rounding operand (R87, R88, R170) -/

/-- A classified operand is finite, and `q` is its exact value. -/
def RealOperand.HasValue (x : RealOperand) (q : ℚ) : Prop :=
  ∃ neg num den, x = .finite neg num den ∧ 0 < den ∧ q = (-1) ^ neg.toNat * ((num : ℚ) / den)

theorem hasValue_dyadic (neg : Bool) (mant : Nat) (e : Int) :
    (dyadic neg mant e).HasValue ((-1) ^ neg.toNat * ((mant : ℚ) * 2 ^ e)) := by
  cases e with
  | ofNat k => exact ⟨neg, mant * 2 ^ k, 1, rfl, one_pos, by simp⟩
  | negSucc k =>
    exact ⟨neg, mant, 2 ^ (k + 1), rfl, by positivity, by simp [zpow_negSucc, div_eq_mul_inv]⟩

section FloatValue
variable {eb mb e m : Nat} {neg : Bool} {pattern : BitVec 64}

theorem floatValue_nan (he : e = 2 ^ eb - 1) (hm : m ≠ 0) :
    floatValue eb mb neg e m pattern = .nan pattern := by simp [floatValue, he, hm]

theorem floatValue_infinite (he : e = 2 ^ eb - 1) (hm : m = 0) :
    floatValue eb mb neg e m pattern = .infinite neg := by simp [floatValue, he, hm]

/-- Below the largest exponent field a pattern is finite: subnormal at field 0, else normal. The exponents
`low` of a subnormal and `bias` of a normal pattern are those of its mantissa taken as an integer. -/
theorem hasValue_floatValue {low bias : Int} (he : e ≠ 2 ^ eb - 1)
    (hlow : 1 - (2 ^ (eb - 1) - 1 : Int) - mb = low) (hbias : (2 ^ (eb - 1) - 1 : Int) + mb = bias) :
    (floatValue eb mb neg e m pattern).HasValue ((-1) ^ neg.toNat *
      if e = 0 then (m : ℚ) * 2 ^ low else ((2 ^ mb + m : Nat) : ℚ) * 2 ^ ((e : Int) - bias)) := by
  rw [floatValue, if_neg he, hlow, sub_sub, hbias]
  split_ifs with h0
  · exact hasValue_dyadic neg m low
  · exact hasValue_dyadic neg (2 ^ mb + m) (e - bias)

end FloatValue

section Binary32
variable {u : BitVec 32}

theorem valueF32_eq (u : BitVec 32) :
    valueF32 u = floatValue 8 23 u.msb (exp32 u) (mant32 u) (u.setWidth 64) := by
  rw [valueF32, toNat_f32Exp, toNat_f32Mant]

theorem valueF32_nan (he : exp32 u = 255) (hm : mant32 u ≠ 0) : valueF32 u = .nan (u.setWidth 64) := by
  rw [valueF32_eq, floatValue_nan he hm]

theorem valueF32_infinite (he : exp32 u = 255) (hm : mant32 u = 0) :
    valueF32 u = .infinite (decide (sign32 u = 1)) := by
  rw [valueF32_eq, floatValue_infinite he hm, ← toNat_msb32]
  simp

theorem hasValue_valueF32 (he : exp32 u ≠ 255) : (valueF32 u).HasValue (value32 u) := by
  rw [valueF32_eq, value32, ← toNat_msb32]
  exact hasValue_floatValue he (by norm_num) (by norm_num)

end Binary32

section Binary64
variable {u : BitVec 64}

theorem valueF64_eq (u : BitVec 64) : valueF64 u = floatValue 11 52 u.msb (exp64 u) (mant64 u) u := by
  rw [valueF64, toNat_f64Exp, toNat_f64Mant]

theorem valueF64_nan (he : exp64 u = 2047) (hm : mant64 u ≠ 0) : valueF64 u = .nan u := by
  rw [valueF64_eq, floatValue_nan he hm]

theorem valueF64_infinite (he : exp64 u = 2047) (hm : mant64 u = 0) :
    valueF64 u = .infinite (decide (sign64 u = 1)) := by
  rw [valueF64_eq, floatValue_infinite he hm, ← toNat_msb64]
  simp

theorem hasValue_valueF64 (he : exp64 u ≠ 2047) : (valueF64 u).HasValue (value64 u) := by
  rw [valueF64_eq, value64, ← toNat_msb64]
  exact hasValue_floatValue he (by norm_num) (by norm_num)

end Binary64

section Operand
variable {s : State}

/-- A NaN operand is classified so, in either format. -/
theorem roundOperand_nan : OperandNan s → ∃ pattern, roundOperand s = .nan pattern := by
  unfold OperandNan roundOperand
  cases s.cfg.roundInFmt with
  | binary32 => exact fun ⟨he, hm⟩ => ⟨_, valueF32_nan he hm⟩
  | binary64 => exact fun ⟨he, hm⟩ => ⟨_, valueF64_nan he hm⟩

/-- An infinite operand is classified so, with its sign. -/
theorem roundOperand_infinite :
    OperandInfinite s → roundOperand s = .infinite (decide (operandSign s = 1)) := by
  unfold OperandInfinite roundOperand operandSign
  cases s.cfg.roundInFmt with
  | binary32 => exact fun ⟨he, hm⟩ => valueF32_infinite he hm
  | binary64 => exact fun ⟨he, hm⟩ => valueF64_infinite he hm

/-- Every other operand is finite, with its exact value. -/
theorem roundOperand_hasValue :
    ¬ OperandNan s → ¬ OperandInfinite s → (roundOperand s).HasValue (operandValue s) := by
  unfold OperandNan OperandInfinite roundOperand operandValue
  cases s.cfg.roundInFmt with
  | binary32 =>
    exact fun hnan hinf => hasValue_valueF32 fun he => hnan ⟨he, fun hm => hinf ⟨he, hm⟩⟩
  | binary64 =>
    exact fun hnan hinf => hasValue_valueF64 fun he => hnan ⟨he, fun hm => hinf ⟨he, hm⟩⟩

end Operand

/-! ## Rounding (R170 to R178) -/

theorem nearest_of_nonneg {x : ℚ} (h : 0 ≤ x) : nearest x = ⌊x + 1 / 2⌋ := by
  rw [nearest, if_neg (not_lt.2 h), abs_of_nonneg h]

/-- Rounding is symmetric about zero. -/
theorem nearest_neg_of_nonneg {x : ℚ} (h : 0 ≤ x) : nearest (-x) = -⌊x + 1 / 2⌋ := by
  obtain rfl | hpos := h.eq_or_lt
  · norm_num [nearest]
  · rw [nearest, if_pos (neg_neg_of_pos hpos), abs_neg, abs_of_nonneg h]

/-- The magnitude is `floor(|X| + 1/2)`. -/
theorem floor_add_half {num den : Nat} (hden : 0 < den) :
    ⌊(num : ℚ) / den + 1 / 2⌋ = roundMagnitude num den := by
  have hhalf : (num : ℚ) / den + 1 / 2 = ((2 * num + den : Nat) : ℚ) / ((2 * den : Nat) : ℚ) := by
    push_cast
    field_simp
  rw [hhalf, Rat.floor_natCast_div_natCast]
  rfl

/-- The nearest integer of a finite operand is that of its exact value. -/
theorem roundNearest_eq {neg : Bool} {num den : Nat} (hden : 0 < den) :
    roundNearest neg num den = nearest ((-1) ^ neg.toNat * ((num : ℚ) / den)) := by
  have hnonneg : 0 ≤ (num : ℚ) / den := by positivity
  cases neg with
  | false => simp [roundNearest, nearest_of_nonneg hnonneg, ← floor_add_half hden]
  | true => simp [roundNearest, nearest_neg_of_nonneg hnonneg, ← floor_add_half hden]

theorem saturate_eq_saturated (r : IntRange) (x : Int) : saturate r x = saturated r.lo r.hi x := rfl

/-- A rounding helper saturates the nearest integer of the operand's exact value. -/
theorem roundTo_hasValue {r : IntRange} {mk : Int → Result} {s : State} {q : ℚ}
    (h : (roundOperand s).HasValue q) :
    roundTo r mk s = .next (s.withOut (mk (saturated r.lo r.hi (nearest q)))) := by
  obtain ⟨neg, num, den, hx, hden, rfl⟩ := h
  rw [roundTo_finite hx, roundNearest_eq hden, saturate_eq_saturated]

/-! ## The eight rounding helpers (R171 to R178) -/

/-- Instruction `i` is a rounding helper of the range `r`, whose result of `w` bits reads, by `val`, as the
number rounded to. -/
structure RoundHelper (r : IntRange) (i : Instr) {w : Nat} (mk : BitVec w → Result)
    (val : BitVec w → ℤ) : Prop where
  exec_eq : ∀ s, exec i s = roundTo r (fun v => mk (BitVec.ofInt w v)) s
  val_ofInt : ∀ v : Int, r.lo ≤ v → v ≤ r.hi → val (BitVec.ofInt w v) = v

theorem natVal_ofInt {w : Nat} {v : Int} (h0 : 0 ≤ v) (h : v < 2 ^ w) : natVal (BitVec.ofInt w v) = v := by
  have hmod : v % ((2 ^ w : Nat) : Int) = v := Int.emod_eq_of_lt h0 (by exact_mod_cast h)
  rw [natVal, BitVec.toNat_ofInt, hmod, Int.toNat_of_nonneg h0]

section Helper
variable {r : IntRange} {i : Instr} {w : Nat}

/-- A helper of an unsigned range that its result can hold. -/
theorem RoundHelper.of_unsigned {mk : BitVec w → Result}
    (hexec : ∀ s, exec i s = roundTo r (fun v => mk (BitVec.ofInt w v)) s)
    (hlo : 0 ≤ r.lo) (hhi : r.hi < 2 ^ w) : RoundHelper r i mk natVal where
  exec_eq := hexec
  val_ofInt _ h1 h2 := natVal_ofInt (hlo.trans h1) (h2.trans_lt hhi)

/-- A helper of a signed range that its result can hold. -/
theorem RoundHelper.of_signed {mk : BitVec w → Result}
    (hexec : ∀ s, exec i s = roundTo r (fun v => mk (BitVec.ofInt w v)) s)
    (hw : 0 < w) (hlo : -2 ^ (w - 1) ≤ r.lo) (hhi : r.hi < 2 ^ (w - 1)) :
    RoundHelper r i mk BitVec.toInt where
  exec_eq := hexec
  val_ofInt _ h1 h2 := BitVec.toInt_ofInt_eq_self hw (hlo.trans h1) (h2.trans_lt hhi)

variable {mk : BitVec w → Result} {val : BitVec w → ℤ}

theorem RoundHelper.rounds (hr : RoundHelper r i mk val) {c : BitVec 6} (hc : HasCode i c) :
    Rounds i c r.lo r.hi mk val := by
  have hle := intRange_lo_le_hi r
  refine ⟨hc, fun s => ⟨fun hnan hinf => ?finite, fun hinf => ?infinite, fun hnan hrefuse => ?nan⟩⟩
  case finite =>
    obtain ⟨h1, h2⟩ := saturate_mem r (nearest (operandValue s))
    exact ⟨_, (hr.exec_eq s).trans (roundTo_hasValue (roundOperand_hasValue hnan hinf)),
      hr.val_ofInt _ h1 h2⟩
  case infinite =>
    refine ⟨_, (hr.exec_eq s).trans (roundTo_infinite (roundOperand_infinite hinf)), ?_⟩
    rw [hr.val_ofInt _ (by split <;> omega) (by split <;> omega)]
    simp
  case nan =>
    obtain ⟨pattern, hp⟩ := roundOperand_nan hnan
    exact (hr.exec_eq s).trans (roundTo_nan_refuse hp hrefuse)

theorem RoundHelper.nanRounds (hr : RoundHelper r i mk val) : NanRounds i r.lo r.hi mk val := by
  intro s hnan hany
  obtain ⟨pattern, hp⟩ := roundOperand_nan hnan
  obtain ⟨h1, h2⟩ := saturate_mem r (Config.roundNanValue r pattern)
  refine ⟨_, (hr.exec_eq s).trans (roundTo_nan_anyValue hp hany), ?_⟩
  rw [hr.val_ofInt _ h1 h2]
  exact ⟨h1, h2⟩

end Helper

theorem roundHelperU8 : RoundHelper .u8 .roundU8 .u8 natVal :=
  .of_unsigned (fun _ => rfl) (by decide) (by decide)

theorem roundHelperS8 : RoundHelper .s8 .roundS8 .s8 BitVec.toInt :=
  .of_signed (fun _ => rfl) (by decide) (by decide) (by decide)

theorem roundHelperU16 : RoundHelper .u16 .roundU16 .u16 natVal :=
  .of_unsigned (fun _ => rfl) (by decide) (by decide)

theorem roundHelperS16 : RoundHelper .s16 .roundS16 .s16 BitVec.toInt :=
  .of_signed (fun _ => rfl) (by decide) (by decide) (by decide)

theorem roundHelperU24 : RoundHelper .u24 .roundU24 .u32 natVal :=
  .of_unsigned (fun _ => rfl) (by decide) (by decide)

theorem roundHelperS24 : RoundHelper .s24 .roundS24 .s32 BitVec.toInt :=
  .of_signed (fun _ => rfl) (by decide) (by decide) (by decide)

theorem roundHelperU32 : RoundHelper .u32 .roundU32 .u32 natVal :=
  .of_unsigned (fun _ => rfl) (by decide) (by decide)

theorem roundHelperS32 : RoundHelper .s32 .roundS32 .s32 BitVec.toInt :=
  .of_signed (fun _ => rfl) (by decide) (by decide) (by decide)

/-- Settles O23: one helper over eight ranges; the result of each can hold its range. -/
theorem roundingHelpers : Obligations.RoundingHelpers :=
  ⟨roundHelperU8.rounds rfl, roundHelperS8.rounds rfl, roundHelperU16.rounds rfl, roundHelperS16.rounds rfl,
    roundHelperU24.rounds rfl, roundHelperS24.rounds rfl, roundHelperU32.rounds rfl,
    roundHelperS32.rounds rfl⟩

/-- Settles O24: the free value is held to the range, as every result is. -/
theorem roundingNanValue : Obligations.RoundingNanValue :=
  ⟨roundHelperU8.nanRounds, roundHelperS8.nanRounds, roundHelperU16.nanRounds, roundHelperS16.nanRounds,
    roundHelperU24.nanRounds, roundHelperS24.nanRounds, roundHelperU32.nanRounds, roundHelperS32.nanRounds⟩

end Sys2Proof.Machine
end

section
/-! # CRC-16 (`42_crc16.md`)

Everything here is a law of one nibble update: its value in plain arithmetic (R201), its linearity over a
linear table (R206 (f)), and what two equal updates share. The last holds for every table whose entry `i` has
the high nibble `i`, as the default one has: the index of an update can then be read off its result, and no
update loses anything (R206 (g)). -/

namespace Sys2Proof.Machine
open Sys2Proof.Claims

/-! ## One nibble and one byte (R200, R201) -/

section AnyTable
variable {table : Vector (BitVec 16) 16}

@[simp] theorem execCrc16Byte_eq (s : State) :
    exec .crc16Byte s = .next (s.withOut (.u16 (crcByte s.cfg.crcTable s.port.byte s.port.acc))) := rfl

@[simp] theorem execCrc16Block_eq (s : State) :
    exec .crc16Block s = .next (s.withOut (.u16 (crcBlock s.cfg.crcTable s.port.buf))) := rfl

theorem toNat_lowNibble (b : Byte) : (b.extractLsb' 0 4).toNat = b.toNat % 16 := by simp

theorem toNat_highNibble (b : Byte) : (b.extractLsb' 4 4).toNat = b.toNat / 16 := by
  rw [BitVec.extractLsb'_toNat, Nat.shiftRight_eq_div_pow]
  have := b.isLt
  omega

/-- The table index of a nibble update, as R201 writes it. -/
theorem toNat_crcIndex (acc : BitVec 16) (nibble : BitVec 4) :
    (acc.extractLsb' 0 4 ^^^ nibble).toNat = (acc.toNat ^^^ nibble.toNat) % 16 := by
  have hacc : (acc.extractLsb' 0 4).toNat = acc.toNat % 2 ^ 4 := by simp
  have hxor := Nat.xor_mod_two_pow (a := acc.toNat) (b := nibble.toNat) (n := 4)
  rw [Nat.mod_eq_of_lt nibble.isLt] at hxor
  rw [BitVec.toNat_xor, hacc, ← hxor]

theorem toNat_crcNibble (acc : BitVec 16) (nibble : BitVec 4) :
    (crcNibble table acc nibble).toNat = acc.toNat / 16
      ^^^ (table[(acc.toNat ^^^ nibble.toNat) % 16]'(Nat.mod_lt _ (by decide))).toNat := by
  rw [crcNibble, BitVec.toNat_xor, BitVec.toNat_ushiftRight, Nat.shiftRight_eq_div_pow]
  simp only [Fin.getElem_fin, BitVec.val_toFin, toNat_crcIndex, Nat.reducePow]

/-! ## Many bytes (R202, R204) -/

@[simp] theorem crcFold_cons (acc : BitVec 16) (b : Byte) (bs : List Byte) :
    crcFold table acc (b :: bs) = crcFold table (crcByte table b acc) bs := rfl

@[simp] theorem crcBlock_nil : crcBlock table [] = 0 := rfl

/-- The splitting law (R204). -/
theorem crcBlock_append (as bs : List Byte) :
    crcBlock table (as ++ bs) = crcFold table (crcBlock table as) bs :=
  crcFold_append _ as bs

theorem crcBlock_concat (bs : List Byte) (b : Byte) :
    crcBlock table (bs ++ [b]) = crcByte table b (crcBlock table bs) := by
  rw [crcBlock_append, crcFold_cons, crcFold_nil]

end AnyTable

/-- Settles O25: the model's two nibble updates, read as numbers. -/
theorem crcOneByte : Obligations.CrcOneByte := by
  refine ⟨rfl, fun s => ⟨_, execCrc16Byte_eq s, ?_⟩⟩
  simp only [crcByte, toNat_crcNibble, toNat_lowNibble, toNat_highNibble]

/-- Settles O26: the block is a left fold, so its last byte is one more CRC16_BYTE. -/
theorem crcBlockFolds : Obligations.CrcBlockFolds := by
  refine ⟨rfl, fun _ => crcBlock_append, fun s => ⟨fun hempty => ?_, fun b bs hbuf => ?_⟩⟩
  · rw [execCrc16Block_eq, hempty, crcBlock_nil]
  · refine ⟨_, _, execCrc16Block_eq _, execCrc16Byte_eq _, ?_⟩
    rw [execCrc16Block_eq, hbuf, crcBlock_concat]
    rfl

/-! ## Linear tables (R206 (e), (f)) -/

/-- The table is linear: the entry of a combined index is the combination of the entries. -/
def LinearTable (table : Vector (BitVec 16) 16) : Prop :=
  ∀ i j : BitVec 4, table[(i ^^^ j).toFin] = table[i.toFin] ^^^ table[j.toFin]

section Linear
variable {table : Vector (BitVec 16) 16}

theorem LinearTable.crcNibble_xor (h : LinearTable table) (a a' : BitVec 16) (n n' : BitVec 4) :
    crcNibble table (a ^^^ a') (n ^^^ n') = crcNibble table a n ^^^ crcNibble table a' n' := by
  have hindex : (a ^^^ a').extractLsb' 0 4 ^^^ (n ^^^ n')
      = (a.extractLsb' 0 4 ^^^ n) ^^^ (a'.extractLsb' 0 4 ^^^ n') := by
    rw [BitVec.extractLsb'_xor]
    ac_rfl
  simp only [crcNibble, hindex, h _ _, BitVec.ushiftRight_xor_distrib]
  ac_rfl

theorem LinearTable.crcByte_xor (h : LinearTable table) (b b' : Byte) (a a' : BitVec 16) :
    crcByte table (b ^^^ b') (a ^^^ a') = crcByte table b a ^^^ crcByte table b' a' := by
  simp only [crcByte, BitVec.extractLsb'_xor, h.crcNibble_xor]

/-- A linear map sends zero to zero. -/
theorem LinearTable.crcByte_zero (h : LinearTable table) : crcByte table 0 0 = 0 := by
  simpa using h.crcByte_xor 0 0 0 0

theorem LinearTable.crcBlock_zeros (h : LinearTable table) (n : Nat) :
    crcBlock table (List.replicate n 0) = 0 := by
  induction n with
  | zero => rfl
  | succ n ih => rw [List.replicate_succ', crcBlock_concat, ih, h.crcByte_zero]

end Linear

/-- Settles O27: linearity goes from the table to a nibble update and from there to a byte. -/
theorem crcLinearTables : Obligations.CrcLinearTables := fun _ (h : LinearTable _) =>
  ⟨h.crcBlock_zeros, h.crcByte_xor⟩

/-! ## One changed byte (R206 (g)) -/

/-- Entry `i` of the table has the high nibble `i`. -/
def IndexedTable (table : Vector (BitVec 16) 16) : Prop :=
  ∀ i : BitVec 4, table[i.toFin].extractLsb' 12 4 = i

theorem indexedTable_default : IndexedTable Config.crcTableDefault := by
  unfold IndexedTable
  decide

section Indexed
variable {table : Vector (BitVec 16) 16} {a a' : BitVec 16} {n n' : BitVec 4} {b b' : Byte}

/-- A 16-bit word is given by its high 12 bits and its low nibble. -/
theorem eq_of_shift_of_lowNibble (hshift : a >>> 4 = a' >>> 4)
    (hlow : a.extractLsb' 0 4 = a'.extractLsb' 0 4) : a = a' := by
  have hdiv := congrArg BitVec.toNat hshift
  have hmod := congrArg BitVec.toNat hlow
  simp only [BitVec.toNat_ushiftRight, Nat.shiftRight_eq_div_pow, BitVec.extractLsb'_toNat] at hdiv hmod
  apply BitVec.eq_of_toNat_eq
  omega

/-- A word's high nibble is among its high 12 bits. -/
theorem highNibble_eq_of_shift (hshift : a >>> 4 = a' >>> 4) :
    a.extractLsb' 12 4 = a'.extractLsb' 12 4 := by
  have hdiv := congrArg BitVec.toNat hshift
  simp only [BitVec.toNat_ushiftRight, Nat.shiftRight_eq_div_pow] at hdiv
  apply BitVec.eq_of_toNat_eq
  simp only [BitVec.extractLsb'_toNat, Nat.shiftRight_eq_div_pow]
  omega

/-- The index of an update is the high nibble of its result: the shifted accumulator has none. -/
theorem IndexedTable.highNibble_crcNibble (h : IndexedTable table) (a : BitVec 16) (n : BitVec 4) :
    (crcNibble table a n).extractLsb' 12 4 = a.extractLsb' 0 4 ^^^ n := by
  have hzero : (a >>> 4).extractLsb' 12 4 = 0#4 := by
    apply BitVec.eq_of_toNat_eq
    simp only [BitVec.extractLsb'_toNat, BitVec.toNat_ushiftRight, Nat.shiftRight_eq_div_pow,
      BitVec.toNat_ofNat]
    have := a.isLt
    omega
  rw [crcNibble, BitVec.extractLsb'_xor, hzero, h]
  simp

/-- Two equal updates had the same index and the same high bits of the accumulator. -/
theorem IndexedTable.of_crcNibble_eq (h : IndexedTable table)
    (heq : crcNibble table a n = crcNibble table a' n') :
    a.extractLsb' 0 4 ^^^ n = a'.extractLsb' 0 4 ^^^ n' ∧ a >>> 4 = a' >>> 4 := by
  have hindex : a.extractLsb' 0 4 ^^^ n = a'.extractLsb' 0 4 ^^^ n' := by
    rw [← h.highNibble_crcNibble, ← h.highNibble_crcNibble, heq]
  simp only [crcNibble, hindex] at heq
  exact ⟨hindex, (BitVec.xor_left_inj _).1 heq⟩

/-- An update with a given nibble loses nothing of the accumulator. -/
theorem IndexedTable.crcNibble_acc_inj (h : IndexedTable table)
    (heq : crcNibble table a n = crcNibble table a' n) : a = a' := by
  obtain ⟨hindex, hshift⟩ := h.of_crcNibble_eq heq
  exact eq_of_shift_of_lowNibble hshift ((BitVec.xor_left_inj _).1 hindex)

theorem IndexedTable.crcByte_acc_inj (h : IndexedTable table)
    (heq : crcByte table b a = crcByte table b a') : a = a' :=
  h.crcNibble_acc_inj (h.crcNibble_acc_inj heq)

theorem eq_of_nibbles (hlow : b.extractLsb' 0 4 = b'.extractLsb' 0 4)
    (hhigh : b.extractLsb' 4 4 = b'.extractLsb' 4 4) : b = b' := by
  have hmod := congrArg BitVec.toNat hlow
  have hdiv := congrArg BitVec.toNat hhigh
  rw [toNat_lowNibble, toNat_lowNibble] at hmod
  rw [toNat_highNibble, toNat_highNibble] at hdiv
  apply BitVec.eq_of_toNat_eq
  omega

/-- From a given accumulator the result tells the byte: the high bits after the first update hold its index,
so the low nibble; then the first updates agree, and the index of the second tells the high nibble. -/
theorem IndexedTable.crcByte_byte_inj (h : IndexedTable table)
    (heq : crcByte table b a = crcByte table b' a) : b = b' := by
  obtain ⟨hindex, hshift⟩ := h.of_crcNibble_eq heq
  have hfirst := highNibble_eq_of_shift hshift
  rw [h.highNibble_crcNibble, h.highNibble_crcNibble] at hfirst
  have hlow := (BitVec.xor_right_inj _).1 hfirst
  rw [hlow] at hindex
  exact eq_of_nibbles hlow ((BitVec.xor_right_inj _).1 hindex)

/-- What follows cannot undo a difference of two accumulators. -/
theorem IndexedTable.crcFold_inj (h : IndexedTable table) (bs : List Byte) {a a' : BitVec 16}
    (heq : crcFold table a bs = crcFold table a' bs) : a = a' := by
  induction bs generalizing a a' with
  | nil => exact heq
  | cons b bs ih => exact h.crcByte_acc_inj (ih heq)

theorem IndexedTable.byte_eq_of_crcBlock_eq (h : IndexedTable table) {front back : List Byte}
    (heq : crcBlock table (front ++ b :: back) = crcBlock table (front ++ b' :: back)) : b = b' := by
  rw [crcBlock_append, crcBlock_append, crcFold_cons, crcFold_cons] at heq
  exact h.crcByte_byte_inj (h.crcFold_inj back heq)

end Indexed

/-- Settles O28: the default table is indexed by its high nibbles, so the CRC tells the changed byte. -/
theorem crcDetectsOneByte : Obligations.CrcDetectsOneByte :=
  fun _ _ _ _ hne heq => hne (indexedTable_default.byte_eq_of_crcBlock_eq heq)

end Sys2Proof.Machine
end

section
/-! # The framer, stage by stage (`43_framer.md`)

FEED is `feedByte` on the operand byte (`exec_feed_next`), so each stage's statement is what `feedByte` does
in that stage. The model's verdict on an image is read as R227 to R229 word it (`validate_eq_verdict`). The
safety statements rest on the invariant: in stage DATA it says that all bytes so far are written. -/

namespace Sys2Proof.Machine
open Sys2Proof.Claims

section Stages
variable {table : Vector (BitVec 16) 16} {f g : Framer} {b : Byte} {p : Option Packet}

/-! ## FEED and a write into BUF -/

theorem exec_feed_next {s : State} (h : feedByte s.cfg.crcTable s.port.byte s.framer = .ok (g, p)) :
    exec .feed s = .next ((s.withFramer g).withOut (.feed p)) := by
  simp [exec, execFeed, h]

theorem writesOnly_write (m : Memory) (a : Nat) (b : Byte) : WritesOnly m (Memory.write m a b) a b :=
  fun k => Memory.read_write m a k b

/-! ## The header stages (R221 to R223) -/

theorem feedInSync0 : FeedInSync0 := by
  refine fun s hs => ⟨fun hb => ⟨_, writesOnly_write _ _ _, exec_feed_next ?_⟩,
    fun hb => exec_feed_next (feedByte_sync0_skip hs hb)⟩
  rw [hb]
  exact feedByte_sync0_match hs

theorem feedInSync1 : FeedInSync1 := by
  refine fun s hs => ⟨fun hb => ⟨_, writesOnly_write _ _ _, exec_feed_next ?_⟩,
    fun hb => exec_feed_next (feedByte_sync1_drop hs hb)⟩
  rw [hb]
  exact feedByte_sync1_match hs

theorem feedInType : FeedInType :=
  fun _ hs => ⟨_, writesOnly_write _ _ _, exec_feed_next (feedByte_type hs)⟩

/-- Settles O29: each stage by its lemma. -/
theorem feedInHeaderStages : Obligations.FeedInHeaderStages := ⟨feedInSync0, feedInSync1, feedInType⟩

/-! ## Stage LEN (R224, R225) -/

theorem oversizeAfter_eq_ite (was : Bool) (b : Byte) :
    oversizeAfter was b = if 18 < b.toNat then true else was := by
  rw [oversizeAfter, show Config.maxPayload = 18 from rfl]
  split <;> simp [*]

/-- Settles O30: the length byte is stored and latches OVERSIZE. -/
theorem feedLengthByte : Obligations.FeedLengthByte := by
  intro s hs ht
  refine ⟨_, writesOnly_write _ _ _, ?_⟩
  rw [← oversizeAfter_eq_ite]
  exact exec_feed_next (feedByte_len_std hs ht)

/-- The first payload byte of a length-elided frame is appended behind the length 13 (R225). -/
theorem feedByte_len_elided (hs : f.stage = .len) (ht : Memory.byte f.buf 2 = Config.tagHsRaw)
    (hidx : f.idx = 0) :
    feedByte table b f = .ok ({ f with stage := .data, idx := 1,
                                       buf := Memory.write (Memory.write f.buf 3 13) 4 b }, none) := by
  have hmore : ((0 : BitVec 9) + 1).toNat ≠ (BitVec.ofNat 8 Config.hsRawLen).toNat + 2 := by decide
  rw [feedByte_len_hsRaw hs ht, feedData_ok (by simp [hidx, Config.bufCap]), Memory.byte_write_same, hidx,
    if_neg hmore]
  rfl

/-- Settles O31: two writes into BUF, at indices 3 and 4. -/
theorem feedElidedLength : Obligations.FeedElidedLength := by
  intro s hs ht hidx
  refine ⟨_, fun k => ?_, exec_feed_next (feedByte_len_elided hs ht hidx)⟩
  rw [Memory.read_write, Memory.read_write]
  split_ifs with h4 h3
  · omega
  · rfl
  · rfl
  · rfl

/-! ## The verdict on a complete image (R227 to R229) -/

/-- The received CRC, as a number, is big-endian (R227). -/
theorem toNat_receivedCrc (m : Memory) :
    (receivedCrc m).toNat = (Memory.byte m (4 + (Memory.byte m 3).toNat)).toNat * 256
      + (Memory.byte m (4 + (Memory.byte m 3).toNat + 1)).toNat := by
  rw [receivedCrc, BitVec.toNat_append, ← Nat.shiftLeft_add_eq_or_of_lt (BitVec.isLt _), Nat.shiftLeft_eq]

/-- The expected CRC is that of the bytes that crossed the wire (R228). -/
theorem expectedCrc_eq (m : Memory) : expectedCrc table m = crcBlock table (coveredBytes m) := by
  rw [expectedCrc, coveredBytes, show Config.tagHsRaw = 0xFE from rfl]
  by_cases ht : Memory.byte m 2 = 0xFE
  · rw [if_neg (not_not.2 ht), if_pos ht, crcBlock_append]
    rfl
  · rw [if_pos ht, if_neg ht, Memory.bytes]
    simp only [Nat.zero_add]

theorem validate_eq_verdict (m : Memory) : validate table m = verdict table m := by
  have hcrc : expectedCrc table m = receivedCrc m ↔ (crcBlock table (coveredBytes m)).toNat
      = (Memory.byte m (4 + (Memory.byte m 3).toNat)).toNat * 256
        + (Memory.byte m (4 + (Memory.byte m 3).toNat + 1)).toNat := by
    rw [← BitVec.toNat_inj, expectedCrc_eq, toNat_receivedCrc]
  exact if_congr hcrc rfl rfl

/-! ## Stage DATA (R226) -/

/-- A byte of stage DATA that does not reach the stated count is appended, also where the count is past it. -/
theorem feedByte_data_ne (hs : f.stage = .data) (hidx : f.idx.toNat ≤ 256)
    (hne : f.idx.toNat + 1 ≠ (Memory.byte f.buf 3).toNat + 2) :
    feedByte table b f
      = .ok ({ f with buf := Memory.write f.buf (4 + f.idx.toNat) b, idx := f.idx + 1 }, none) := by
  rw [← idx_succ_toNat hidx] at hne
  rw [feedByte_data hs, feedData_ok (by simp only [Config.bufCap]; omega), if_neg hne, hs]

/-- Settles O32: the append leaves the length byte, which decides between the two outcomes. -/
theorem feedInData : Obligations.FeedInData := by
  intro s hs hidx
  refine ⟨_, writesOnly_write _ _ _, ?_⟩
  rw [Memory.byte_write_other _ _ (by omega), ← validate_eq_verdict]
  exact ⟨fun hne => exec_feed_next (feedByte_data_ne hs hidx hne),
    fun hend => exec_feed_next (feedByte_data_last hs hend)⟩

/-! ## Safety (R230) -/

/-- In stage DATA every byte of the frame so far has been written. -/
theorem Framer.written_of_data (hf : f.Inv) (hs : f.stage = .data) {a : Nat} (ha : a < 4 + f.idx.toNat) :
    Memory.Written f.buf a := by
  obtain ⟨-, -, h0, h1, h2, -, hdata⟩ := hf
  obtain ⟨h3, -, -, -, hpay⟩ := hdata hs
  match a with
  | 0 => simp [Memory.Written, h0, hs]
  | 1 => simp [Memory.Written, h1, hs]
  | 2 => exact h2 (by simp [hs])
  | 3 => exact h3
  | i + 4 => exact Nat.add_comm 4 i ▸ hpay i (by omega)

/-- The byte that completes a frame is the last one of its image that was missing. -/
theorem Framer.written_of_complete (hf : f.Inv) (hs : f.stage = .data)
    (h : feedByte table b f = .ok (g, p)) (hg : g.stage = .sync0) {a : Nat}
    (ha : a < (Memory.byte g.buf 3).toNat + 6) : Memory.Written g.buf a := by
  rw [feedByte_data hs] at h
  obtain ⟨hcap, hbuf, hidx, -, ⟨hend, -⟩ | ⟨-, hmore, -⟩⟩ := feedData_inv h
  · rw [hidx, idx_succ_toNat (by simp only [Config.bufCap] at hcap; omega)] at hend
    rw [hbuf, Memory.byte_write_other _ _ (by omega)] at ha
    rw [hbuf]
    obtain hlt | rfl : a < 4 + f.idx.toNat ∨ a = 4 + f.idx.toNat := by omega
    · exact Memory.written_write b (Framer.written_of_data hf hs hlt)
    · simp [Memory.Written]
  · simp [hg] at hmore

/-- Settles O33: the FEED completes and keeps the invariant; a completed image is written. -/
theorem feedAlwaysCompletes : Obligations.FeedAlwaysCompletes := by
  intro s hs
  obtain ⟨g, p, h⟩ := Framer.feedByte_completes (table := s.cfg.crcTable) (b := s.port.byte) hs
  exact ⟨g, p, exec_feed_next h, Framer.inv_feedByte hs h,
    fun hdata hg _ => Framer.written_of_complete hs hdata h hg⟩

/-- Settles O34: the reset state meets the invariant, from which any bytes can be fed. -/
theorem everyStreamIsSafe : Obligations.EveryStreamIsSafe := by
  intro table bs
  have hreset : Framer.reset.Inv := resetMeetsFramingInvariant
  obtain ⟨g, ps, h⟩ := Framer.feedAll_completes (table := table) bs hreset
  exact ⟨g, ps, h, Framer.inv_feedAll hreset h, feedAll_length h,
    fun p hp => by simpa [Packet.wf] using feedAll_emits_wf h hp⟩

/-! ## RESET and noise (R231, R235) -/

/-- Settles O35: RESET leaves the Framer State `resetFramer`. -/
theorem resetOperation : Obligations.ResetOperation := ⟨decode_encode (i := .reset) rfl, fun _ => rfl⟩

/-- In stage SYNC0 bytes other than 0x55 leave the Framer State as it was. -/
theorem feedAll_noise {noise : List Byte} (hs : f.stage = .sync0) (hn : ∀ b ∈ noise, b ≠ Config.sync0Val) :
    feedAll table noise f = .ok (f, List.replicate noise.length none) := by
  induction noise with
  | nil => rfl
  | cons b noise ih =>
    obtain ⟨hb, hrest⟩ := List.forall_mem_cons.1 hn
    rw [feedAll_cons (feedByte_sync0_skip hs hb), ih hrest]
    rfl

/-- Settles O40: the noise is fed first, and leaves the state it found. -/
theorem resyncAfterNoise : Obligations.ResyncAfterNoise :=
  fun _ _ _ _ hs hn => feedAll_append (feedAll_noise hs hn)

end Stages

end Sys2Proof.Machine
end

section
/-! # The demultiplexer and its routines (`44_dispatch.md`)

DISPATCH and the tag rows are `selectAndRun` on what TAG_MAP gives a tag, so a bound tag is settled by one
lemma (`selectAndRun_some`) and each layout by what its routine makes of the record (`routineOn_rawGyro` and
its like). A routine sees only the front of the payload; its fields there are the payload's own
(`fieldAt_take_eq_beSum`), which is where R271's bound on the payload's length is used. -/

namespace Sys2Proof.Machine
open Sys2Proof.Claims

/-! ## TAG_MAP (R261, R262) -/

/-- A tag that neither the spec nor the open part binds has no routine. -/
theorem tagRoutine_unbound {cfg : Params} {tag : Byte} (h0 : tag ≠ Config.tagRawGyro)
    (h1 : tag ≠ Config.tagHsRaw) (h : ∀ e ∈ cfg.tagMap, e.1 ≠ tag) : tagRoutine cfg tag = none := by
  have hnone : cfg.tagMap.find? (fun e => e.1 == tag) = none := by simpa using h
  simp [tagRoutine, h0, h1, hnone]

/-! ## DISPATCH and the tag rows -/

section Dispatch
variable {s t : State} {r : Routine}

theorem exec_dispatch (s : State) :
    exec .dispatch s = selectAndRun (tagRoutine s.cfg s.port.pkt.typ) s := rfl

theorem exec_tagReservedFd (s : State) :
    exec .tagReservedFd s = selectAndRun (tagRoutine s.cfg 0xFD) s := rfl

theorem exec_tagReservedFf (s : State) :
    exec .tagReservedFf s = selectAndRun (tagRoutine s.cfg 0xFF) s := rfl

theorem exec_tagRawGyro (s : State) : exec .tagRawGyro s = selectAndRun (some .rawGyro) s :=
  congrArg (selectAndRun · s) (tagRoutine_rawGyro s.cfg)

theorem exec_tagHsRaw (s : State) : exec .tagHsRaw s = selectAndRun (some .hsRaw) s :=
  congrArg (selectAndRun · s) (tagRoutine_hsRaw s.cfg)

/-- Of a fixed tag, DISPATCH is the tag's row (log 4). -/
theorem exec_dispatch_rawGyro (h : s.port.pkt.typ = 0x00) : exec .dispatch s = exec .tagRawGyro s := by
  rw [exec_dispatch, h]
  rfl

theorem exec_dispatch_hsRaw (h : s.port.pkt.typ = 0xFE) : exec .dispatch s = exec .tagHsRaw s := by
  rw [exec_dispatch, h]
  rfl

/-- A bound tag with the bytes its layout reads runs its routine. -/
theorem exec_dispatch_bound (hr : tagRoutine s.cfg s.port.pkt.typ = some r)
    (hlen : layoutLen r ≤ s.port.pkt.data.length) :
    exec .dispatch s
      = .next ((s.withDsr (routineOn r s.port.pkt.data s.dsr)).withOut (.selected (some r))) := by
  rw [exec_dispatch, hr, selectAndRun_some hlen]

/-- A bound tag on too short a payload is refused (R271). -/
theorem exec_dispatch_short (hr : tagRoutine s.cfg s.port.pkt.typ = some r)
    (hlen : s.port.pkt.data.length < layoutLen r) : exec .dispatch s = .refused .shortPayload := by
  rw [exec_dispatch, hr, selectAndRun_short hlen]

/-- What a completed dispatch of a bound tag left in the record. -/
theorem dsr_of_exec_dispatch (hr : tagRoutine s.cfg s.port.pkt.typ = some r)
    (h : exec .dispatch s = .next t) : t.dsr = routineOn r s.port.pkt.data s.dsr := by
  rw [exec_dispatch, hr] at h
  obtain ⟨hnone, -⟩ | ⟨q, hq, -, rfl⟩ := selectAndRun_inv h
  · cases hnone
  · cases hq
    rfl

/-- A completed dispatch leaves on the result port what it selected. -/
theorem out_of_selectAndRun {q : Option Routine} (h : selectAndRun q s = .next t) :
    t.out = .selected q := by
  obtain ⟨rfl, rfl⟩ | ⟨q, rfl, -, rfl⟩ := selectAndRun_inv h
  · rfl
  · rfl

/-- The select lines read the result port. -/
theorem sel_iff {q : Option Routine} {x : Routine} (h : t.out = .selected q) :
    t.sel x = true ↔ q = some x := by
  cases q <;> simp [State.sel, h]

/-- Settles O46: an unbound tag selects no routine. -/
theorem unknownTagIgnored : Obligations.UnknownTagIgnored := by
  intro s h0 h1 hmap
  refine ⟨_, ?_, rfl, fun _ => rfl⟩
  rw [exec_dispatch, tagRoutine_unbound h0 h1 hmap, selectAndRun_none]

/-- Settles O47: the one line that is 1 is that of the routine on the result port, which TAG_MAP gave. -/
theorem selectIsOneHot : Obligations.SelectIsOneHot := by
  refine ⟨fun s t h => ?_, fun cfg => ⟨tagRoutine_rawGyro cfg, tagRoutine_hsRaw cfg⟩,
    fun s r front back hmap hfront h0 h1 => ?_⟩
  · have hsel (x : Routine) : t.sel x = true ↔ tagRoutine s.cfg s.port.pkt.typ = some x :=
      sel_iff (out_of_selectAndRun h)
    refine ⟨hsel, fun x y hx hy => ?_⟩
    exact Option.some.inj (((hsel x).1 hx).symm.trans ((hsel y).1 hy))
  · have hr : tagRoutine s.cfg s.port.pkt.typ = some r := tagRoutine_first hmap hfront h0 h1
    exact ⟨hr, fun hlen => ⟨_, exec_dispatch_bound hr hlen, (sel_iff rfl).2 rfl⟩⟩

/-- Settles O48: the rows of the reserved tags run the same selection as DISPATCH. -/
theorem boundTagRunsItsRoutine : Obligations.BoundTagRunsItsRoutine := by
  refine ⟨fun s r hlen => ⟨fun hr => exec_dispatch_bound hr hlen, fun hr => ?_, fun hr => ?_⟩,
    fun s hmap => ?_, fun s hmap => ?_⟩
  · rw [exec_tagReservedFd, hr]
    exact selectAndRun_some hlen
  · rw [exec_tagReservedFf, hr]
    exact selectAndRun_some hlen
  · rw [exec_tagReservedFd, tagRoutine_unbound (by decide) (by decide) hmap, selectAndRun_none]
  · rw [exec_tagReservedFf, tagRoutine_unbound (by decide) (by decide) hmap, selectAndRun_none]

/-- Settles O51: the layouts of R264 to R266 read 7, 7 and 8 bytes. -/
theorem shortPayloadRefused : Obligations.ShortPayloadRefused := by
  refine fun s => ⟨fun hlen => ?_, fun hr hlen => ?_, fun hr hlen => exec_dispatch_short hr hlen⟩
  · rw [exec_tagRawGyro]
    exact selectAndRun_short hlen
  · obtain hr | hr := hr
    · exact exec_dispatch_short hr hlen
    · exact exec_dispatch_short hr hlen

/-- Settles O49: the HS_RAW routine reads 13 bytes and writes the model's own field. -/
theorem dispatchHsRaw : Obligations.DispatchHsRaw := by
  intro s hlen t
  have hrow : exec .tagHsRaw s = .next t := by
    rw [exec_tagHsRaw]
    exact selectAndRun_some hlen
  exact ⟨hrow, fun htyp => (exec_dispatch_hsRaw htyp).trans hrow⟩

/-- Settles O50: each routine by its frame, and what it writes by the arguments of the layout's function. -/
theorem rangesFeedConversion : Obligations.RangesFeedConversion := by
  refine ⟨fun s t hr h => ?_, fun s s' t t' hdata hr hr' h h' => ?_, fun s t hr h => ?_,
    fun s s' t t' hdata hr hr' hgyro haccel h h' => ?_⟩
  · rw [dsr_of_exec_dispatch hr h]
    exact routineOn_frame .resolution _ _
  · rw [dsr_of_exec_dispatch hr h, dsr_of_exec_dispatch hr' h', hdata]
    exact ⟨rfl, rfl⟩
  · rw [dsr_of_exec_dispatch hr h]
    exact routineOn_frame .hsConverted _ _
  · rw [dsr_of_exec_dispatch hr h, dsr_of_exec_dispatch hr' h', hdata]
    exact ⟨congrArg (Config.hsConvertedGyro · _) hgyro, congrArg (Config.hsConvertedAccel · _) haccel⟩

end Dispatch

/-! ## The fields of a payload (R51, R71) -/

section Payload
variable {data : List Byte} {m o n : Nat}

/-- A field within the bytes a routine sees is the payload's big-endian number there. -/
theorem fieldAt_take_eq_beSum (h : o + n ≤ m) (hm : m ≤ data.length) :
    fieldAt (data.take m) o n = beSum data o n := by
  rw [fieldAt_take h, fieldAt]
  exact ByteOrder.be.value_slice (h.trans hm)

theorem byteAt_take (h : o < m) : (byteAt (data.take m) o).toNat = byteNum data o := by
  simp [byteAt, byteNum, List.getElem?_take_of_lt h]

/-- A sample is two bytes, the first the more significant. -/
theorem beSum_two (data : List Byte) (o : Nat) :
    beSum data o 2 = byteNum data o * 256 + byteNum data (o + 1) := by
  simp [beSum, Finset.sum_range_succ]

theorem sampleAt_take (h : o + 2 ≤ m) (hm : m ≤ data.length) :
    sampleAt (data.take m) o = BitVec.ofNat 16 (beSum data o 2) := by
  rw [sampleAt, fieldAt_take_eq_beSum h hm]

theorem toNat_sampleAt_take (h : o + 2 ≤ m) (hm : m ≤ data.length) :
    (sampleAt (data.take m) o).toNat = byteNum data o * 256 + byteNum data (o + 1) := by
  rw [sampleAt_take h hm, ← beSum_two]
  exact toNat_ofNat_field (n := 2) (ByteOrder.be.sum_lt (h.trans hm))

theorem toInt_sampleAt_take (h : o + 2 ≤ m) (hm : m ≤ data.length) :
    (sampleAt (data.take m) o).toInt = signedOf 16 (byteNum data o * 256 + byteNum data (o + 1)) := by
  rw [sampleAt_take h hm, ← beSum_two]
  exact toInt_ofNat_field (n := 2) (by decide) (ByteOrder.be.sum_lt (h.trans hm))

/-! ## The layouts the spec gives (R264 to R266) -/

/-- The voltage of the big-endian sample at `k`, as the record stores it (R264, R265). -/
def voltsAt (scale : ℝ) (data : List Byte) (k : Nat) : Stored .sensorsVolts :=
  Config.store .sensorsVolts (((byteNum data k * 256 + byteNum data (k + 1) : ℕ) : ℝ) * scale)

/-- The voltages of the three samples at the front of a payload. -/
def frontVolts (scale : ℝ) (data : List Byte) : Triple .sensorsVolts where
  x := voltsAt scale data 0
  y := voltsAt scale data 2
  z := voltsAt scale data 4

theorem storeVolts_take (scale : ℝ) (h : 6 ≤ m) (hm : m ≤ data.length) :
    storeVolts scale (data.take m) = frontVolts scale data := by
  rw [storeVolts, toNat_sampleAt_take (by omega) hm, toNat_sampleAt_take (by omega) hm,
    toNat_sampleAt_take (by omega) hm]
  rfl

theorem storeByte_take (k : RecordField) (h : o < m) :
    storeByte k (data.take m) o = Config.store k (byteNum data o : ℝ) := by
  rw [storeByte, byteAt_take h]

theorem routineOn_rawGyro (d : Dsr) (h : 7 ≤ data.length) :
    routineOn .rawGyro data d =
      { d with
        gyroVolts := frontVolts Config.analogScaleGyro data
        sequenceNumber := Config.store .sequenceNumber (byteNum data 6 : ℝ) } := by
  rw [← storeVolts_take _ (m := 7) (by decide) h, ← storeByte_take .sequenceNumber (m := 7) (by decide)]
  rfl

theorem routineOn_rawAccel (d : Dsr) (h : 7 ≤ data.length) :
    routineOn .rawAccel data d =
      { d with
        accelVolts := frontVolts Config.analogScaleAccel data
        sequenceNumber := Config.store .sequenceNumber (byteNum data 6 : ℝ) } := by
  rw [← storeVolts_take _ (m := 7) (by decide) h, ← storeByte_take .sequenceNumber (m := 7) (by decide)]
  rfl

/-- The 32-bit counter, by the weights of its bytes (R266). -/
theorem beSum_four (data : List Byte) : beSum data 0 4 =
    byteNum data 0 * 2 ^ 24 + byteNum data 1 * 2 ^ 16 + byteNum data 2 * 2 ^ 8 + byteNum data 3 := by
  simp [beSum, Finset.sum_range_succ]

theorem routineOn_timing (d : Dsr) (h : 8 ≤ data.length) :
    routineOn .timing data d =
      { d with
        timeMs := Config.store .time ((beSum data 0 4 : ℝ) / 10000)
        ppsCount := Config.store .ppsCount (byteNum data 4 : ℝ)
        sequenceNumber := Config.store .sequenceNumber (byteNum data 5 : ℝ)
        clockError := Config.store .clockError
          (signedOf 16 (byteNum data 6 * 256 + byteNum data 7) : ℝ) } := by
  have htime : ((((fieldAt (data.take 8) 0 4 : ℚ) / Config.timingDivisor : ℚ)) : ℝ)
      = (beSum data 0 4 : ℝ) / 10000 := by
    rw [fieldAt_take_eq_beSum (by decide) h, Config.timingDivisor]
    norm_num
  rw [← htime, ← toInt_sampleAt_take (m := 8) (o := 6) (by decide) h,
    ← storeByte_take .ppsCount (m := 8) (by decide), ← storeByte_take .sequenceNumber (m := 8) (by decide)]
  rfl

end Payload

/-- Settles O43: the row selects RAW_GYRO, and DISPATCH of its tag is the row. -/
theorem dispatchRawGyro : Obligations.DispatchRawGyro := by
  intro s hlen d volts t
  have hrow : exec .tagRawGyro s = .next t := by
    have hrun := selectAndRun_some (r := .rawGyro) (s := s) hlen
    rw [routineOn_rawGyro _ hlen] at hrun
    exact (exec_tagRawGyro s).trans hrun
  exact ⟨hrow, fun htyp => (exec_dispatch_rawGyro htyp).trans hrow⟩

/-- Settles O44: the layout is that of `routineOn_rawAccel`. -/
theorem dispatchRawAccel : Obligations.DispatchRawAccel := by
  intro s hr hlen
  rw [exec_dispatch_bound hr hlen, routineOn_rawAccel _ hlen]
  rfl

/-- Settles O45: the time is the counter of `beSum_four`, divided exactly. -/
theorem dispatchTiming : Obligations.DispatchTiming := by
  intro s hr hlen d
  rw [exec_dispatch_bound hr hlen, routineOn_timing _ hlen, beSum_four]

/-! ## The calibration packet (R270, R272) -/

/-- A binary32 float field stores a pattern that is not INVALID (R162). -/
theorem decodeF32_fst (u : BitVec 32) : ¬ Invalid32 (decodeF32 u).1 ∧
    (Invalid32 u → (decodeF32 u).1 = 0x3F800000) ∧ (¬ Invalid32 u → (decodeF32 u).1 = u) := by
  by_cases h : Invalid32 u
  · rw [decodeF32_of_invalid h]
    exact ⟨by unfold Invalid32; decide, fun _ => rfl, fun hn => absurd h hn⟩
  · rw [decodeF32_of_valid h]
    exact ⟨h, fun hi => absurd hi h, fun _ => rfl⟩

/-- A binary64 float field stores a pattern that is not INVALID (R164). -/
theorem decodeF64_fst (u : BitVec 64) : ¬ Invalid64 (decodeF64 u).1 ∧
    (Invalid64 u → (decodeF64 u).1 = 0x3FF0000000000000) ∧ (¬ Invalid64 u → (decodeF64 u).1 = u) := by
  by_cases h : Invalid64 u
  · rw [decodeF64_of_invalid h]
    exact ⟨by unfold Invalid64; decide, fun _ => rfl, fun hn => absurd h hn⟩
  · rw [decodeF64_of_valid h]
    exact ⟨h, fun hi => absurd hi h, fun _ => rfl⟩

/-- Both fields of a calibration payload lie within its layout. -/
theorem calibration_within : calibrationIndexAt + Config.calibrationIndexBytes ≤ layoutLen .calibration ∧
    calibrationFloatAt + calibrationFloatBytes ≤ layoutLen .calibration := by
  have hlen : layoutLen .calibration = Config.calibrationIndexBytes + calibrationFloatBytes := rfl
  obtain ⟨hi, hf, -⟩ | ⟨hf, hi, -⟩ := calibration_sequence
  · omega
  · omega

section Calibration
variable {data : List Byte}

theorem calibrationIndex_take (h : layoutLen .calibration ≤ data.length) :
    calibrationIndex (data.take (layoutLen .calibration))
      = beSum data calibrationIndexAt Config.calibrationIndexBytes :=
  fieldAt_take_eq_beSum calibration_within.1 h

theorem calibrationValue_take_f32 (hw : Config.calibrationIsF64 = false)
    (h : layoutLen .calibration ≤ data.length) :
    calibrationValue (data.take (layoutLen .calibration))
      = .f32 (decodeF32 (BitVec.ofNat 32 (beSum data calibrationFloatAt 4))).1 := by
  have hbytes : calibrationFloatBytes = 4 := by simp [calibrationFloatBytes, hw]
  have hfit : calibrationFloatAt + 4 ≤ layoutLen .calibration := hbytes ▸ calibration_within.2
  simp [calibrationValue, hw, fieldAt_take_eq_beSum hfit h]

theorem calibrationValue_take_f64 (hw : Config.calibrationIsF64 = true)
    (h : layoutLen .calibration ≤ data.length) :
    calibrationValue (data.take (layoutLen .calibration))
      = .f64 (decodeF64 (BitVec.ofNat 64 (beSum data calibrationFloatAt 8))).1 := by
  have hbytes : calibrationFloatBytes = 8 := by simp [calibrationFloatBytes, hw]
  have hfit : calibrationFloatAt + 8 ≤ layoutLen .calibration := hbytes ▸ calibration_within.2
  simp [calibrationValue, hw, fieldAt_take_eq_beSum hfit h]

end Calibration

/-- Settles O52: the two places by `calibration_sequence`, the value in the float's either width. -/
theorem calibrationValueIsValid : Obligations.CalibrationValueIsValid := by
  intro s hr hlen seen width
  refine ⟨exec_dispatch_bound hr hlen, rfl, ?_, calibrationIndex_take hlen, ?_⟩
  · obtain ⟨hi, hf, -⟩ | ⟨hf, hi, -⟩ := calibration_sequence
    · exact .inl ⟨hi, hf⟩
    · exact .inr ⟨hf, hi⟩
  · cases hw : Config.calibrationIsF64 with
    | false =>
      rw [calibrationValue_take_f32 hw hlen]
      exact ⟨rfl, decodeF32_fst _⟩
    | true =>
      rw [calibrationValue_take_f64 hw hlen]
      exact ⟨rfl, decodeF64_fst _⟩

end Sys2Proof.Machine
end

section
/-! # The frame builder and the settings message (`45_encoder.md`)

What ENCODE_FRAME builds is the covered part of an ordinary frame with its own CRC behind it, so it is read
byte by byte off that shape, and the framer takes it as it takes every ordinary frame (`feedAll_frameStd`).
Of a settings message only the number behind each field matters (`sentNumber`): a payload that writes such
numbers along any layout is read back by `layoutValue`, wherever the layout puts a field. -/

namespace Sys2Proof.Machine
open Sys2Proof.Claims

/-! ## The built frame (R291) -/

section Built
variable (table : Vector (BitVec 16) 16) (t : Byte) (p : List Byte)

/-- The CRC that ENCODE_FRAME puts behind header and payload. -/
def builtCrc : BitVec 16 := crcBlock table (coveredStd t p)

theorem framedBytes_eq_covered :
    framedBytes table t p = coveredStd t p ++ bytesBe 2 (builtCrc table t p).toNat := rfl

theorem framedBytes_eq_frameStdBytes : framedBytes table t p = frameStdBytes t p (builtCrc table t p) := rfl

@[simp] theorem length_framedBytes : (framedBytes table t p).length = p.length + 6 := by
  rw [framedBytes_eq_frameStdBytes, length_frameStdBytes]

theorem take_framedBytes : (framedBytes table t p).take (p.length + 4) = coveredStd t p := by
  rw [framedBytes_eq_covered, List.take_left' (length_coveredStd t)]

theorem byteNum_framedBytes_payload {i : Nat} (hi : i < p.length) :
    byteNum (framedBytes table t p) (4 + i) = byteNum p i := by
  have hcovered : 4 + i < (coveredStd t p).length := by rw [length_coveredStd]; omega
  rw [byteNum, framedBytes_eq_covered, List.getD_append _ _ _ _ hcovered, coveredStd,
    List.getD_append_right _ _ _ _ (by simp)]
  simp [byteNum]

/-- The trailer is the CRC, high byte first. -/
theorem byteNum_framedBytes_trailer :
    byteNum (framedBytes table t p) (4 + p.length) * 256 + byteNum (framedBytes table t p) (5 + p.length)
      = (builtCrc table t p).toNat := by
  have htrailer : ((framedBytes table t p).drop (4 + p.length)).take 2
      = bytesBe 2 (builtCrc table t p).toNat := by
    rw [framedBytes_eq_covered, List.drop_left' (by rw [length_coveredStd, Nat.add_comm]),
      List.take_of_length_le (by rw [length_bytesBe])]
  have hvalue := ByteOrder.be.value_slice (buf := framedBytes table t p) (o := 4 + p.length) (n := 2)
    (by rw [length_framedBytes]; omega)
  have hcrc : (builtCrc table t p).toNat < 256 ^ 2 := (builtCrc table t p).isLt
  rw [htrailer, ByteOrder.value_be, beValue_bytesBe, Nat.mod_eq_of_lt hcrc] at hvalue
  rw [hvalue, show 5 + p.length = 4 + p.length + 1 by omega]
  exact (beSum_two _ _).symm

end Built

theorem exec_encodeFrame {s : State} (h : s.port.buf.length ≤ 255) :
    exec .encodeFrame s = .next (s.withOut (.block (framedBytes s.cfg.crcTable s.port.tag s.port.buf))) := by
  rw [exec, execEncodeFrame, encodeFrameBytes_ok h, orRefuse_ok]

theorem exec_encodeFrame_tooLong {s : State} (h : 255 < s.port.buf.length) :
    exec .encodeFrame s = .refused .payloadTooLong := by
  rw [exec, execEncodeFrame, encodeFrameBytes_tooLong h, orRefuse_error]

/-- Settles O53: the frame is its covered part and the CRC of that part. -/
theorem encodeFrame : Obligations.EncodeFrame := by
  refine ⟨decode_encode (i := .encodeFrame) rfl, fun s => ⟨fun hlen => ?_, exec_encodeFrame_tooLong⟩⟩
  refine ⟨_, exec_encodeFrame hlen, length_framedBytes _ _ _, rfl, rfl, rfl, toNat_length hlen,
    fun _ hi => byteNum_framedBytes_payload _ _ _ hi, ?_⟩
  rw [take_framedBytes]
  exact byteNum_framedBytes_trailer _ _ _

/-- Settles O39: an ordinary frame with its own CRC is accepted (R292). -/
theorem loopBack : Obligations.LoopBack := by
  intro table t p bs f ht hlen hbuilt hs
  rw [encodeFrameBytes_ok hlen] at hbuilt
  obtain rfl := Except.ok.inj hbuilt
  have hfeed := feedAll_frameStd (table := table) hs ht hlen (builtCrc table t p)
  rw [if_pos (show builtCrc table t p = crcBlock table (coveredStd t p) from rfl)] at hfeed
  exact ⟨length_framedBytes _ _ _, _, hfeed, rfl⟩

/-! ## Numbers along a layout (R71, R293) -/

section Layout
variable (number : SettingsField → ℤ) {layout : List (SettingsField × IntRange)}

/-- The bytes of one number for each field, one field after another. -/
def layoutPayload (layout : List (SettingsField × IntRange)) : List Byte :=
  layout.flatMap fun e => bytesBe e.2.bytes (truncateTo e.2.bytes (number e.1))

theorem layoutPayload_cons (e : SettingsField × IntRange) (layout : List (SettingsField × IntRange)) :
    layoutPayload number (e :: layout)
      = bytesBe e.2.bytes (truncateTo e.2.bytes (number e.1)) ++ layoutPayload number layout := rfl

theorem length_layoutPayload (layout : List (SettingsField × IntRange)) :
    (layoutPayload number layout).length = layoutBytes layout := by
  simp [layoutPayload, layoutBytes, List.length_flatMap]

/-- Sequential consumption finds the number of every field of the layout, where each fits its place. -/
theorem layoutValue_layoutPayload {f : SettingsField} (hf : f ∈ layout.map (·.1))
    (hfit : ∀ e ∈ layout, e.2.lo ≤ number e.1 ∧ number e.1 ≤ e.2.hi) :
    layoutValue layout (layoutPayload number layout) f = number f := by
  induction layout with
  | nil => cases hf
  | cons e layout ih =>
    obtain ⟨g, r⟩ := e
    obtain ⟨hhead, htail⟩ := List.forall_mem_cons.1 hfit
    rw [layoutPayload_cons, layoutValue]
    by_cases hg : g = f
    · rw [if_pos hg, List.take_left' (length_bytesBe _ _), beValue_bytesBe,
        Nat.mod_eq_of_lt (truncateTo_lt _ _), intRange_value_truncateTo hhead, hg]
    · rw [if_neg hg, List.drop_left' (length_bytesBe _ _)]
      have hrest : f ∈ layout.map (·.1) := (List.mem_cons.1 hf).resolve_left (Ne.symm hg)
      exact ih hrest htail

end Layout

theorem intRange_bytes_le (r : IntRange) : r.bytes ≤ 4 := by cases r <;> decide

/-- Four fields of at most four bytes fit a frame. -/
theorem settingsLen_le : settingsLen ≤ 16 := by
  have hbytes := List.sum_le_card_nsmul (settingsLayout.map (·.2.bytes)) 4
    (List.forall_mem_map.2 fun e _ => intRange_bytes_le e.2)
  simpa [settingsLen, layoutBytes, settingsLayout] using hbytes

/-! ## The settings message (R293, R298) -/

theorem hasValue_ofRational (q : ℚ) : (ofRational q).HasValue q := by
  refine ⟨_, _, _, rfl, q.den_pos, ?_⟩
  have habs : (q.num : ℚ) = (-1) ^ (decide (q.num < 0)).toNat * (q.num.natAbs : ℚ) := by
    rcases lt_or_ge q.num 0 with h | h
    · rw [Nat.cast_natAbs, abs_of_neg h]
      simp [h]
    · rw [Nat.cast_natAbs, abs_of_nonneg h]
      simp [not_lt.2 h]
  rw [← mul_div_assoc, ← habs, Rat.num_div_den]

/-- A finite input is narrowed to its range, whatever a NaN does. -/
theorem roundValue_hasValue {x : RealOperand} {q : ℚ} (nan : RoundNan) (r : IntRange) (h : x.HasValue q) :
    roundValue nan r x = .ok (saturated r.lo r.hi (nearest q)) := by
  obtain ⟨neg, num, den, rfl, hden, rfl⟩ := h
  rw [roundValue_finite, roundNearest_eq hden, saturate_eq_saturated]

section Message
variable (x : SettingsInputs)

/-- The number that a settings message carries in a field. -/
def sentNumber : SettingsField → ℤ
  | .mode => x.mode
  | .device => x.device
  | .ratio => x.ratio
  | .rate => sentPeriod x.rate

theorem settingsItem_bytes (nan : RoundNan) (f : SettingsField) :
    (settingsItem x (f, Config.settingsFormat f)).bytes nan
      = .ok (bytesBe (Config.settingsFormat f).bytes
          (truncateTo (Config.settingsFormat f).bytes (sentNumber x f))) := by
  cases f with
  | mode => rfl
  | device => rfl
  | ratio => rfl
  | rate =>
    rw [settingsItem, PayloadItem.bytes, roundValue_hasValue nan _ (hasValue_ofRational _)]
    rfl

/-- The items of a message compose to the numbers it carries. -/
theorem itemBytes_settingsItem (nan : RoundNan) {layout : List (SettingsField × IntRange)}
    (hrange : ∀ e ∈ layout, e.2 = Config.settingsFormat e.1) :
    itemBytes nan (layout.map (settingsItem x)) = .ok (layoutPayload (sentNumber x) layout) := by
  induction layout with
  | nil => rfl
  | cons e layout ih =>
    obtain ⟨f, r⟩ := e
    obtain ⟨hhead, htail⟩ := List.forall_mem_cons.1 hrange
    obtain rfl : r = Config.settingsFormat f := hhead
    simp only [List.map_cons, itemBytes, settingsItem_bytes, ih htail, Except.map, layoutPayload_cons]

/-- The payload of a settings message. -/
def settingsPayload : List Byte := layoutPayload (sentNumber x) settingsLayout

theorem length_settingsPayload : (settingsPayload x).length = layoutLen .settings :=
  length_layoutPayload _ _

theorem length_settingsPayload_le : (settingsPayload x).length ≤ 255 :=
  (length_settingsPayload x).trans_le (settingsLen_le.trans (by decide))

theorem encodeSettings_eq (cfg : Params) (tag : Byte) :
    encodeSettings cfg tag x = encodeFrameBytes cfg.crcTable tag (settingsPayload x) := by
  have hitems : itemBytes cfg.roundNan (settingsLayout.map (settingsItem x)) = .ok (settingsPayload x) :=
    itemBytes_settingsItem x _ fun _ he => settingsLayout_range he
  rw [encodeSettings, buildMessage_ok hitems (length_settingsPayload_le x),
    encodeFrameBytes_ok (length_settingsPayload_le x)]

theorem fitsField_sentPeriod (rate : ℚ) : FitsField .rate (sentPeriod rate) := saturate_mem _ _

variable {x}

/-- The SETTINGS routine reads in each field the number sent. -/
theorem layoutValue_settingsPayload (hmode : FitsField .mode x.mode) (hdevice : FitsField .device x.device)
    (hratio : FitsField .ratio x.ratio) (f : SettingsField) :
    layoutValue settingsLayout (settingsPayload x) f = sentNumber x f := by
  have hfit (g : SettingsField) : FitsField g (sentNumber x g) := by
    cases g with
    | mode => exact hmode
    | device => exact hdevice
    | ratio => exact hratio
    | rate => exact fitsField_sentPeriod x.rate
  refine layoutValue_layoutPayload _ (settingsLayout_fields.2 f) fun e he => ?_
  rw [settingsLayout_range he]
  exact hfit e.1

theorem routineOn_settingsPayload (d : Dsr) (hmode : FitsField .mode x.mode)
    (hdevice : FitsField .device x.device) (hratio : FitsField .ratio x.ratio) :
    routineOn .settings (settingsPayload x) d =
      { d with
        outputMode := Config.store .outputMode (x.mode : ℝ)
        outputDevice := Config.store .outputDevice (x.device : ℝ)
        oversampleRatio := Config.store .oversampleRatio (x.ratio : ℝ)
        outputRate := Config.store .outputRate (rateTransform (sentPeriod x.rate)) } := by
  rw [routineOn, List.take_of_length_le (length_settingsPayload x).le, routineEffect, routineSettings]
  simp only [layoutValue_settingsPayload hmode hdevice hratio, sentNumber]

end Message

/-! ## The transform of the rate (R293) -/

theorem rateTransform_of_ne_zero {q : ℚ} (h : q ≠ 0) : rateTransform q = 1000000 / q := by
  rw [rateTransform, if_neg h, Config.rateNumerator]
  norm_num

/-- The transform is its own inverse away from zero. -/
theorem rateTransform_div {q : ℚ} (h : q ≠ 0) : rateTransform (1000000 / q) = q := by
  rw [rateTransform_of_ne_zero (div_ne_zero (by norm_num) h), div_div_cancel₀ (by norm_num)]

theorem nearest_intCast (n : ℤ) : nearest (n : ℚ) = n := by
  have hfloor (m : ℤ) : ⌊(m : ℚ) + 1 / 2⌋ = m := by
    rw [Int.floor_intCast_add]
    norm_num
  rcases le_total 0 n with h | h
  · rw [nearest_of_nonneg (by exact_mod_cast h), hfloor]
  · have hneg := nearest_neg_of_nonneg (x := ((-n : ℤ) : ℚ)) (by exact_mod_cast neg_nonneg.2 h)
    rw [hfloor] at hneg
    simpa using hneg

/-- A whole period that fits its field is sent as it is. -/
theorem sentPeriod_of_fits {period : ℤ} (h0 : period ≠ 0) (hfit : FitsField .rate period) :
    sentPeriod (1000000 / period) = period := by
  rw [sentPeriod, rateTransform_div (by exact_mod_cast h0), nearest_intCast]
  exact saturate_eq hfit

/-- Settles O54: both directions go through the numbers of `sentNumber`. -/
theorem settingsRoundTrip : Obligations.SettingsRoundTrip := by
  refine ⟨fun s tag x hmode hdevice hratio hr => ?_, fun _ hq => rateTransform_of_ne_zero hq,
    fun rate period h0 hfit hrate => ?_⟩
  · refine ⟨settingsPayload x, length_settingsPayload x, length_settingsPayload_le x,
      encodeSettings_eq x s.cfg tag, fun hdata => ?_⟩
    rw [exec_dispatch_bound hr (by rw [hdata, length_settingsPayload]), hdata,
      routineOn_settingsPayload _ hmode hdevice hratio]
  · rw [hrate, sentPeriod_of_fits h0 hfit, rateTransform_of_ne_zero (by exact_mod_cast h0)]

end Sys2Proof.Machine
end

section
/-! # Reset (`70_reset_and_hazards.md`)

Two framers in stage SYNC0 with equal OVERSIZE are each compared with a third, whose BUF lists nothing:
`Framer.RunsAs f g` says that `g` stands where `f` stands and that BUF of `g` has all that `f` has written.
Every FEED keeps it, because in a state of the invariant the framer reads only what is written (R230). -/

namespace Sys2Proof.Machine

/-! ## A BUF that has all that another has written -/

/-- Each byte written in `m` reads the same in `m'`. -/
def Memory.ExtendedBy (m m' : Memory) : Prop :=
  ∀ a, Memory.Written m a → Memory.read m' a = Memory.read m a

section Extended
variable {m m' : Memory}

theorem Memory.extendedBy_of_nil (m : Memory) : Memory.ExtendedBy [] m := by
  simp [Memory.ExtendedBy, Memory.Written]

theorem Memory.ExtendedBy.write (h : Memory.ExtendedBy m m') (a : Nat) (b : Byte) :
    Memory.ExtendedBy (Memory.write m a b) (Memory.write m' a b) := by
  intro k hk
  rw [Memory.Written, Memory.read_write] at hk
  rw [Memory.read_write, Memory.read_write]
  split_ifs at hk ⊢
  · rfl
  · exact h k hk

theorem Memory.ExtendedBy.byte (h : Memory.ExtendedBy m m') {a : Nat} (ha : Memory.Written m a) :
    Memory.byte m' a = Memory.byte m a := by
  rw [Memory.byte, Memory.byte, h a ha]

/-- Validation reads the bytes of the image and no others (R227 to R229). -/
theorem validate_congr {table : Vector (BitVec 16) 16}
    (himage : ∀ a < (Memory.byte m 3).toNat + 6, Memory.byte m' a = Memory.byte m a)
    (helided : Memory.byte m 2 = Config.tagHsRaw → (Memory.byte m 3).toNat = Config.hsRawLen) :
    validate table m' = validate table m := by
  have hbytes (off n : Nat) (hle : off + n ≤ (Memory.byte m 3).toNat + 6) :
      Memory.bytes m' off n = Memory.bytes m off n :=
    Memory.bytes_congr fun i hi => himage _ (by omega)
  have h2 : Memory.byte m' 2 = Memory.byte m 2 := himage 2 (by omega)
  have h3 : Memory.byte m' 3 = Memory.byte m 3 := himage 3 (by omega)
  have hreceived : receivedCrc m' = receivedCrc m := by
    rw [receivedCrc, receivedCrc, h3, himage _ (by omega), himage _ (by omega)]
  have hexpected : expectedCrc table m' = expectedCrc table m := by
    rw [expectedCrc, expectedCrc, h2, h3, hbytes 0 3 (by omega), hbytes 0 _ (by omega)]
    by_cases ht : Memory.byte m 2 = Config.tagHsRaw
    · rw [hbytes 4 Config.hsRawLen (by rw [helided ht]; omega)]
    · rw [if_pos ht, if_pos ht]
  rw [validate, validate, hexpected, hreceived, h2, h3, hbytes 4 _ (by omega)]

end Extended

/-! ## Two framers at one point of a stream -/

/-- `g` stands where `f` stands: what a FEED reads in `f`'s stage is in `g` as it is in `f`. In stage SYNC0 a
FEED reads no IDX (R221). -/
structure Framer.RunsAs (f g : Framer) : Prop where
  stage : g.stage = f.stage
  oversize : g.oversize = f.oversize
  idx : f.stage ≠ .sync0 → g.idx = f.idx
  buf : Memory.ExtendedBy f.buf g.buf

section RunsAs
variable {table : Vector (BitVec 16) 16} {b : Byte} {f f' g : Framer} {p : Option Packet}

/-- In stage DATA the count and the stated length agree, and at the last byte the whole image. -/
theorem Framer.runsAs_feedByte_data (hf : f.Inv) (hr : f.RunsAs g) (hs : f.stage = .data)
    (h : feedByte table b f = .ok (f', p)) : ∃ g', feedByte table b g = .ok (g', p) ∧ f'.RunsAs g' := by
  have ⟨_, _, _, _, _, _, hdata⟩ := hf
  obtain ⟨h3, hlt, helided, -, -⟩ := hdata hs
  have hgs : g.stage = .data := hr.stage.trans hs
  have hidx : g.idx = f.idx := hr.idx (by simp [hs])
  have hlen : Memory.byte g.buf 3 = Memory.byte f.buf 3 := hr.buf.byte h3
  have hbuf := hr.buf.write (4 + f.idx.toNat) b
  obtain hmore | hend : f.idx.toNat + 1 < (Memory.byte f.buf 3).toNat + 2 ∨
      f.idx.toNat + 1 = (Memory.byte f.buf 3).toNat + 2 := by omega
  · cases (feedByte_data_more hs hmore).symm.trans h
    have hgmore := feedByte_data_more (table := table) (b := b) hgs (by rwa [hidx, hlen])
    rw [hidx] at hgmore
    exact ⟨_, hgmore, hr.stage, hr.oversize, fun _ => rfl, hbuf⟩
  · cases (feedByte_data_last hs hend).symm.trans h
    have hverdict := validate_congr (table := table)
      (fun a ha => hbuf.byte (Framer.written_of_complete hf hs h rfl ha)) (by
        rwa [Memory.byte_write_other _ _ (by omega), Memory.byte_write_other _ _ (by omega)])
    have hlast := feedByte_data_last (table := table) (b := b) hgs (by rwa [hidx, hlen])
    rw [hidx, hverdict] at hlast
    exact ⟨_, hlast, rfl, hr.oversize, fun hne => absurd rfl hne, hbuf⟩

/-- One FEED has the same result in both, and leaves them at one point again. -/
theorem Framer.runsAs_feedByte (hf : f.Inv) (hr : f.RunsAs g) (h : feedByte table b f = .ok (f', p)) :
    ∃ g', feedByte table b g = .ok (g', p) ∧ f'.RunsAs g' := by
  have ⟨_, _, _, _, h2, hzero, _⟩ := hf
  obtain ⟨hs, rfl, rfl, rfl⟩ | ⟨hs, hb, rfl, rfl⟩ | ⟨hs, rfl, rfl, rfl⟩ | ⟨hs, hb, rfl, rfl⟩ |
    ⟨hs, rfl, rfl⟩ | ⟨hs, ht, rfl, rfl⟩ | ⟨hs, ht, -⟩ | ⟨hs, -⟩ := feedByte_cases h
  · exact ⟨_, feedByte_sync0_match (hr.stage.trans hs), rfl, hr.oversize, fun _ => rfl, hr.buf.write _ _⟩
  · exact ⟨_, feedByte_sync0_skip (hr.stage.trans hs) hb, hr⟩
  · exact ⟨_, feedByte_sync1_match (hr.stage.trans hs), rfl, hr.oversize, fun _ => hr.idx (by simp [hs]),
      hr.buf.write _ _⟩
  · exact ⟨_, feedByte_sync1_drop (hr.stage.trans hs) hb, rfl, hr.oversize, fun hne => absurd rfl hne, hr.buf⟩
  · exact ⟨_, feedByte_type (hr.stage.trans hs), rfl, hr.oversize, fun _ => hr.idx (by simp [hs]),
      hr.buf.write _ _⟩
  · have htyp : Memory.byte g.buf 2 = Memory.byte f.buf 2 := hr.buf.byte (h2 (by simp [hs]))
    refine ⟨_, feedByte_len_std (hr.stage.trans hs) (by rwa [htyp]), rfl, ?_, fun _ => hr.idx (by simp [hs]),
      hr.buf.write _ _⟩
    rw [hr.oversize]
  · have htyp : Memory.byte g.buf 2 = Memory.byte f.buf 2 := hr.buf.byte (h2 (by simp [hs]))
    have hidx : f.idx = 0 := hzero (by simp [hs])
    have hgidx : g.idx = 0 := (hr.idx (by simp [hs])).trans hidx
    cases (feedByte_len_elided hs ht hidx).symm.trans h
    exact ⟨_, feedByte_len_elided (hr.stage.trans hs) (by rwa [htyp]) hgidx, rfl, hr.oversize, fun _ => rfl,
      (hr.buf.write _ _).write _ _⟩
  · exact Framer.runsAs_feedByte_data hf hr hs h

/-- A stream has the same results in both, and leaves them at one point. -/
theorem Framer.runsAs_feedAll {bs : List Byte} {ps : List (Option Packet)} (hf : f.Inv) (hr : f.RunsAs g)
    (h : feedAll table bs f = .ok (f', ps)) : ∃ g', feedAll table bs g = .ok (g', ps) ∧ f'.RunsAs g' := by
  induction bs generalizing f g ps with
  | nil =>
    cases h
    exact ⟨g, rfl, hr⟩
  | cons b bs ih =>
    obtain ⟨f₁, p, qs, hb, hbs, rfl⟩ := feedAll_cons_inv h
    obtain ⟨g₁, hgb, hr₁⟩ := Framer.runsAs_feedByte hf hr hb
    obtain ⟨g', hgbs, hr'⟩ := ih (Framer.inv_feedByte hf hb) hr₁ hbs
    exact ⟨g', by rw [feedAll_cons hgb, hgbs]; rfl, hr'⟩

end RunsAs

/-! ## Reset (R340, R342) -/

/-- The framer in stage SYNC0 with IDX 0 and nothing of BUF written. -/
def Framer.blank (oversize : Bool) : Framer := { Framer.reset with oversize := oversize }

theorem Framer.inv_blank (o : Bool) : (Framer.blank o).Inv :=
  Framer.inv_of_sync0 rfl Memory.wf_nil (Nat.zero_le _)

/-- A framer in stage SYNC0 stands where the blank one of its OVERSIZE stands, whatever its BUF and IDX. -/
theorem Framer.blank_runsAs {f : Framer} (hs : f.stage = .sync0) : (Framer.blank f.oversize).RunsAs f where
  stage := hs
  oversize := rfl
  idx hne := absurd rfl hne
  buf := Memory.extendedBy_of_nil f.buf

/-- Settles O1: the Framer State at reset is `Framer.reset`. -/
theorem resetFramerState : Obligations.ResetFramerState := ⟨rfl, rfl, rfl⟩

/-- Settles O41: both framers run as the blank one, whose stream completes by the invariant. -/
theorem resetEquivalence : Obligations.ResetEquivalence := by
  intro table f g hf hg ho bs
  have hinv := Framer.inv_blank f.oversize
  obtain ⟨r, ps, hblank⟩ := Framer.feedAll_completes (table := table) bs hinv
  have hrunsf := Framer.blank_runsAs hf
  have hrunsg := ho ▸ Framer.blank_runsAs hg
  obtain ⟨f', hf', hrf⟩ := Framer.runsAs_feedAll hinv hrunsf hblank
  obtain ⟨g', hg', hrg⟩ := Framer.runsAs_feedAll hinv hrunsg hblank
  exact ⟨f', g', ps, hf', hg', hrf.stage.trans hrg.stage.symm, hrf.oversize.trans hrg.oversize.symm⟩

end Sys2Proof.Machine
end
